-- ==== Sys2Proof/Word.lean ====
section
/-! DEFINITION. The word types of the B32TLV block (spec/00_scope.md R7): every value is unsigned. -/

namespace Sys2Proof

/-- A bus word, a command word or a whole register (R23, R80). -/
abbrev Word := BitVec 32

/-- A buffer byte, a text character, a TLV type or length (R9, R60). -/
abbrev Byte := BitVec 8

/-- A 5-bit symbol, "word" in the spec's text (R7). -/
abbrev Sym := BitVec 5

/-- The value of the 30-bit checksum register (R30, R100). -/
abbrev Chk := BitVec 30

/-- A length, an IBUF offset or the converter's accumulator (R26, R35, R38). -/
abbrev Half := BitVec 16

/-- A byte sequence: text, words of one byte each, or a TLV stream (R64). -/
abbrev Bytes := List Byte

end Sys2Proof
end

