-- ==== Sys2Proof/Config.lean ====
section
/-! DEFINITION. What is fixed for one block: its buffer size, its place on the platform, and the free values that stand
wherever the spec says "unspecified" (60_exceptions.md R273, 93_implementation_defined.md X1 to X8). A free value has no body:
no proof can learn what it is, so a claim about it holds for every value. -/

namespace Sys2Proof.Config

/-- BUF_BYTES, the size of each of the three buffers (R6, R60): the value this hardware takes. -/
def bufBytes : Nat := 512

/-- BLOCK_BASE, the platform address of the block (R6, R61): left OPEN by the spec (X15), so a constant without a body. -/
opaque blockBase : Nat

/-- The byte that draw number `draw` gives the buffer byte at block offset `offset` (X1, X2, X5, X8; log entries 1, 2, 4). -/
opaque freeByte (draw offset : Nat) : Byte

/-- The value draw number `draw` gives CHK after an error that leaves it unspecified (X3; R135, R273). -/
opaque freeChk (draw : Nat) : Chk

/-- The value draw number `draw` gives record-table entry `i` after a failed TLV_PARSE (X4; R193, R273). -/
opaque freeRec (draw i : Nat) : Word

/-- The value draw number `draw` gives a register read while BUSY = 1 (X5; R68). -/
opaque freeWord (draw : Nat) : Word

end Sys2Proof.Config
end

