-- ==== Sys2Proof/Machine/State.lean ====
section
/-! DEFINITION. Everything the spec gives the block to hold (10_state.md, 20_memory.md R60), the reasons a step can stop, and
the state after reset (70_reset_and_hazards.md R290). -/

namespace Sys2Proof.Machine

/-- The error codes of R275. A command that raises one completes and reports it in STATUS (R272); it does not stop the machine.
`wrongChecksumVariant`, `missingField` and `malformedField` are the host layer's: no command raises them. -/
inductive Err where
  | invalidCharacter
  | mixedCase
  | checksumInvalid
  | wrongChecksumVariant
  | lengthExceeded
  | nonCanonicalPadding
  | unknownTlvType
  | truncatedTlv
  | emptyTlvSequence
  | missingField
  | malformedField
  | unrecognizedPrefix
  | encodingKindMismatch
  | missingSeparator
  | tooShort
  | invalidWitnessVersion
  | invalidProgramLength
  | invalidWord
  | illegalCommand
deriving DecidableEq, Repr

/-- Why the machine stops. -/
inductive Fault where
  /-- Raised by a host write of any location while BUSY = 1 (R296, X6): the spec gives the state after it no meaning. Safe:
  nothing can be proved of a run after it. -/
  | hostWriteWhileBusy
deriving DecidableEq, Repr

/-- Why the model gives something no meaning. -/
inductive Refusal where
  /-- Answered by exec for an instruction that has no meaning yet. Safe. -/
  | notModelled (mnemonic : String)
  /-- Answered for a host access that R62 does not admit (X7): wrong width, misaligned, or outside the block. Safe. -/
  | unadmittedAccess
deriving DecidableEq, Repr

/-- STATUS (R25): its fields; the reserved bits have no storage. -/
structure Status where
  busy : Bool
  done : Bool
  err : Bool
  errcode : BitVec 5
  enc : BitVec 2
deriving DecidableEq, Repr

/-- TLV_FOUND (R33). -/
structure Found where
  index : BitVec 5
  found : Bool
deriving DecidableEq, Repr

/-- A record-table entry TLV_REC[i] (R35): all 32 bits are field bits. -/
structure Record where
  type : Byte
  length : Byte
  voff : Half
deriving DecidableEq, Repr

/-- The parser states of R39. -/
inductive ParserState where
  | idle
  | type
  | len
  | value
  | done
  | fail
deriving DecidableEq, Repr

/-- The three buffers (R60). -/
inductive Buffer where
  | hbuf
  | ibuf
  | obuf
deriving DecidableEq, Repr

/-- The buffers' contents over the block's offsets (R61). A cell is a byte that something has set since its buffer was last
unspecified; a byte with no cell holds the free value of its buffer's draw (R273, R293; log entries 1 and 2). -/
structure Memory where
  cells : List Host.Cell
  hbufDraw : Nat
  ibufDraw : Nat
  obufDraw : Nat
deriving DecidableEq, Repr

/-- What the outside world can do to the block (R20, R63, R290). Offsets are relative to BLOCK_BASE, widths are in bytes. -/
inductive Event where
  /-- MemRead(offset, width) by the host (R63). -/
  | busRead (offset width : Nat)
  /-- MemWrite(offset, width, value) by the host (R63). -/
  | busWrite (offset width : Nat) (value : Word)
  /-- The host waits while the block takes its turn (R270, R301). -/
  | blockTurn
  /-- A reset (R290). -/
  | reset
deriving DecidableEq, Repr

/-- The state of the block and of what stands around it. -/
structure State where
  /-- CMD (R24). -/
  cmd : Word
  /-- STATUS (R25). -/
  status : Status
  /-- IN_LEN (R26). -/
  inLen : Half
  /-- HRP_LEN (R27). -/
  hrpLen : Half
  /-- OUT_LEN (R28). -/
  outLen : Half
  /-- MAX_LEN (R29). -/
  maxLen : Half
  /-- CHK (R30). -/
  chk : Chk
  /-- VERSION (R31). -/
  version : BitVec 5
  /-- TLV_COUNT (R32). -/
  tlvCount : BitVec 5
  /-- TLV_FOUND (R33). -/
  tlvFound : Found
  /-- TLV_END (R34). -/
  tlvEnd : Half
  /-- TLV_REC[0..15] (R35). -/
  tlvRec : Vector Record 16
  /-- HBUF, IBUF and OBUF (R60). -/
  mem : Memory
  /-- The pending command word, hidden (R40). -/
  pending : Option Word
  /-- ACC, hidden (R38). -/
  acc : Half
  /-- BITS, hidden (R38). -/
  bits : Nat
  /-- OFF, hidden (R39). -/
  off : Half
  /-- NREC, hidden (R39). -/
  nrec : Nat
  /-- PSTATE, hidden (R39). -/
  pstate : ParserState
  /-- The segwit scratch's hrp, hidden (R41). -/
  scratchHrp : Bytes
  /-- The segwit scratch's words, hidden (R41). -/
  scratchWords : List Sym
  /-- The model's own: how many free-value draws have been used (log entry 2). -/
  drawn : Nat
  /-- The model's own: outside events still to come, oldest first (log entry 5). -/
  inputs : List Event
  /-- The model's own: the values the host's reads have returned, oldest first (log entry 16). -/
  readLog : List Word
deriving DecidableEq, Repr

/-- The state after reset (R290). The buffers are unspecified: no cell is listed and draw 0 gives their bytes. -/
def State.reset : State where
  cmd := 0x00000000
  status := ⟨false, false, false, 0, 0⟩
  inLen := 0
  hrpLen := 0
  outLen := 0
  maxLen := 256
  chk := 0x00000001
  version := 0
  tlvCount := 0
  tlvFound := ⟨0, false⟩
  tlvEnd := 0
  tlvRec := Vector.replicate 16 ⟨0, 0, 0⟩
  mem := ⟨[], 0, 0, 0⟩
  pending := none
  acc := 0
  bits := 0
  off := 0
  nrec := 0
  pstate := .idle
  scratchHrp := []
  scratchWords := []
  drawn := 1
  inputs := []
  readLog := []

end Sys2Proof.Machine
end

