-- ==== Sys2Proof/Syntax.lean ====
section
/-! DEFINITION. The command set B32TLV-1: one constructor per row of spec/opcode_table.json (30_encoding.md R82), operands as
the assembler writes them (R86). -/

namespace Sys2Proof

/-- Field E: which checksum constant (R80, format E). -/
inductive Encoding where
  | bech32
  | bech32m
deriving DecidableEq, Repr

/-- Field DIR of CONVERT: 8 to 5 or 5 to 8 (R80, format C). -/
inductive Direction where
  | to5
  | to8
deriving DecidableEq, Repr

/-- Field PAD of CONVERT (R80, format C). -/
inductive Padding where
  | nopad
  | pad
deriving DecidableEq, Repr

/-- Field BARE of the segwit commands (R80, format S). -/
inductive SegwitMode where
  | versioned
  | bare
deriving DecidableEq, Repr

/-- A command. CHK_STEP's value and TLV_FIND's type are numbers as the assembler reads them; `WellFormed` gives their ranges. -/
inductive Instr where
  /-- NOP (R220). -/
  | nop
  /-- CHK_INIT (R102). -/
  | chkInit
  /-- CHK_STEP v (R103). -/
  | chkStep (v : Nat)
  /-- CHK_HRP (R105). -/
  | chkHrp
  /-- CHK_FINAL e (R107). -/
  | chkFinal (e : Encoding)
  /-- B32_ENCODE e (R125). -/
  | b32Encode (e : Encoding)
  /-- B32_DECODE (R131). -/
  | b32Decode
  /-- CONVERT dir, pad (R153). -/
  | convert (dir : Direction) (padding : Padding)
  /-- SEGWIT_ENCODE mode (R171). -/
  | segwitEncode (mode : SegwitMode)
  /-- SEGWIT_DECODE mode (R173). -/
  | segwitDecode (mode : SegwitMode)
  /-- TLV_PARSE (R193). -/
  | tlvParse
  /-- TLV_FIND t (R196). -/
  | tlvFind (t : Nat)
  /-- TLV_ENCODE (R197). -/
  | tlvEncode
  /-- XFER (R222). -/
  | xfer
deriving DecidableEq, Repr

end Sys2Proof
end

