-- ==== Sys2Proof/Machine/Tables.lean ====
section
/-! DEFINITION. The block's constants and constant tables: the fixed parameters of R6, the charset ROM (R42), the reverse
lookup ROM (R43), the checksum constants (R44) and the numbering of the error codes (R275). -/

namespace Sys2Proof.Machine

/-- SEP, ASCII `1` (R6). -/
def sep : Byte := 0x31

/-- HRP_MIN_CHAR and HRP_MAX_CHAR (R6). -/
abbrev hrpMinChar : Nat := 33

/-- The upper end of the hrp character range (R6). -/
abbrev hrpMaxChar : Nat := 126

/-- MIN_TEXT_LEN (R6). -/
abbrev minTextLen : Nat := 8

/-- CHK_SYMBOLS (R6). -/
abbrev chkSymbols : Nat := 6

/-- SEGWIT_MAX_LEN (R6, R170). -/
abbrev segwitMaxLen : Nat := 90

/-- WITVER_MAX (R6). -/
abbrev witverMax : Nat := 16

/-- PROG_MIN (R6). -/
abbrev progMin : Nat := 2

/-- PROG_MAX (R6). -/
abbrev progMax : Nat := 40

/-- PROG_V0_LENS: the program lengths of version 0 and of bare mode (R6, R172). -/
def isV0Length (n : Nat) : Bool := n == 20 || n == 32

/-- TLV_TYPES (R6). -/
abbrev tlvTypes : Nat := 4

/-- TLV_MAX_RECORDS (R6). -/
abbrev tlvMaxRecords : Nat := 16

/-- The charset ROM's bytes, `qpzry9x8gf2tvdw0s3jn54khce6mua7l` in ASCII (R42). -/
def charset : Bytes :=
  [0x71, 0x70, 0x7A, 0x72, 0x79, 0x39, 0x78, 0x38] ++ [0x67, 0x66, 0x32, 0x74, 0x76, 0x64, 0x77, 0x30] ++
  [0x73, 0x33, 0x6A, 0x6E, 0x35, 0x34, 0x6B, 0x68] ++ [0x63, 0x65, 0x36, 0x6D, 0x75, 0x61, 0x37, 0x6C]

/-- CHARSET[v] (R42). -/
def charOf (v : Sym) : Byte := charset.getD v.toNat 0

/-- A byte in 0x41..0x5A (R9). -/
def isUpper (c : Byte) : Bool := 0x41 ≤ c.toNat && c.toNat ≤ 0x5A

/-- A byte in 0x61..0x7A (R9). -/
def isLower (c : Byte) : Bool := 0x61 ≤ c.toNat && c.toNat ≤ 0x7A

/-- `lower(c)` (R9). -/
def toLower (c : Byte) : Byte := if isUpper c then c + 0x20 else c

/-- REV[b] (R43): the value whose charset character is `lower(b)`, or INVALID as `none`. -/
def symOf (b : Byte) : Option Sym :=
  (charset.findIdx? (fun c => c == toLower b)).map (fun v => BitVec.ofNat 5 v)

/-- GEN[0..4] (R6, R44, R101). -/
def gen : List Chk := [0x3b6a57b2, 0x26508e6d, 0x1ea119fa, 0x3d4233dd, 0x2a1462b3]

/-- CONST[e], the encoding's checksum constant (R6, R44). -/
def constOf : Encoding → Chk
  | .bech32 => 0x00000001
  | .bech32m => 0x2bc830a3

/-- STATUS.ERRCODE of an error (R275). -/
def Err.code : Err → BitVec 5
  | .invalidCharacter => 1
  | .mixedCase => 2
  | .checksumInvalid => 3
  | .wrongChecksumVariant => 4
  | .lengthExceeded => 5
  | .nonCanonicalPadding => 6
  | .unknownTlvType => 7
  | .truncatedTlv => 8
  | .emptyTlvSequence => 9
  | .missingField => 10
  | .malformedField => 11
  | .unrecognizedPrefix => 12
  | .encodingKindMismatch => 13
  | .missingSeparator => 14
  | .tooShort => 15
  | .invalidWitnessVersion => 16
  | .invalidProgramLength => 17
  | .invalidWord => 18
  | .illegalCommand => 19

end Sys2Proof.Machine
end

