-- ==== Sys2Proof/Machine/Flags.lean ====
section
/-! DEFINITION. Every flag the block has (10_state.md R36): STATUS as each part of a command's life writes it
(60_exceptions.md R270 to R272), and the words through which the host sees STATUS, TLV_FOUND and a record (R25, R33, R35). -/

namespace Sys2Proof.Machine

/-- STATUS.ENC after a success with encoding `e`: `E + 1` (R25, R107, R125). -/
def encField : Encoding → BitVec 2
  | .bech32 => 1
  | .bech32m => 2

/-- STATUS.ENC of a command whose rule does not set it (R25, R271). -/
def encNone : BitVec 2 := 0

/-- STATUS at command start, 0x00000001 (R270). -/
def Status.started : Status := ⟨true, false, false, 0, 0⟩

/-- STATUS when a command has succeeded (R271). -/
def Status.succeeded (enc : BitVec 2) : Status := ⟨false, true, false, 0, enc⟩

/-- STATUS when a command has raised an error (R272, with R271's BUSY and DONE). -/
def Status.failed (e : Err) : Status := ⟨false, true, true, e.code, 0⟩

/-- A flag as a bit of a register word. -/
def flagBit (b : Bool) (i : Nat) : Word := if b then 1#32 <<< i else 0

/-- The word a read of STATUS returns (R25); the reserved bits read 0. -/
def Status.word (t : Status) : Word :=
  flagBit t.busy 0 ||| flagBit t.done 1 ||| flagBit t.err 2 ||| (t.errcode.setWidth 32 <<< 8) |||
    (t.enc.setWidth 32 <<< 16)

/-- The word a read of TLV_FOUND returns (R33). -/
def Found.word (f : Found) : Word := f.index.setWidth 32 ||| flagBit f.found 8

/-- The word a read of a TLV_REC entry returns (R35). -/
def Record.word (r : Record) : Word :=
  r.type.setWidth 32 ||| (r.length.setWidth 32 <<< 8) ||| (r.voff.setWidth 32 <<< 16)

/-- The record a word written to a TLV_REC entry stores (R35). -/
def Record.ofWord (w : Word) : Record := ⟨w.extractLsb' 0 8, w.extractLsb' 8 8, w.extractLsb' 16 16⟩

end Sys2Proof.Machine
end

