-- ==== Sys2Proof/Machine/Ops.lean ====
section
/-! DEFINITION. The named operations over the buffers and the registers that every command shares (20_memory.md R60, R61,
R67), the start of a command (R270), its completion (R271) and its error exit (R272, R273): an error is this hardware's
exception, and it has no return (R278, R279). -/

namespace Sys2Proof.Machine

/-- A buffer's window (R61). -/
def Buffer.base : Buffer → Nat
  | .hbuf => 0x1000
  | .ibuf => 0x2000
  | .obuf => 0x3000

/-- The offset lies in the buffer, not in the reserved rest of its window (R61). -/
def Buffer.holds (b : Buffer) (offset : Nat) : Bool :=
  b.base ≤ offset && offset < b.base + Config.bufBytes

/-- The buffer a block offset belongs to, if any (R61). -/
def bufferAt (offset : Nat) : Option Buffer :=
  if Buffer.hbuf.holds offset then some .hbuf
  else if Buffer.ibuf.holds offset then some .ibuf
  else if Buffer.obuf.holds offset then some .obuf
  else none

/-- The canonical form of the buffers' contents: cells at strictly rising offsets, each in a buffer. A listed byte is a byte
something has set; an unlisted one is not set, so no entry repeats what an unlisted offset holds (log entry 1). -/
abbrev Memory.wf (m : Memory) : Prop :=
  m.cells.Pairwise (fun c d => c.1 < d.1) ∧ ∀ c ∈ m.cells, (bufferAt c.1).isSome = true

/-- The draw that gives a buffer's unset bytes. -/
def Memory.drawOf (m : Memory) : Buffer → Nat
  | .hbuf => m.hbufDraw
  | .ibuf => m.ibufDraw
  | .obuf => m.obufDraw

/-- The byte that something has set at an offset. -/
def Memory.lookup (m : Memory) (offset : Nat) : Option Byte := m.cells.lookup offset

/-- One byte of the block's buffer windows: a reserved offset reads 0 (R61), an unset byte of a buffer is a free value
(R293; log entry 1). -/
def Memory.read (m : Memory) (offset : Nat) : Byte :=
  match bufferAt offset with
  | none => 0
  | some b => (m.lookup offset).getD (Config.freeByte (m.drawOf b) offset)

/-- The cells of a run of bytes that starts at an offset. -/
def cellsFrom (offset : Nat) : Bytes → List Host.Cell
  | [] => []
  | b :: bs => (offset, b) :: cellsFrom (offset + 1) bs

/-- Write a run of bytes, all of them inside one buffer, at an offset. -/
def Memory.store (m : Memory) (offset : Nat) (bs : Bytes) : Memory :=
  { m with
    cells := m.cells.filter (fun c => c.1 < offset) ++ cellsFrom offset bs ++
      m.cells.filter (fun c => offset + bs.length ≤ c.1) }

/-- Write one byte; a write outside the buffers is ignored (R61). -/
def Memory.storeByte (m : Memory) (offset : Nat) (b : Byte) : Memory :=
  if (bufferAt offset).isSome then m.store offset [b] else m

/-- `BUF[0 .. n)` (R8); no command reads past a buffer (R60, R67). -/
def Memory.readBuffer (m : Memory) (b : Buffer) (n : Nat) : Bytes :=
  (List.range (min n Config.bufBytes)).map fun k => m.read (b.base + k)

/-- `BUF[k] <- bs[k]` for every k below the list's length; no command writes past a buffer (R67). -/
def Memory.storeBuffer (m : Memory) (b : Buffer) (bs : Bytes) : Memory :=
  m.store b.base (bs.take Config.bufBytes)

/-- `BUF[0 .. BUF_BYTES)` becomes unspecified (R273): no byte of it is set any more, and draw `draw` gives its bytes. -/
def Memory.forget (m : Memory) (b : Buffer) (draw : Nat) : Memory :=
  { cells := m.cells.filter (fun c => !b.holds c.1)
    hbufDraw := if b = .hbuf then draw else m.hbufDraw
    ibufDraw := if b = .ibuf then draw else m.ibufDraw
    obufDraw := if b = .obuf then draw else m.obufDraw }

/-- Command start: the host's write of `w` to CMD while BUSY = 0 (R270). -/
def State.start (w : Word) (s : State) : State :=
  { s with cmd := w, pending := some w, status := .started }

/-- Command completion after success, with the STATUS.ENC the command's rule sets (R271). -/
def State.succeed (enc : BitVec 2) (s : State) : State :=
  { s with pending := none, status := .succeeded enc }

/-- The error exit `raise Err(code)`: STATUS alone (R272, R271). The outputs of R273 are the operations below. -/
def State.raise (e : Err) (s : State) : State :=
  { s with pending := none, status := .failed e }

/-- The error outputs of CHK_HRP, and the part every legal command's error exit shares: OUT_LEN <- 0 (R273). -/
def State.raiseNoOutput (e : Err) (s : State) : State :=
  { s with outLen := 0 }.raise e

/-- The error outputs of CONVERT and TLV_ENCODE: OUT_LEN <- 0, OBUF unspecified (R273). -/
def State.raiseLosingOutput (e : Err) (s : State) : State :=
  { s with mem := s.mem.forget .obuf s.drawn, drawn := s.drawn + 1 }.raiseNoOutput e

/-- The error outputs of B32_ENCODE, SEGWIT_ENCODE and SEGWIT_DECODE: those of CONVERT, and CHK the residue where the rule
leaves it (ChecksumInvalid, R135), unspecified otherwise (R273). -/
def State.raiseLosingChk (e : Err) (residue : Option Chk) (s : State) : State :=
  { s with chk := residue.getD (Config.freeChk s.drawn) }.raiseLosingOutput e

/-- The error outputs of B32_DECODE: HRP_LEN <- 0, HBUF unspecified, and those of the other framing commands (R273). -/
def State.raiseLosingHrp (e : Err) (residue : Option Chk) (s : State) : State :=
  { s with hrpLen := 0, mem := s.mem.forget .hbuf s.drawn }.raiseLosingChk e residue

/-- The error outputs of TLV_PARSE: OUT_LEN <- 0, TLV_COUNT <- 0, the record table unspecified (R193, R273). -/
def State.raiseLosingTable (e : Err) (s : State) : State :=
  { s with
    tlvCount := 0
    tlvRec := Vector.ofFn fun i : Fin 16 => Record.ofWord (Config.freeRec s.drawn i)
    drawn := s.drawn + 1 }.raiseNoOutput e

/-- A command's output: OBUF[0 .. len) <- bytes, OUT_LEN <- len (R28); the rest of OBUF keeps its bytes (R273). -/
def State.putOutput (bs : Bytes) (s : State) : State :=
  { s with mem := s.mem.storeBuffer .obuf bs, outLen := BitVec.ofNat 16 bs.length }

/-- OUT_LEN <- 0, for a command that succeeds without an output (R102, R103, R105, R193, R196, R220). -/
def State.noOutput (s : State) : State := { s with outLen := 0 }

/-- The host's writes to the length registers store `min(v[15:0], BUF_BYTES)` (R26, R27, R29). -/
def clampLength (v : Word) : Half := BitVec.ofNat 16 (min (v.extractLsb' 0 16).toNat Config.bufBytes)

/-- The host's write to TLV_COUNT stores `min(v[4:0], 16)` (R32). -/
def clampCount (v : Word) : BitVec 5 := BitVec.ofNat 5 (min (v.extractLsb' 0 5).toNat tlvMaxRecords)

end Sys2Proof.Machine
end

