-- ==== Sys2Proof/Machine/Bus.lean ====
section
/-! DEFINITION. The host's side of the block (20_memory.md R61 to R63, R68): the register map (10_state.md R23), reads and
writes over the bus, what they do while BUSY, and reset (70_reset_and_hazards.md R290). -/

namespace Sys2Proof.Machine

/-- The registers of the map (R23). -/
inductive Reg where
  | cmd
  | status
  | inLen
  | hrpLen
  | outLen
  | maxLen
  | chk
  | version
  | tlvCount
  | tlvFound
  | tlvEnd
  | tlvRec (i : Fin 16)
deriving DecidableEq, Repr

/-- The register at a word-aligned offset; a reserved offset has none (R23). -/
def regAt (offset : Nat) : Option Reg :=
  if offset = 0x000 then some .cmd
  else if offset = 0x004 then some .status
  else if offset = 0x008 then some .inLen
  else if offset = 0x00C then some .hrpLen
  else if offset = 0x010 then some .outLen
  else if offset = 0x014 then some .maxLen
  else if offset = 0x018 then some .chk
  else if offset = 0x01C then some .version
  else if offset = 0x020 then some .tlvCount
  else if offset = 0x024 then some .tlvFound
  else if offset = 0x028 then some .tlvEnd
  else if 0x040 ≤ offset ∧ offset < 0x080 ∧ offset % 4 = 0 then some (.tlvRec (Fin.ofNat 16 ((offset - 0x040) / 4)))
  else none

/-- A register's offset (R23). -/
def Reg.offset : Reg → Nat
  | .cmd => 0x000
  | .status => 0x004
  | .inLen => 0x008
  | .hrpLen => 0x00C
  | .outLen => 0x010
  | .maxLen => 0x014
  | .chk => 0x018
  | .version => 0x01C
  | .tlvCount => 0x020
  | .tlvFound => 0x024
  | .tlvEnd => 0x028
  | .tlvRec i => 0x040 + 4 * i.val

/-- A register's value as a 32-bit word; bits without storage read 0 (R24 to R35). -/
def Reg.value (r : Reg) (s : State) : Word :=
  match r with
  | .cmd => s.cmd
  | .status => s.status.word
  | .inLen => s.inLen.setWidth 32
  | .hrpLen => s.hrpLen.setWidth 32
  | .outLen => s.outLen.setWidth 32
  | .maxLen => s.maxLen.setWidth 32
  | .chk => s.chk.setWidth 32
  | .version => s.version.setWidth 32
  | .tlvCount => s.tlvCount.setWidth 32
  | .tlvFound => s.tlvFound.word
  | .tlvEnd => s.tlvEnd.setWidth 32
  | .tlvRec i => s.tlvRec[i].word

/-- A host write to a register while BUSY = 0 (R23 to R35): a write to CMD starts the command (R24, R270), a write to a
read-only register is ignored, the others store their writable fields. -/
def Reg.write (r : Reg) (v : Word) (s : State) : State :=
  match r with
  | .cmd => s.start v
  | .status => s
  | .inLen => { s with inLen := clampLength v }
  | .hrpLen => { s with hrpLen := clampLength v }
  | .outLen => s
  | .maxLen => { s with maxLen := clampLength v }
  | .chk => { s with chk := v.extractLsb' 0 30 }
  | .version => { s with version := v.extractLsb' 0 5 }
  | .tlvCount => { s with tlvCount := clampCount v }
  | .tlvFound => s
  | .tlvEnd => s
  | .tlvRec i => { s with tlvRec := s.tlvRec.set i (Record.ofWord v) }

/-- The block's last offset lies below this (R61). -/
def blockSize : Nat := 0x4000

/-- The register window ends here (R61). -/
def windowSize : Nat := 0x1000

/-- The block offset of a platform address, if it lies in the block (R61). -/
def blockOffset (address : Nat) : Option Nat :=
  if Config.blockBase ≤ address ∧ address < Config.blockBase + blockSize then some (address - Config.blockBase) else none

/-- The accesses the host may make, "and no others" (R62). -/
def admitted (offset width : Nat) : Bool :=
  offset < blockSize && ((width == 4 && offset % 4 == 0) || (width == 1 && windowSize ≤ offset))

/-- What the host reads at a register offset: while BUSY only STATUS and CMD give their true values (R68). -/
def registerRead (offset : Nat) (s : State) : Word :=
  match regAt offset with
  | none => 0
  | some r =>
    if s.status.busy && r != .cmd && r != .status then Config.freeWord s.drawn
    else r.value s

/-- What the host reads at a byte of a buffer window: while BUSY a buffer byte is a free value (R68). -/
def byteRead (offset : Nat) (s : State) : Byte :=
  if s.status.busy && (bufferAt offset).isSome then Config.freeByte s.drawn offset
  else s.mem.read offset

/-- A buffer word: byte `i` in bits [7:0], byte `i+3` in bits [31:24] (R63). -/
def wordRead (offset : Nat) (s : State) : Word :=
  byteRead (offset + 3) s ++ byteRead (offset + 2) s ++ byteRead (offset + 1) s ++ byteRead offset s

/-- The value of an admitted read (R63). -/
def readValue (offset width : Nat) (s : State) : Word :=
  if offset < windowSize then registerRead offset s
  else if width = 1 then (byteRead offset s).setWidth 32
  else wordRead offset s

/-- MemRead(offset, width): the value joins the host's read log, and no state of the block changes (R63). A read while BUSY
uses up a draw (log entry 4). -/
def busRead (offset width : Nat) (s : State) : Host.Outcome State Fault Refusal :=
  if admitted offset width then
    .next { s with
      readLog := s.readLog ++ [readValue offset width s]
      drawn := if s.status.busy then s.drawn + 1 else s.drawn }
  else .refused .unadmittedAccess

/-- The buffers after an admitted write to a buffer window: 8 bits, or four bytes in little-endian lanes (R63). -/
def bufferWrite (offset width : Nat) (v : Word) (m : Memory) : Memory :=
  if width = 1 then m.storeByte offset (v.extractLsb' 0 8)
  else
    (((m.storeByte offset (v.extractLsb' 0 8)).storeByte (offset + 1) (v.extractLsb' 8 8)).storeByte
      (offset + 2) (v.extractLsb' 16 8)).storeByte (offset + 3) (v.extractLsb' 24 8)

/-- The state after an admitted write while BUSY = 0 (R63): reserved offsets ignore it (R23, R61). -/
def writeValue (offset width : Nat) (v : Word) (s : State) : State :=
  if offset < windowSize then
    match regAt offset with
    | none => s
    | some r => r.write v s
  else { s with mem := bufferWrite offset width v s.mem }

/-- MemWrite(offset, width, v) (R63): while BUSY = 1 a write of any location is the fault HostWriteWhileBusy (R296). -/
def busWrite (offset width : Nat) (v : Word) (s : State) : Host.Outcome State Fault Refusal :=
  if admitted offset width then
    if s.status.busy then .fault .hostWriteWhileBusy else .next (writeValue offset width v s)
  else .refused .unadmittedAccess

/-- A host access at a platform address: the block takes those of its 0x4000 bytes from BLOCK_BASE (R61, R63). -/
def platformRead (address width : Nat) (s : State) : Host.Outcome State Fault Refusal :=
  match blockOffset address with
  | none => .refused .unadmittedAccess
  | some offset => busRead offset width s

/-- The write beside `platformRead` (R61, R63). -/
def platformWrite (address width : Nat) (v : Word) (s : State) : Host.Outcome State Fault Refusal :=
  match blockOffset address with
  | none => .refused .unadmittedAccess
  | some offset => busWrite offset width v s

/-- A reset (R290): every register as after reset, a pending command aborted, the buffers unspecified anew. What is outside the
block, the events still to come and the host's read log, stays (log entry 13). -/
def State.resetNow (s : State) : State :=
  { State.reset with
    mem := ⟨[], s.drawn, s.drawn, s.drawn⟩
    drawn := s.drawn + 1
    inputs := s.inputs
    readLog := s.readLog }

end Sys2Proof.Machine
end

