-- ==== Sys2Proof/WellFormed.lean ====
section
/-! DEFINITION. Which commands the assembler accepts (30_encoding.md R86): it refuses CHK_STEP v with v > 31 and TLV_FIND t
with t > 3. Every other operand is legal at every value its type has. -/

namespace Sys2Proof

/-- R86: the operand ranges of a command. -/
def Instr.wellFormed : Instr → Bool
  | .nop => true
  | .chkInit => true
  | .chkStep v => v ≤ 31
  | .chkHrp => true
  | .chkFinal _ => true
  | .b32Encode _ => true
  | .b32Decode => true
  | .convert _ _ => true
  | .segwitEncode _ => true
  | .segwitDecode _ => true
  | .tlvParse => true
  | .tlvFind t => t ≤ 3
  | .tlvEncode => true
  | .xfer => true

end Sys2Proof
end

