-- ==== Sys2Proof/Decode.lean ====
section
/-! DEFINITION. The decoder and the encoder of command words (30_encoding.md R80 to R86). The decoder is the opcode map of
R82 read row by row; a word that matches no row is rejected by name (R84). -/

namespace Sys2Proof

/-- Why a word is no command (R84). The block reports both the same way, as IllegalCommand (R221). -/
inductive Reject where
  /-- Bits [7:0] are no opcode of R82. -/
  | unknownOpcode
  /-- The opcode is in R82 and a must-be-zero bit is not zero. -/
  | nonzeroReservedBits
deriving DecidableEq, Repr

/-- Field E = w[8] (R81). -/
def Encoding.ofBit (b : Bool) : Encoding := if b then .bech32m else .bech32

/-- Field DIR = w[8] (R81). -/
def Direction.ofBit (b : Bool) : Direction := if b then .to8 else .to5

/-- Field PAD = w[9] (R81). -/
def Padding.ofBit (b : Bool) : Padding := if b then .pad else .nopad

/-- Field BARE = w[8] (R81). -/
def SegwitMode.ofBit (b : Bool) : SegwitMode := if b then .bare else .versioned

/-- One row of the opcode map of R82; `command` takes the fields straight from the word's bits (R81). -/
structure OpcodeRow where
  mnemonic : String
  pattern : Word
  mask : Word
  command : Word → Instr

/-- The opcode map (R82). -/
def opcodeMap : List OpcodeRow :=
  [ ⟨"NOP",           0x00000000#32, 0xFFFFFFFF#32, fun _ => .nop⟩,
    ⟨"CHK_INIT",      0x00000001#32, 0xFFFFFFFF#32, fun _ => .chkInit⟩,
    ⟨"CHK_STEP",      0x00000002#32, 0xFFFFE0FF#32, fun w => .chkStep (w.extractLsb' 8 5).toNat⟩,
    ⟨"CHK_HRP",       0x00000003#32, 0xFFFFFFFF#32, fun _ => .chkHrp⟩,
    ⟨"CHK_FINAL",     0x00000004#32, 0xFFFFFEFF#32, fun w => .chkFinal (.ofBit (w.getLsbD 8))⟩,
    ⟨"B32_ENCODE",    0x00000010#32, 0xFFFFFEFF#32, fun w => .b32Encode (.ofBit (w.getLsbD 8))⟩,
    ⟨"B32_DECODE",    0x00000011#32, 0xFFFFFFFF#32, fun _ => .b32Decode⟩ ] ++
  [ ⟨"CONVERT",       0x00000020#32, 0xFFFFFCFF#32,
      fun w => .convert (.ofBit (w.getLsbD 8)) (.ofBit (w.getLsbD 9))⟩,
    ⟨"SEGWIT_ENCODE", 0x00000030#32, 0xFFFFFEFF#32, fun w => .segwitEncode (.ofBit (w.getLsbD 8))⟩,
    ⟨"SEGWIT_DECODE", 0x00000031#32, 0xFFFFFEFF#32, fun w => .segwitDecode (.ofBit (w.getLsbD 8))⟩,
    ⟨"TLV_PARSE",     0x00000040#32, 0xFFFFFFFF#32, fun _ => .tlvParse⟩,
    ⟨"TLV_FIND",      0x00000041#32, 0xFFFFFCFF#32, fun w => .tlvFind (w.extractLsb' 8 2).toNat⟩,
    ⟨"TLV_ENCODE",    0x00000042#32, 0xFFFFFFFF#32, fun _ => .tlvEncode⟩,
    ⟨"XFER",          0x00000050#32, 0xFFFFFFFF#32, fun _ => .xfer⟩ ]

/-- "A word `w` selects the row with `(w & mask) = match`" (R82). -/
def OpcodeRow.selects (r : OpcodeRow) (w : Word) : Bool := w &&& r.mask == r.pattern

/-- Bits [7:0] are the opcode of some row (R80, R82). -/
def knownOpcode (w : Word) : Bool :=
  opcodeMap.any fun r => w.extractLsb' 0 8 == r.pattern.extractLsb' 0 8

/-- The decoder: total on every word, and every word outside R82 is rejected by name (R84, R85). -/
def decode (w : Word) : Except Reject Instr :=
  match opcodeMap.find? (fun r => r.selects w) with
  | some r => .ok (r.command w)
  | none => .error (if knownOpcode w then .nonzeroReservedBits else .unknownOpcode)

/-- Field E as a number: 0 = Bech32, 1 = Bech32m (R80). -/
def Encoding.bit : Encoding → Word
  | .bech32 => 0
  | .bech32m => 1

/-- Field DIR as a number: 0 = 8 to 5, 1 = 5 to 8 (R80). -/
def Direction.bit : Direction → Word
  | .to5 => 0
  | .to8 => 1

/-- Field PAD as a number: 1 = pad (R80). -/
def Padding.bit : Padding → Word
  | .nopad => 0
  | .pad => 1

/-- Field BARE as a number: 0 = versioned, 1 = bare (R80). -/
def SegwitMode.bit : SegwitMode → Word
  | .versioned => 0
  | .bare => 1

/-- The word a command assembles to (R86). -/
def encode : Instr → Word
  | .nop => 0x00000000#32
  | .chkInit => 0x00000001#32
  | .chkStep v => 0x00000002#32 ||| (BitVec.ofNat 32 v <<< 8)
  | .chkHrp => 0x00000003#32
  | .chkFinal e => 0x00000004#32 ||| (e.bit <<< 8)
  | .b32Encode e => 0x00000010#32 ||| (e.bit <<< 8)
  | .b32Decode => 0x00000011#32
  | .convert d p => 0x00000020#32 ||| (d.bit <<< 8) ||| (p.bit <<< 9)
  | .segwitEncode m => 0x00000030#32 ||| (m.bit <<< 8)
  | .segwitDecode m => 0x00000031#32 ||| (m.bit <<< 8)
  | .tlvParse => 0x00000040#32
  | .tlvFind t => 0x00000041#32 ||| (BitVec.ofNat 32 t <<< 8)
  | .tlvEncode => 0x00000042#32
  | .xfer => 0x00000050#32

/-- The command word whose low `nbits` bits are those of `w` and whose other bits are 0. A command is one 32-bit word that
arrives whole in CMD (R24, R85), so the opcode table's bit numbers are the word's own. -/
def tableWord (nbits w : Nat) : Word := BitVec.ofNat 32 (w % 2 ^ nbits)

/-- The command the decoder reads from an instruction written as the opcode table numbers its bits. -/
def decodeTableWord (nbits w : Nat) : Option Instr :=
  match decode (tableWord nbits w) with
  | .ok i => some i
  | .error _ => none

end Sys2Proof
end

