-- ==== Sys2Proof/Machine/Operands.lean ====
section
/-! DEFINITION. The operands of the commands beside the word's own fields (30_encoding.md R81): the sequences in the buffers up
to their length registers (R26, R27, R28), the record table up to TLV_COUNT (R32), and the check every command that takes an hrp
makes of it (40_checksum.md R105). -/

namespace Sys2Proof.Machine

/-- The hrp `HBUF[0 .. HRP_LEN)` (R27). -/
def State.hrp (s : State) : Bytes := s.mem.readBuffer .hbuf s.hrpLen.toNat

/-- The input `IBUF[0 .. IN_LEN)` (R26). -/
def State.input (s : State) : Bytes := s.mem.readBuffer .ibuf s.inLen.toNat

/-- The last command's output `OBUF[0 .. OUT_LEN)` (R28). -/
def State.output (s : State) : Bytes := s.mem.readBuffer .obuf s.outLen.toNat

/-- The valid entries `TLV_REC[0 .. TLV_COUNT)` (R32, R35). -/
def State.records (s : State) : List Record := s.tlvRec.toList.take s.tlvCount.toNat

/-- MAX_LEN as the framing commands read it (R29). -/
def State.textLimit (s : State) : Nat := s.maxLen.toNat

/-- A byte in the hrp range 33..126 (R6, R105). -/
def inHrpRange (c : Byte) : Bool := hrpMinChar ≤ c.toNat && c.toNat ≤ hrpMaxChar

/-- The error of the first bad byte of an hrp: out of range, or upper case (R105). -/
def hrpFault : Bytes → Option Err
  | [] => none
  | c :: cs =>
    if !inHrpRange c then some .invalidCharacter
    else if isUpper c then some .mixedCase
    else hrpFault cs

/-- `check_hrp_for_encode` (R105, R121). -/
def checkHrpForEncode (h : Bytes) : Option Err :=
  if h.isEmpty then some .tooShort else hrpFault h

/-- A symbol held in the low 5 bits of one byte, bits [7:5] zero (R7, R60). -/
def byteOfSym (v : Sym) : Byte := v.setWidth 8

/-- The symbol in the low 5 bits of a byte that a command has found below 32 (R7, R81). -/
def symOfByte (b : Byte) : Sym := b.setWidth 5

end Sys2Proof.Machine
end

