-- ==== Sys2Proof/Machine/Checksum.lean ====
section
/-! DEFINITION. The checksum unit (40_checksum.md): the polymod step and function, the hrp expansion, the checksum symbols, and
the four CHK commands. -/

namespace Sys2Proof.Machine

/-- `step(c)` (R101): the low 25 bits move up by one symbol and GEN[i] is added for each bit i of the symbol shifted out. -/
def polyStep (c : Chk) : Chk :=
  let b := c.extractLsb' 25 5
  let r := (c.extractLsb' 0 25).setWidth 30 <<< 5
  (List.range 5).foldl (fun r i => if b.getLsbD i then r ^^^ gen.getD i 0 else r) r

/-- One update `CHK <- step(CHK) ^ v` (R100). -/
def absorb (c : Chk) (v : Sym) : Chk := polyStep c ^^^ v.setWidth 30

/-- `polymod(c0, vs)` (R108). -/
def polymod (c : Chk) (vs : List Sym) : Chk := vs.foldl absorb c

/-- `hrp_expand(h)` (R104). -/
def hrpExpand (h : Bytes) : List Sym :=
  h.map (fun (c : Byte) => symOfByte (c >>> 5)) ++ [0] ++ h.map (fun (c : Byte) => symOfByte (c &&& 31))

/-- The six zero steps (R100, R107). -/
def sixZeros : List Sym := List.replicate chkSymbols 0

/-- `sym(x, i)`, symbol 0 in bits [29:25] (R106). -/
def chkSym (x : Chk) (i : Nat) : Sym := x.extractLsb' (5 * (5 - i)) 5

/-- The six checksum characters of `x`, most significant symbol first (R106, R65). -/
def chkChars (x : Chk) : Bytes := (List.range chkSymbols).map fun i => charOf (chkSym x i)

/-- CHK_INIT (R102). -/
def execChkInit (s : State) : Host.Outcome State Fault Refusal :=
  .next ({ s with chk := 0x00000001 }.noOutput.succeed encNone)

/-- CHK_STEP v (R103). -/
def execChkStep (v : Nat) (s : State) : Host.Outcome State Fault Refusal :=
  .next ({ s with chk := absorb s.chk (BitVec.ofNat 5 v) }.noOutput.succeed encNone)

/-- CHK_HRP (R105): CHK changes only when the whole hrp has passed the check. -/
def execChkHrp (s : State) : Host.Outcome State Fault Refusal :=
  match checkHrpForEncode s.hrp with
  | some e => .next (s.raiseNoOutput e)
  | none => .next ({ s with chk := polymod s.chk (hrpExpand s.hrp) }.noOutput.succeed encNone)

/-- The checksum value CHK_FINAL gives for a CHK value (R107). -/
def finalChk (e : Encoding) (c : Chk) : Chk := polymod c sixZeros ^^^ constOf e

/-- CHK_FINAL e (R107). -/
def execChkFinal (e : Encoding) (s : State) : Host.Outcome State Fault Refusal :=
  let c := finalChk e s.chk
  .next (({ s with chk := c }.putOutput (chkChars c)).succeed (encField e))

end Sys2Proof.Machine
end

