-- ==== Sys2Proof/Machine/Control.lean ====
section
/-! DEFINITION. The control commands (45_control.md): NOP, XFER, and the illegal command. -/

namespace Sys2Proof.Machine

/-- NOP (R220). -/
def execNop (s : State) : Host.Outcome State Fault Refusal :=
  .next (s.noOutput.succeed encNone)

/-- XFER (R222): OUT_LEN and OBUF stay. -/
def execXfer (s : State) : Host.Outcome State Fault Refusal :=
  .next ({ s with mem := s.mem.storeBuffer .ibuf s.output, inLen := s.outLen }.succeed encNone)

/-- An illegal command (R221): nothing but STATUS changes, OUT_LEN included. -/
def execIllegal (s : State) : Host.Outcome State Fault Refusal :=
  .next (s.raise .illegalCommand)

end Sys2Proof.Machine
end

