-- ==== Sys2Proof/Machine/Converter.lean ====
section
/-! DEFINITION. The bit-width converter (42_convert.md): the streaming conversion over ACC and BITS, and CONVERT. -/

namespace Sys2Proof.Machine

/-- `in_bits` of a direction (R81). -/
def inBits : Direction → Nat
  | .to5 => 8
  | .to8 => 5

/-- `out_bits` of a direction (R81). -/
def outBits : Direction → Nat
  | .to5 => 5
  | .to8 => 8

/-- `maxv = (1 << ob) - 1` (R151), as a byte. -/
def outMask : Direction → Byte
  | .to5 => 0x1F
  | .to8 => 0xFF

/-- A conversion on its way: ACC and BITS (R150), the words emitted so far, and the error that ended it. -/
structure Conversion where
  acc : Half
  bits : Nat
  out : Bytes
  error : Option Err
deriving DecidableEq, Repr

/-- ACC <- 0, BITS <- 0, nothing emitted (R150, R151). -/
def Conversion.start : Conversion := ⟨0, 0, [], none⟩

/-- Append an output word, or raise LengthExceeded where the output would pass BUF_BYTES (R151). -/
def Conversion.emit (c : Conversion) (w : Byte) : Conversion :=
  if c.out.length = Config.bufBytes then { c with error := some .lengthExceeded }
  else { c with out := c.out ++ [w] }

/-- R151's inner loop `while BITS >= ob`, with a bound on its rounds. -/
def Conversion.drain (d : Direction) : Nat → Conversion → Conversion
  | 0, c => c
  | n + 1, c =>
    if c.error.isNone && outBits d ≤ c.bits then
      let bits := c.bits - outBits d
      drain d n ({ c with bits := bits }.emit ((c.acc >>> bits).setWidth 8 &&& outMask d))
    else c

/-- R151's outer loop body for one input word. BITS is below 16 after it (R150), so 15 rounds are enough. -/
def Conversion.absorb (d : Direction) (c : Conversion) (x : Byte) : Conversion :=
  if c.error.isSome then c
  else if x >>> inBits d ≠ 0 then { c with error := some .invalidWord }
  else
    Conversion.drain d 15 { c with
      acc := (c.acc <<< inBits d) ||| x.setWidth 16
      bits := c.bits + inBits d }

/-- The leftover bits at the top of one output word, zeros below (R151, R152). -/
def Conversion.leftover (d : Direction) (c : Conversion) : Byte :=
  (c.acc <<< (outBits d - c.bits)).setWidth 8 &&& outMask d

/-- R151's end: the padded last word, or the check of the leftover (R152). -/
def Conversion.finish (d : Direction) (p : Padding) (c : Conversion) : Conversion :=
  if c.error.isSome then c
  else
    match p with
    | .pad => if 0 < c.bits then c.emit (c.leftover d) else c
    | .nopad =>
      if inBits d ≤ c.bits || c.leftover d != 0 then { c with error := some .nonCanonicalPadding } else c

/-- `convert(xs, ib, ob, pad)` (R151). -/
def convertBits (d : Direction) (p : Padding) (xs : Bytes) : Conversion :=
  (xs.foldl (Conversion.absorb d) Conversion.start).finish d p

/-- The hidden ACC and BITS as a conversion leaves them (R38; log entry 8). -/
def State.holdConverter (c : Conversion) (s : State) : State :=
  { s with acc := c.acc, bits := c.bits }

/-- CONVERT dir, pad (R153). -/
def execConvert (d : Direction) (p : Padding) (s : State) : Host.Outcome State Fault Refusal :=
  let c := convertBits d p s.input
  let s := s.holdConverter c
  match c.error with
  | some e => .next (s.raiseLosingOutput e)
  | none => .next ((s.putOutput c.out).succeed encNone)

end Sys2Proof.Machine
end

