-- ==== Sys2Proof/Machine/Framing.lean ====
section
/-! DEFINITION. The framing sequencer (41_bech32_framing.md): text from hrp and words, hrp and words from text, and the two
framing commands. -/

namespace Sys2Proof.Machine

/-- R125 as a function: the text of hrp `h` and words `ws` under encoding `e`, and its checksum value. -/
def encodeText (e : Encoding) (h ws : Bytes) (limit : Nat) : Except Err (Bytes × Chk) :=
  match checkHrpForEncode h with
  | some er => .error er
  | none =>
    if limit < h.length + 1 + ws.length + chkSymbols then .error .lengthExceeded
    else if ws.any (fun w => 31 < w.toNat) then .error .invalidWord
    else
      let vs := ws.map symOfByte
      let c := finalChk e (polymod 1 (hrpExpand h ++ vs))
      .ok (h ++ [sep] ++ vs.map charOf ++ chkChars c, c)

/-- The largest index that holds `x` (R131). -/
def lastIndexOf (x : Byte) : Bytes → Option Nat
  | [] => none
  | c :: cs =>
    match lastIndexOf x cs with
    | some p => some (p + 1)
    | none => if c = x then some 0 else none

/-- A text that B32_DECODE accepts, taken apart: hrp, words without the checksum, encoding, residue (R131). -/
structure DecodedText where
  hrp : Bytes
  words : List Sym
  enc : Encoding
  residue : Chk
deriving DecidableEq, Repr

/-- Why a text is rejected, and the residue that ChecksumInvalid leaves in CHK (R131, R135). -/
structure TextError where
  code : Err
  residue : Option Chk
deriving DecidableEq, Repr

/-- The residue test (R131, R134). -/
def encodingOfResidue (r : Chk) : Option Encoding :=
  if r = constOf .bech32 then some .bech32
  else if r = constOf .bech32m then some .bech32m
  else none

/-- R131 from the separator on: `hrp` is the part before it, `data` the part after it. -/
def decodeParts (hrp data : Bytes) : Except TextError DecodedText :=
  if hrp.any (fun c => !inHrpRange c) then .error ⟨.invalidCharacter, none⟩
  else
    match data.mapM symOf with
    | none => .error ⟨.invalidCharacter, none⟩
    | some d =>
      if (hrp ++ data).any isLower && (hrp ++ data).any isUpper then .error ⟨.mixedCase, none⟩
      else
        let h := hrp.map toLower
        let r := polymod 1 (hrpExpand h ++ d)
        match encodingOfResidue r with
        | none => .error ⟨.checksumInvalid, some r⟩
        | some enc => .ok ⟨h, d.take (d.length - chkSymbols), enc, r⟩

/-- R131 as a function of the text and the maximum length. -/
def decodeText (text : Bytes) (limit : Nat) : Except TextError DecodedText :=
  if text.length < minTextLen then .error ⟨.tooShort, none⟩
  else if limit < text.length then .error ⟨.lengthExceeded, none⟩
  else
    match lastIndexOf sep text with
    | none => .error ⟨.missingSeparator, none⟩
    | some p =>
      if p = 0 then .error ⟨.tooShort, none⟩
      else if text.length - p - 1 < chkSymbols then .error ⟨.tooShort, none⟩
      else decodeParts (text.take p) (text.drop (p + 1))

/-- The end of an encode command: R125's outputs on success, R273's on error. -/
def State.encodeInto (e : Encoding) (h ws : Bytes) (limit : Nat) (s : State) : State :=
  match encodeText e h ws limit with
  | .error er => s.raiseLosingChk er none
  | .ok (text, c) => ({ s with chk := c }.putOutput text).succeed (encField e)

/-- B32_ENCODE e (R125). -/
def execB32Encode (e : Encoding) (s : State) : Host.Outcome State Fault Refusal :=
  .next (s.encodeInto e s.hrp s.input s.textLimit)

/-- B32_DECODE (R131): on success the hrp goes to HBUF and the words, one per byte, to OBUF. -/
def execB32Decode (s : State) : Host.Outcome State Fault Refusal :=
  match decodeText s.input s.textLimit with
  | .error t => .next (s.raiseLosingHrp t.code t.residue)
  | .ok d =>
    let s := { s with
      chk := d.residue
      mem := s.mem.storeBuffer .hbuf d.hrp
      hrpLen := BitVec.ofNat 16 d.hrp.length }
    .next ((s.putOutput (d.words.map byteOfSym)).succeed (encField d.enc))

end Sys2Proof.Machine
end

