-- ==== Sys2Proof/Machine/Segwit.lean ====
section
/-! DEFINITION. The segwit adapter (43_segwit.md): the witness version symbol before the converted program, and the two segwit
commands. Both cap the text at SEGWIT_MAX_LEN and ignore MAX_LEN (R170). -/

namespace Sys2Proof.Machine

/-- The encoding of a version: version 0 and bare mode are Bech32, any other version Bech32m (R172). -/
def segwitEncoding (m : SegwitMode) (v : BitVec 5) : Encoding :=
  match m with
  | .bare => .bech32
  | .versioned => if v = 0 then .bech32 else .bech32m

/-- A program length that R171 and R173 reject: outside 2..40, or neither 20 nor 32 for version 0 and bare mode (R172). -/
def badProgramLength (m : SegwitMode) (v : BitVec 5) (n : Nat) : Bool :=
  match m with
  | .bare => !isV0Length n
  | .versioned => (n < progMin || progMax < n) || (v == 0 && !isV0Length n)

/-- R171's checks of version and program length; in bare mode VERSION is not read. -/
def segwitEncodeFault (m : SegwitMode) (v : BitVec 5) (n : Nat) : Option Err :=
  if m = .versioned ∧ witverMax < v.toNat then some .invalidWitnessVersion
  else if badProgramLength m v n then some .invalidProgramLength
  else none

/-- The version symbol that versioned mode puts before the program's words (R171). -/
def versionWord (m : SegwitMode) (v : BitVec 5) : Bytes :=
  match m with
  | .bare => []
  | .versioned => [byteOfSym v]

/-- SEGWIT_ENCODE mode (R171). -/
def execSegwitEncode (m : SegwitMode) (s : State) : Host.Outcome State Fault Refusal :=
  match segwitEncodeFault m s.version s.input.length with
  | some e => .next (s.raiseLosingChk e none)
  | none =>
    let c := convertBits .to5 .pad s.input
    let t := s.holdConverter c
    match c.error with
    | some e => .next (t.raiseLosingChk e none)
    | none =>
      .next (t.encodeInto (segwitEncoding m s.version) s.hrp (versionWord m s.version ++ c.out) segwitMaxLen)

/-- The version of decoded words `d` with encoding `enc`, and the words of the program, after R173's checks of them. -/
def segwitVersion (m : SegwitMode) (enc : Encoding) (d : List Sym) : Except Err (BitVec 5 × List Sym) :=
  match m with
  | .bare => if enc ≠ .bech32 then .error .encodingKindMismatch else .ok (0, d)
  | .versioned =>
    match d with
    | [] => .error .invalidProgramLength
    | v :: rest =>
      if witverMax < v.toNat then .error .invalidWitnessVersion
      else if enc ≠ segwitEncoding .versioned v then .error .encodingKindMismatch
      else .ok (v, rest)

/-- The scratch holds the decoded text until R173's checks have passed (R41). -/
def State.holdScratch (d : DecodedText) (s : State) : State :=
  { s with scratchHrp := d.hrp, scratchWords := d.words }

/-- SEGWIT_DECODE after its decode step, on the scratch (R173, R174): `enc` and `r` are the text's encoding and residue. -/
def segwitDecodeScratch (m : SegwitMode) (enc : Encoding) (r : Chk) (s : State) : State :=
  if s.scratchHrp ≠ s.hrp then s.raiseLosingChk .unrecognizedPrefix none
  else
    match segwitVersion m enc s.scratchWords with
    | .error e => s.raiseLosingChk e none
    | .ok (v, ws) =>
      let c := convertBits .to8 .nopad (ws.map byteOfSym)
      let t := s.holdConverter c
      match c.error with
      | some e => t.raiseLosingChk e none
      | none =>
        if badProgramLength m v c.out.length then t.raiseLosingChk .invalidProgramLength none
        else ({ t with version := v, chk := r }.putOutput c.out).succeed (encField enc)

/-- SEGWIT_DECODE mode (R173). -/
def execSegwitDecode (m : SegwitMode) (s : State) : Host.Outcome State Fault Refusal :=
  match decodeText s.input segwitMaxLen with
  | .error t => .next (s.raiseLosingChk t.code t.residue)
  | .ok d => .next (segwitDecodeScratch m d.enc d.residue (s.holdScratch d))

end Sys2Proof.Machine
end

