-- ==== Sys2Proof/Machine/Tlv.lean ====
section
/-! DEFINITION. The TLV unit (44_tlv.md): the parser's state machine, the record search, the concatenator, and the three TLV
commands. -/

namespace Sys2Proof.Machine

/-- The parser at work: PSTATE, OFF and NREC (R39), the kept type and length byte, the error it has met, and the table. -/
structure Parser where
  state : ParserState
  off : Nat
  nrec : Nat
  type : Byte
  length : Byte
  code : Option Err
  table : Vector Record 16

/-- OFF <- 0, NREC <- 0, PSTATE <- TYPE (R191). -/
def Parser.start (table : Vector Record 16) : Parser := ⟨.type, 0, 0, 0, 0, none, table⟩

/-- The transition to FAIL with an error (R192). -/
def Parser.failWith (e : Err) (p : Parser) : Parser := { p with state := .fail, code := some e }

/-- One transition of R192 on the stream `xs`. -/
def Parser.next (xs : Bytes) (p : Parser) : Parser :=
  match p.state with
  | .type =>
    if p.off = xs.length ∨ p.nrec = tlvMaxRecords then { p with state := .done }
    else if tlvTypes ≤ (xs.getD p.off 0).toNat then p.failWith .unknownTlvType
    else { p with state := .len, type := xs.getD p.off 0 }
  | .len =>
    if xs.length ≤ p.off + 1 then p.failWith .truncatedTlv
    else { p with state := .value, length := xs.getD (p.off + 1) 0 }
  | .value =>
    if xs.length < p.off + 2 + p.length.toNat then p.failWith .truncatedTlv
    else { p with
      state := .type
      table := p.table.setIfInBounds p.nrec ⟨p.type, p.length, BitVec.ofNat 16 (p.off + 2)⟩
      nrec := p.nrec + 1
      off := p.off + 2 + p.length.toNat }
  | .done => if p.nrec = 0 then p.failWith .emptyTlvSequence else { p with state := .idle }
  | .fail => { p with state := .idle }
  | .idle => p

/-- The parser's run, "one transition per row, taken in order" (R192), until IDLE or for at most `n` transitions. -/
def Parser.run (xs : Bytes) : Nat → Parser → Parser
  | 0, p => p
  | n + 1, p => if p.state = .idle then p else Parser.run xs n (p.next xs)

/-- A run of the parser is over within this many transitions: three for each of 16 records, and the ways out. -/
def parserBound : Nat := 3 * tlvMaxRecords + 3

/-- The parser's end on a stream, from R191's start. -/
def parseAll (xs : Bytes) (table : Vector Record 16) : Parser :=
  Parser.run xs parserBound (Parser.start table)

/-- The hidden OFF, NREC and PSTATE as the parser leaves them (R39; log entry 8), and TLV_END <- OFF (R193). -/
def State.holdParser (p : Parser) (s : State) : State :=
  { s with
    off := BitVec.ofNat 16 p.off
    nrec := p.nrec
    pstate := p.state
    tlvEnd := BitVec.ofNat 16 p.off }

/-- TLV_PARSE (R193). -/
def execTlvParse (s : State) : Host.Outcome State Fault Refusal :=
  let p := parseAll s.input s.tlvRec
  let t := s.holdParser p
  match p.code with
  | some e => .next (t.raiseLosingTable e)
  | none => .next ({ t with tlvCount := BitVec.ofNat 5 p.nrec, tlvRec := p.table }.noOutput.succeed encNone)

/-- The first of the valid records that has the type (R196). -/
def findFirst (t : Nat) (rs : List Record) : Found :=
  match rs.findIdx? (fun r => r.type.toNat == t) with
  | some i => ⟨BitVec.ofNat 5 i, true⟩
  | none => ⟨0, false⟩

/-- TLV_FIND t (R196). -/
def execTlvFind (t : Nat) (s : State) : Host.Outcome State Fault Refusal :=
  .next ({ s with tlvFound := findFirst t s.records }.noOutput.succeed encNone)

/-- A record's bytes: type, length, then the value that the record refers to (R190, R35). -/
def recordBytes (input : Bytes) (r : Record) : Bytes :=
  [r.type, r.length] ++ (input.drop r.voff.toNat).take r.length.toNat

/-- R197's loop over the records, `out` being what is written so far. -/
def concatRecords (input : Bytes) : List Record → Bytes → Except Err Bytes
  | [], out => .ok out
  | r :: rs, out =>
    if input.length < r.voff.toNat + r.length.toNat then .error .truncatedTlv
    else if Config.bufBytes < out.length + 2 + r.length.toNat then .error .lengthExceeded
    else concatRecords input rs (out ++ recordBytes input r)

/-- TLV_ENCODE (R197). -/
def execTlvEncode (s : State) : Host.Outcome State Fault Refusal :=
  match concatRecords s.input s.records [] with
  | .error e => .next (s.raiseLosingOutput e)
  | .ok out => .next ((s.putOutput out).succeed encNone)

end Sys2Proof.Machine
end

