-- ==== Sys2Proof/Machine/Dispatch.lean ====
section
/-! DEFINITION. The meaning of each command, one arm per constructor of Instr. -/

namespace Sys2Proof.Machine

def exec (i : Instr) (s : State) : Host.Outcome State Fault Refusal :=
  match i with
  | .nop => Sys2Proof.Machine.execNop s
  | .chkInit => Sys2Proof.Machine.execChkInit s
  | .chkStep v => Sys2Proof.Machine.execChkStep v s
  | .chkHrp => Sys2Proof.Machine.execChkHrp s
  | .chkFinal e => Sys2Proof.Machine.execChkFinal e s
  | .b32Encode e => Sys2Proof.Machine.execB32Encode e s
  | .b32Decode => Sys2Proof.Machine.execB32Decode s
  | .convert d p => Sys2Proof.Machine.execConvert d p s
  | .segwitEncode m => Sys2Proof.Machine.execSegwitEncode m s
  | .segwitDecode m => Sys2Proof.Machine.execSegwitDecode m s
  | .tlvParse => Sys2Proof.Machine.execTlvParse s
  | .tlvFind t => Sys2Proof.Machine.execTlvFind t s
  | .tlvEncode => Sys2Proof.Machine.execTlvEncode s
  | .xfer => Sys2Proof.Machine.execXfer s

end Sys2Proof.Machine
end

