-- ==== Sys2Proof/Machine/Block.lean ====
section
/-! DEFINITION. The block's step and the outside events (60_exceptions.md R270, 10_state.md R20): what the machine's step
calls. -/

namespace Sys2Proof.Machine

/-- The pending command's rule, selected by R82, or R221 when no row matches (R270). -/
def runCommand (w : Word) (s : State) : Host.Outcome State Fault Refusal :=
  match decode w with
  | .ok i => exec i s
  | .error _ => execIllegal s

/-- The block's turn: it executes the pending command as one atomic transition (R270); with none pending it does nothing, for
"the block never starts work on its own" (R20). -/
def blockStep (s : State) : Host.Outcome State Fault Refusal :=
  match s.pending with
  | none => .next s
  | some w => runCommand w s

/-- What one outside event does. -/
def perform (e : Event) (s : State) : Host.Outcome State Fault Refusal :=
  match e with
  | .busRead offset width => busRead offset width s
  | .busWrite offset width v => busWrite offset width v s
  | .blockTurn => blockStep s
  | .reset => .next s.resetNow

/-- The oldest outside event happens; when none is left, it is the block's turn (R20, R68, R270; log entry 5). -/
def nextStep (s : State) : Host.Outcome State Fault Refusal :=
  match s.inputs with
  | [] => blockStep s
  | e :: rest => perform e { s with inputs := rest }

/-- The state in which a host has just written the word to CMD with BUSY = 0 and it is the block's turn (R270; log entry 6). -/
def loadCommand (w : Word) (s : State) : State := { s.start w with inputs := [] }

end Sys2Proof.Machine
end

