-- ==== Sys2Proof/Machine/Step.lean ====
section
/-! DEFINITION. One step of the machine, and the place where a command word is put for it. -/

namespace Sys2Proof.Machine

/-- One step: an outside event, or the block's atomic command step (R20, R270). -/
def step (s : State) : Host.Outcome State Fault Refusal := nextStep s

/-- `s` with the command word of `nbits` bits written to CMD, so that the next step runs it (R270). -/
def State.withFetchWord (s : State) (nbits w : Nat) : State := loadCommand (tableWord nbits w) s

end Sys2Proof.Machine
end

