-- ==== Sys2Proof/Machine/HostLayer.lean ====
section
/-! DEFINITION. The host identifier layer (46_host_identifier_layer.md): surrounding software, not hardware (R4). Its encode and
decode are host procedures over the block, made of the bus accesses and commands of 30_encoding.md R90 and R91; the block's step
does not depend on this file. -/

namespace Sys2Proof.Machine

/-- Why a host procedure ends without a result: an error of R275 returned to its caller, or a stop of the machine. -/
inductive HostStop where
  | error (e : Err)
  | fault (f : Fault)
  | refused (r : Refusal)
deriving DecidableEq, Repr

/-- A host procedure: it acts on the block's state and gives a result or an error, and the state it leaves in both cases. -/
abbrev Proc (α : Type) := ExceptT HostStop (StateM State) α

/-- The procedure ends with an error for its caller (R275). -/
def Proc.failWith {α : Type} (e : Err) : Proc α := throw (.error e)

/-- One access or turn as a step of a procedure. -/
def Proc.act (f : State → Host.Outcome State Fault Refusal) : Proc Unit := fun s =>
  match f s with
  | .next t => (.ok (), t)
  | .fault e => (.error (.fault e), s)
  | .refused r => (.error (.refused r), s)

/-- `WR REG, v` (R90). -/
def wr (r : Reg) (v : Word) : Proc Unit := Proc.act (busWrite r.offset 4 v)

/-- A bus read whose value the host keeps: the last entry of the read log. -/
def readBus (offset width : Nat) : Proc Word := do
  Proc.act (busRead offset width)
  return (← get).readLog.getLastD 0

/-- `RD REG -> x` (R90). -/
def rd (r : Reg) : Proc Word := readBus r.offset 4

/-- `WRB BUF, i, bytes` (R90): one byte write for each byte. -/
def wrb (b : Buffer) (i : Nat) : Bytes → Proc Unit
  | [] => pure ()
  | c :: cs => do
    Proc.act (busWrite (b.base + i) 1 (c.setWidth 32))
    wrb b (i + 1) cs

/-- `RDB BUF, i, n -> x` (R90): one byte read for each byte. -/
def rdb (b : Buffer) (i : Nat) : Nat → Proc Bytes
  | 0 => pure []
  | n + 1 => do
    let c ← readBus (b.base + i) 1
    let cs ← rdb b (i + 1) n
    return c.setWidth 8 :: cs

/-- `DO mnemonic args` (R91): the CMD write, then WAIT. The block takes its turn, so the poll of STATUS ends with BUSY = 0. -/
def doCmd (i : Instr) : Proc Unit := do
  wr .cmd (encode i)
  Proc.act blockStep
  let _ ← rd .status

/-- The error with a given code (R275). -/
def errOfCode (c : BitVec 5) : Option Err :=
  [Err.invalidCharacter, .mixedCase, .checksumInvalid, .wrongChecksumVariant, .lengthExceeded, .nonCanonicalPadding,
    .unknownTlvType, .truncatedTlv, .emptyTlvSequence, .missingField, .malformedField, .unrecognizedPrefix,
    .encodingKindMismatch, .missingSeparator, .tooShort, .invalidWitnessVersion, .invalidProgramLength, .invalidWord,
    .illegalCommand].find? fun e => e.code == c

/-- `CHECK` (R91): `s[2] = 1` is failure with code `s[12:8]`, returned to the caller unchanged (R243, R244). -/
def check : Proc Unit := do
  let s ← rd .status
  if s.getLsbD 2 then
    match errOfCode (s.extractLsb' 8 5) with
    | some e => Proc.failWith e
    | none => pure ()

/-- Identifier kinds (R230). -/
inductive IdKind where
  | note
  | npub
  | nsec
  | nprofile
  | nevent
  | nrelay
  | naddr
deriving DecidableEq, Repr

/-- All seven kinds (R230). -/
def IdKind.all : List IdKind := [.note, .npub, .nsec, .nprofile, .nevent, .nrelay, .naddr]

/-- The kind's human-readable prefix, in ASCII (R230). -/
def IdKind.hrp : IdKind → Bytes
  | .note => [0x6E, 0x6F, 0x74, 0x65]
  | .npub => [0x6E, 0x70, 0x75, 0x62]
  | .nsec => [0x6E, 0x73, 0x65, 0x63]
  | .nprofile => [0x6E, 0x70, 0x72, 0x6F, 0x66, 0x69, 0x6C, 0x65]
  | .nevent => [0x6E, 0x65, 0x76, 0x65, 0x6E, 0x74]
  | .nrelay => [0x6E, 0x72, 0x65, 0x6C, 0x61, 0x79]
  | .naddr => [0x6E, 0x61, 0x64, 0x64, 0x72]

/-- NOTE, NPUB and NSEC are the bare kinds (R230). -/
def IdKind.isBare : IdKind → Bool
  | .note => true
  | .npub => true
  | .nsec => true
  | .nprofile => false
  | .nevent => false
  | .nrelay => false
  | .naddr => false

/-- The SPECIAL field (the raw payload of a bare kind) has the fixed length 32; NADDR's tag and NRELAY's URL have any length
up to 255 (R231, R236, R237). -/
def IdKind.specialIsFixed : IdKind → Bool
  | .note => true
  | .npub => true
  | .nsec => true
  | .nprofile => true
  | .nevent => true
  | .nrelay => false
  | .naddr => false

/-- The kinds whose streams carry RELAY records (R231, R236). -/
def IdKind.usesRelays : IdKind → Bool
  | .note => false
  | .npub => false
  | .nsec => false
  | .nprofile => true
  | .nevent => true
  | .nrelay => false
  | .naddr => true

/-- The kinds whose streams carry AUTHOR and KIND records (R231, R235, R236). -/
def IdKind.usesAuthorAndKind : IdKind → Bool
  | .note => false
  | .npub => false
  | .nsec => false
  | .nprofile => false
  | .nevent => true
  | .nrelay => false
  | .naddr => true

/-- A payload (R231): `special` is the value that travels in SPECIAL, or the raw value of a bare kind; AUTHOR and KIND count
only with their flags (R241). Fields a kind does not use are ignored on encode and empty after decode. -/
structure Payload where
  kind : IdKind
  special : Bytes
  relays : List Bytes
  hasAuthor : Bool
  author : Bytes
  hasKind : Bool
  kindNumber : Word
deriving DecidableEq, Repr

/-- RELAY_CAP (R6, R231). -/
def relayCap : Nat := 10

/-- The largest value of a TLV length byte (R241). -/
def tlvValueMax : Nat := 255

/-- The length of a pubkey or an event id (R231). -/
def keyLength : Nat := 32

/-- KIND as four bytes, most significant first (R238). -/
def kindBytes (k : Word) : Bytes :=
  [k.extractLsb' 24 8, k.extractLsb' 16 8, k.extractLsb' 8 8, k.extractLsb' 0 8]

/-- The kind number of four bytes, most significant first (R238). -/
def kindOfBytes (v : Bytes) : Word :=
  ((v.getD 0 0).setWidth 32 <<< 24) ||| ((v.getD 1 0).setWidth 32 <<< 16) |||
    ((v.getD 2 0).setWidth 32 <<< 8) ||| (v.getD 3 0).setWidth 32

/-- R241's checks before any command, in the order missing, malformed, too long (log entry 19). -/
def payloadFault (p : Payload) : Option Err :=
  if p.kind = .naddr ∧ (p.hasAuthor = false ∨ p.hasKind = false) then some .missingField
  else if p.kind.specialIsFixed ∧ p.special.length ≠ keyLength then some .malformedField
  else if p.kind.usesAuthorAndKind ∧ p.hasAuthor = true ∧ p.author.length ≠ keyLength then some .malformedField
  else if tlvValueMax < p.special.length then some .lengthExceeded
  else if p.kind.usesRelays ∧ (relayCap < p.relays.length ∨ p.relays.any (fun r => tlvValueMax < r.length)) then
    some .lengthExceeded
  else none

/-- The stream's records as (type, value), in the fixed order SPECIAL, RELAY*, AUTHOR, KIND (R240). -/
def payloadRecords (p : Payload) : List (Byte × Bytes) :=
  [(0, p.special)] ++
  (if p.kind.usesRelays then p.relays.map fun r => (1, r) else []) ++
  (if p.kind.usesAuthorAndKind && p.hasAuthor then [(2, p.author)] else []) ++
  (if p.kind.usesAuthorAndKind && p.hasKind then [(3, kindBytes p.kindNumber)] else [])

/-- The record table and IBUF of R244: record `i` refers to the value bytes at `voff`, laid out one after the other. -/
def writeRecords (i voff : Nat) : List (Byte × Bytes) → Proc Unit
  | [] => pure ()
  | (t, v) :: rest => do
    wrb .ibuf voff v
    wr (.tlvRec (Fin.ofNat 16 i)) (Record.word ⟨t, BitVec.ofNat 8 v.length, BitVec.ofNat 16 voff⟩)
    writeRecords (i + 1) (voff + v.length) rest

/-- The hrp of a kind into HBUF and HRP_LEN (R242, R244). -/
def writeHrp (k : IdKind) : Proc Unit := do
  wrb .hbuf 0 k.hrp
  wr .hrpLen (BitVec.ofNat 32 k.hrp.length)

/-- The text a successful encode has left in OBUF (R242). -/
def readText : Proc Bytes := do
  let n ← rd .outLen
  rdb .obuf 0 n.toNat

/-- Encode of a bare kind (R242). -/
def encodeBare (p : Payload) : Proc Bytes := do
  writeHrp p.kind
  wrb .ibuf 0 p.special
  wr .inLen (BitVec.ofNat 32 p.special.length)
  doCmd (.segwitEncode .bare)
  check
  readText

/-- Encode of a TLV kind (R244). -/
def encodeTlv (p : Payload) : Proc Bytes := do
  let rs := payloadRecords p
  writeRecords 0 0 rs
  wr .tlvCount (BitVec.ofNat 32 rs.length)
  wr .inLen (BitVec.ofNat 32 (rs.map fun r => r.2.length).sum)
  doCmd .tlvEncode
  check
  doCmd .xfer
  doCmd (.convert .to5 .pad)
  check
  doCmd .xfer
  writeHrp p.kind
  wr .maxLen 256
  doCmd (.b32Encode .bech32)
  check
  readText

/-- The identifier layer's encode (R240 to R244). -/
def encodeIdentifier (p : Payload) : Proc Bytes :=
  match payloadFault p with
  | some e => Proc.failWith e
  | none => if p.kind.isBare then encodeBare p else encodeTlv p

/-- `DO TLV_FIND t` and, if a record of the type was found, its value (R246). -/
def findValue (t : Nat) : Proc (Option Bytes) := do
  doCmd (.tlvFind t)
  let f ← rd .tlvFound
  if f.getLsbD 8 then
    let r := Record.ofWord (← rd (.tlvRec (Fin.ofNat 16 (f.extractLsb' 0 5).toNat)))
    return some (← rdb .ibuf r.voff.toNat r.length.toNat)
  else return none

/-- R246's loop over the record table: the RELAY values in stream order, dropped without an error beyond the tenth. -/
def collectRelays (i : Nat) : Nat → Nat → Proc (List Bytes)
  | 0, _ => pure []
  | n + 1, kept => do
    let r := Record.ofWord (← rd (.tlvRec (Fin.ofNat 16 i)))
    if r.type = 1 ∧ kept < relayCap then
      let v ← rdb .ibuf r.voff.toNat r.length.toNat
      let vs ← collectRelays (i + 1) n (kept + 1)
      return v :: vs
    else collectRelays (i + 1) n kept

/-- An AUTHOR or KIND field: absent is MissingField for NADDR only, present must have the length (R246). -/
def optionalField (k : IdKind) (t length : Nat) : Proc (Option Bytes) := do
  match ← findValue t with
  | none => if k = .naddr then Proc.failWith .missingField else return none
  | some v => if v.length = length then return some v else Proc.failWith .malformedField

/-- Decode of a TLV kind, after R243 (R246): the fields in the order SPECIAL, AUTHOR, KIND, RELAY. -/
def decodeTlv (k : IdKind) : Proc Payload := do
  doCmd .xfer
  doCmd .tlvParse
  check
  let c ← rd .tlvCount
  match ← findValue 0 with
  | none => Proc.failWith .missingField
  | some special =>
    if k.specialIsFixed ∧ special.length ≠ keyLength then Proc.failWith .malformedField
    let author ← if k.usesAuthorAndKind then optionalField k 2 keyLength else pure none
    let kind ← if k.usesAuthorAndKind then optionalField k 3 4 else pure none
    let relays ← if k.usesRelays then collectRelays 0 c.toNat 0 else pure []
    return ⟨k, special, relays, author.isSome, author.getD [], kind.isSome, (kind.map kindOfBytes).getD 0⟩

/-- Decode of a bare kind, after R243 (R247). -/
def decodeBare (k : IdKind) : Proc Payload := do
  let n ← rd .outLen
  if n.toNat ≠ keyLength then Proc.failWith .malformedField
  let v ← rdb .obuf 0 n.toNat
  return ⟨k, v, [], false, [], false, 0⟩

/-- The identifier layer's decode (R243, R245, R246, R247). -/
def decodeIdentifier (text : Bytes) : Proc Payload := do
  wrb .ibuf 0 text
  wr .inLen (BitVec.ofNat 32 text.length)
  wr .maxLen 256
  doCmd .b32Decode
  check
  let s ← rd .status
  if s.extractLsb' 16 2 ≠ encField .bech32 then Proc.failWith .wrongChecksumVariant
  doCmd .xfer
  doCmd (.convert .to8 .nopad)
  check
  let n ← rd .hrpLen
  let hrp ← rdb .hbuf 0 n.toNat
  match IdKind.all.find? fun k => k.hrp == hrp with
  | none => Proc.failWith .unrecognizedPrefix
  | some k => if k.isBare then decodeBare k else decodeTlv k

end Sys2Proof.Machine
end

