-- ==== Sys2Proof/Safety.lean ====
section
/-! DEFINITION. What a claim may rely on of a state (the invariant), and what a run without a stop is: the host's duties
(70_reset_and_hazards.md R296, 20_memory.md R62) and the machine that never stops. The words under
Sys2Proof.Claims say in the spec's own terms what the statements need: which words are legal, what a success and an error leave,
the bit stream of a conversion, a TLV stream. -/

namespace Sys2Proof.Machine

/-- The legal combinations of STATUS (R25, with R275's codes in use). -/
abbrev Status.legal (t : Status) : Prop :=
  (t.busy = true → t.done = false ∧ t.err = false ∧ t.errcode = 0 ∧ t.enc = 0) ∧
  (t.err = false → t.errcode = 0) ∧
  (t.err = true → t.enc = 0 ∧ 1 ≤ t.errcode.toNat ∧ t.errcode.toNat ≤ 19) ∧
  t.enc ≠ 3

/-- The legal values of TLV_FOUND (R33). -/
abbrev Found.legal (f : Found) : Prop :=
  (f.found = false → f.index = 0) ∧ f.index.toNat < tlvMaxRecords

/-- The registers' ranges (R26 to R29, R32, R34). -/
abbrev State.lengthsLegal (s : State) : Prop :=
  s.inLen.toNat ≤ Config.bufBytes ∧ s.hrpLen.toNat ≤ Config.bufBytes ∧ s.outLen.toNat ≤ Config.bufBytes ∧
  s.maxLen.toNat ≤ Config.bufBytes ∧ s.tlvEnd.toNat ≤ Config.bufBytes ∧ s.tlvCount.toNat ≤ tlvMaxRecords

/-- The hidden state between commands (R38, R39). -/
abbrev State.hiddenLegal (s : State) : Prop :=
  s.pstate = .idle ∧ s.bits ≤ 15 ∧ s.nrec ≤ tlvMaxRecords ∧ s.off.toNat ≤ Config.bufBytes

/-- `pending` is `some w` exactly when BUSY = 1, and `w` is then the last word written to CMD (R24, R40). -/
abbrev State.pendingLegal (s : State) : Prop :=
  s.pending = if s.status.busy then some s.cmd else none

/-- The bytes of every buffer come from a draw already used, so a later draw is a fresh one (log entry 2). -/
abbrev State.drawsLegal (s : State) : Prop :=
  s.mem.hbufDraw < s.drawn ∧ s.mem.ibufDraw < s.drawn ∧ s.mem.obufDraw < s.drawn

/-- The invariant of the machine. -/
abbrev State.Inv (s : State) : Prop :=
  s.status.legal ∧ s.tlvFound.legal ∧ s.lengthsLegal ∧ s.hiddenLegal ∧ s.pendingLegal ∧ s.drawsLegal ∧ s.mem.wf

/-- A host that does its duties: every access is one R62 admits, and none is a write while BUSY = 1 (R296). The flag is BUSY
before the first event. -/
def dutiful : Bool → List Event → Bool
  | _, [] => true
  | busy, .busRead offset width :: rest => admitted offset width && dutiful busy rest
  | busy, .busWrite offset width _ :: rest =>
    admitted offset width && !busy && dutiful (offset == 0) rest
  | _, .blockTurn :: rest => dutiful false rest
  | _, .reset :: rest => dutiful false rest

/-- A run that no fault and no refusal ends. -/
def neverStops (s : State) : Prop := ∀ n, ∃ t, Sys2Proof.core.run n s = .next t

end Sys2Proof.Machine

namespace Sys2Proof.Claims

open Sys2Proof.Machine

/-- The words of R82, by opcode byte and by the number above it (R80: format N, V, E and S, C and T). -/
abbrev legalWord (w : Word) : Prop :=
  w.toNat ∈ [0x00, 0x01, 0x03, 0x11, 0x40, 0x42, 0x50] ∨
  (w.toNat % 256 = 0x02 ∧ w.toNat / 256 < 32) ∨
  (w.toNat % 256 ∈ [0x04, 0x10, 0x30, 0x31] ∧ w.toNat / 256 < 2) ∨
  (w.toNat % 256 ∈ [0x20, 0x41] ∧ w.toNat / 256 < 4)

/-- STATUS after a success: DONE = 1, the rest 0 but ENC (R271). -/
def okStatus (enc : BitVec 2) : Status := ⟨false, true, false, 0, enc⟩

/-- STATUS after an error: DONE = 1, ERR = 1, the code, ENC = 0 (R272). -/
def errStatus (code : BitVec 5) : Status := ⟨false, true, true, code, 0⟩

/-- Every byte the host could read from the buffer windows is as before. -/
def SameBytes (s t : State) : Prop := ∀ a, t.mem.read a = s.mem.read a

/-- Every byte outside the first `n` of a buffer is as before. -/
def SameBytesBut (b : Buffer) (n : Nat) (s t : State) : Prop :=
  ∀ a, ¬ (b.base ≤ a ∧ a < b.base + n) → t.mem.read a = s.mem.read a

/-- The buffer begins with these bytes. -/
def Holds (b : Buffer) (bs : Bytes) (t : State) : Prop := ∀ k < bs.length, t.mem.read (b.base + k) = bs.getD k 0

/-- The outcome is a success that writes the output `out`, CHK, OUT_LEN and STATUS, and nothing else the host can see. -/
def OutputsText (o : Host.Outcome State Fault Refusal) (s : State) (out : Bytes) (c : Chk) (enc : BitVec 2) : Prop :=
  ∃ t, o = .next t ∧
    t = { s with
      chk := c, outLen := BitVec.ofNat 16 out.length, mem := t.mem, pending := none, status := okStatus enc
      acc := t.acc, bits := t.bits } ∧
    Holds .obuf out t ∧ SameBytesBut .obuf out.length s t

/-- The outcome is an error that leaves OUT_LEN = 0 and every register and byte as before (CHK_HRP; R273). -/
def FailsClean (o : Host.Outcome State Fault Refusal) (s : State) (code : BitVec 5) : Prop :=
  o = .next { s with outLen := 0, pending := none, status := errStatus code }

/-- The outcome is an error that leaves OUT_LEN = 0, OBUF unspecified, and the rest as before (CONVERT, TLV_ENCODE; R273). -/
def FailsLosingOutput (o : Host.Outcome State Fault Refusal) (s : State) (code : BitVec 5) : Prop :=
  ∃ t, o = .next t ∧
    t = { s with
      outLen := 0, mem := t.mem, pending := none, status := errStatus code
      acc := t.acc, bits := t.bits, drawn := t.drawn } ∧
    SameBytesBut .obuf Config.bufBytes s t

/-- The outcome is an error that leaves CHK unspecified too (B32_ENCODE, SEGWIT_ENCODE, SEGWIT_DECODE; R273). -/
def FailsLosingChk (o : Host.Outcome State Fault Refusal) (s : State) (code : BitVec 5) : Prop :=
  ∃ t, o = .next t ∧
    t = { s with
      outLen := 0, mem := t.mem, pending := none, status := errStatus code, chk := t.chk
      acc := t.acc, bits := t.bits, drawn := t.drawn
      scratchHrp := t.scratchHrp, scratchWords := t.scratchWords } ∧
    SameBytesBut .obuf Config.bufBytes s t

/-- The outcome is a B32_DECODE error: HRP_LEN = 0 and OUT_LEN = 0, HBUF, OBUF and CHK unspecified, the rest as before (R273).
`residue` is what CHK holds after ChecksumInvalid (R135). -/
def FailsDecode (o : Host.Outcome State Fault Refusal) (s : State) (code : BitVec 5) (residue : Option Chk) : Prop :=
  ∃ t, o = .next t ∧
    t = { s with
      outLen := 0, hrpLen := 0, mem := t.mem, pending := none, status := errStatus code, chk := t.chk
      drawn := t.drawn } ∧
    (∀ r, residue = some r → t.chk = r) ∧
    ∀ a, Buffer.hbuf.holds a = false → Buffer.obuf.holds a = false → t.mem.read a = s.mem.read a

/-- The outcome is a TLV_PARSE error: TLV_COUNT = 0, TLV_END at the record being read, the table unspecified (R193, R273). -/
def FailsParse (o : Host.Outcome State Fault Refusal) (s : State) (code : BitVec 5) (at_ : Nat) : Prop :=
  ∃ t, o = .next t ∧
    t = { s with
      outLen := 0, tlvCount := 0, tlvEnd := BitVec.ofNat 16 at_, tlvRec := t.tlvRec
      pending := none, status := errStatus code, drawn := t.drawn
      off := t.off, nrec := t.nrec, pstate := .idle }

/-- A byte `check_hrp_for_encode` accepts (R105): in 33..126 and not upper case. -/
abbrev hrpByteOk (c : Byte) : Prop := 33 ≤ c.toNat ∧ c.toNat ≤ 126 ∧ ¬ (0x41 ≤ c.toNat ∧ c.toNat ≤ 0x5A)

/-- The error of a byte it does not accept (R105). -/
def hrpByteCode (c : Byte) : BitVec 5 := if c.toNat < 33 ∨ 126 < c.toNat then 1 else 2

/-- The `w` low bits of a byte, most significant first (R65). -/
def bitsOf (w : Nat) (x : Byte) : List Bool := (List.range w).map fun i => x.getLsbD (w - 1 - i)

/-- The bit stream of a list of `w`-bit words, most significant bit of each word first (R65). -/
def stream (w : Nat) (xs : Bytes) : List Bool := xs.flatMap (bitsOf w)

/-- A TLV record's bytes (R190). -/
def recordStream (r : Byte × Bytes) : Bytes := r.1 :: BitVec.ofNat 8 r.2.length :: r.2

/-- Records back to back (R190). -/
def tlvStream (rs : List (Byte × Bytes)) : Bytes := rs.flatMap recordStream

/-- A record TLV_PARSE accepts (R190): type 0..3, a value its length byte can count. -/
abbrev recordOk (r : Byte × Bytes) : Prop := r.1.toNat < 4 ∧ r.2.length ≤ 255

/-- The characters of a checksum value, symbol 5 - i of CHK at place i (R106). -/
def checkText (c : Chk) : Bytes := (List.range 6).map fun i => charOf (c.extractLsb' (25 - 5 * i) 5)

/-- What B32_ENCODE and SEGWIT_ENCODE write for an hrp and 5-bit words (R125). -/
def textOf (h ws : Bytes) (c : Chk) : Bytes := h ++ [0x31] ++ ws.map (fun w => charOf (w.setWidth 5)) ++ checkText c

/-- The checksum value of an hrp and words (R125). -/
def checksumOf (e : Encoding) (h ws : Bytes) : Chk :=
  polymod 1 (hrpExpand h ++ ws.map (fun w => w.setWidth 5) ++ [0, 0, 0, 0, 0, 0]) ^^^ constOf e

/-- The parts of a text B32_DECODE can take apart (R131): `post` stands after the last `1`. -/
abbrev Splits (text pre post : Bytes) : Prop := text = pre ++ 0x31 :: post ∧ 0x31 ∉ post

/-- Letters of both cases (R9, R131). -/
abbrev mixed (xs : Bytes) : Prop := (∃ c ∈ xs, isLower c = true) ∧ ∃ c ∈ xs, isUpper c = true

end Sys2Proof.Claims
end

