-- ==== Sys2Proof/Certificates/Slice0/Obligations.lean ====
section
/-! DEFINITION. The statements for the provers. Their words, under Sys2Proof.Claims, stand in Sys2Proof/Safety.lean. -/

open Sys2Proof Sys2Proof.Machine Sys2Proof.Claims

/-! ### Encoding (30_encoding.md) -/

/-- R82, R86: no bit of any command's encoding is dropped. -/
def Obligations.DecodeOfEncodeIsTheCommand : Prop :=
  ∀ i : Instr, i.wellFormed = true → decode (encode i) = .ok i

/-- R84, R85, R86: a word that decodes is the one word its command assembles to, and that command's operands are in range. -/
def Obligations.EncodeOfDecodeIsTheWord : Prop :=
  ∀ (w : Word) (i : Instr), decode w = .ok i → i.wellFormed = true ∧ encode i = w

/-- R82, R84: the decoder accepts the words of the opcode map and no other. -/
def Obligations.DecodeAcceptsExactlyTheLegalWords : Prop :=
  ∀ w : Word, (∃ i, decode w = .ok i) ↔ legalWord w

/-- R82: "no two rows share an OP". -/
def Obligations.NoWordSelectsTwoRows : Prop :=
  ∀ w : Word, ∀ r ∈ opcodeMap, ∀ q ∈ opcodeMap, r.selects w = true → q.selects w = true → r.mnemonic = q.mnemonic

/-- R86: some words as the table of R86 spells them. -/
def Obligations.SpelledWordsDecode : Prop :=
  decode 0x00001F02#32 = .ok (.chkStep 31) ∧ decode 0x00000104#32 = .ok (.chkFinal .bech32m) ∧
  decode 0x00000011#32 = .ok .b32Decode ∧ decode 0x00000220#32 = .ok (.convert .to5 .pad) ∧
  decode 0x00000120#32 = .ok (.convert .to8 .nopad) ∧ decode 0x00000130#32 = .ok (.segwitEncode .bare) ∧
  decode 0x00000341#32 = .ok (.tlvFind 3) ∧ decode 0x00000050#32 = .ok .xfer ∧
  decode 0x00000100#32 = .error .nonzeroReservedBits ∧ decode 0x000000FF#32 = .error .unknownOpcode

/-! ### The life of a command (60_exceptions.md) -/

/-- R270: at the block's turn, the step is the pending command's own transition. That it is the block's turn when no event is left
is the model's form (log entry 5). -/
def Obligations.StepRunsThePendingCommand : Prop :=
  ∀ (s : State) (w : Word) (i : Instr), s.inputs = [] → s.pending = some w → decode w = .ok i → step s = exec i s

/-- R24, R84, R270: a host write to CMD while BUSY = 0, of any word, latches it whole, sets STATUS to 0x00000001 and changes
nothing else; the block's next turn runs the command, or the illegal command's rule. The list of events is the model's form
(log entry 5). -/
def Obligations.CmdWriteStartsTheCommand : Prop :=
  ∀ (s : State) (w : Word) (rest : List Event), s.status.busy = false →
    s.inputs = .busWrite 0x000 4 w :: .blockTurn :: rest →
    ∃ t, step s = .next t ∧
      t = { s with
        cmd := w, pending := some w, status := ⟨true, false, false, 0, 0⟩, inputs := .blockTurn :: rest } ∧
      t.status.word = 0x00000001 ∧
      (∀ i, decode w = .ok i → step t = exec i { t with inputs := rest }) ∧
      (¬ legalWord w → step t = .next { t with inputs := rest, pending := none, status := errStatus 19 })

/-- R84, R221: every word outside the opcode map completes with ERRCODE 19 and changes nothing but STATUS. -/
def Obligations.IllegalCommandChangesOnlyStatus : Prop :=
  ∀ (s : State) (w : Word), s.inputs = [] → s.pending = some w → ¬ legalWord w →
    ∃ t, step s = .next t ∧ t = { s with pending := none, status := errStatus 19 } ∧ t.status.word = 0x00001306

/-- R271: every command, legal or not, completes from every state: BUSY = 0, DONE = 1, nothing pending. -/
def Obligations.EveryPendingCommandCompletes : Prop :=
  ∀ (s : State) (w : Word), s.inputs = [] → s.pending = some w →
    ∃ t, step s = .next t ∧ t.pending = none ∧ t.status.busy = false ∧ t.status.done = true

/-- R274: a failing command never writes its inputs: IBUF, IN_LEN, MAX_LEN and the command word. -/
def Obligations.FailingCommandKeepsItsInputs : Prop :=
  ∀ (s t : State) (w : Word), s.inputs = [] → s.pending = some w → step s = .next t → t.status.err = true →
    t.inLen = s.inLen ∧ t.maxLen = s.maxLen ∧ t.cmd = s.cmd ∧
    ∀ k < Config.bufBytes, t.mem.read (Buffer.ibuf.base + k) = s.mem.read (Buffer.ibuf.base + k)

/-- R23, R38, R39, R41, R60: whatever a command does, it writes only the registers the map's last column gives it, the hidden
state of the units it uses, and its own buffers. `inputs` and `readLog` are the model's own (log entries 5 and 16). -/
def Obligations.CommandsWriteOnlyTheirRegisters : Prop :=
  ∀ (i : Instr) (s t : State), exec i s = .next t →
    t.cmd = s.cmd ∧ t.maxLen = s.maxLen ∧ t.inputs = s.inputs ∧ t.readLog = s.readLog ∧
    (i ≠ .xfer → t.inLen = s.inLen) ∧
    (i ≠ .b32Decode → t.hrpLen = s.hrpLen) ∧
    ((∀ m, i ≠ .segwitDecode m) → t.version = s.version) ∧
    (i ≠ .tlvParse → t.tlvCount = s.tlvCount ∧ t.tlvEnd = s.tlvEnd ∧ t.tlvRec = s.tlvRec) ∧
    ((∀ k, i ≠ .tlvFind k) → t.tlvFound = s.tlvFound) ∧
    (i = .nop ∨ i = .xfer ∨ i = .tlvParse ∨ i = .tlvEncode ∨ (∃ k, i = .tlvFind k) ∨ (∃ d p, i = .convert d p) →
      t.chk = s.chk) ∧
    ((∀ d p, i ≠ .convert d p) → (∀ m, i ≠ .segwitEncode m) → (∀ m, i ≠ .segwitDecode m) → t.acc = s.acc ∧ t.bits = s.bits) ∧
    (i ≠ .tlvParse → t.off = s.off ∧ t.nrec = s.nrec ∧ t.pstate = s.pstate) ∧
    ((∀ m, i ≠ .segwitDecode m) → t.scratchHrp = s.scratchHrp ∧ t.scratchWords = s.scratchWords) ∧
    (∀ a, bufferAt a = none → t.mem.read a = s.mem.read a) ∧
    (i ≠ .xfer → ∀ k < Config.bufBytes, t.mem.read (Buffer.ibuf.base + k) = s.mem.read (Buffer.ibuf.base + k)) ∧
    (i ≠ .b32Decode → ∀ k < Config.bufBytes, t.mem.read (Buffer.hbuf.base + k) = s.mem.read (Buffer.hbuf.base + k)) ∧
    (i = .nop ∨ i = .chkInit ∨ (∃ v, i = .chkStep v) ∨ i = .chkHrp ∨ i = .tlvParse ∨ (∃ k, i = .tlvFind k) ∨ i = .xfer →
      ∀ k < Config.bufBytes, t.mem.read (Buffer.obuf.base + k) = s.mem.read (Buffer.obuf.base + k))

/-- R273: "On success, each command writes only what its rule writes; OBUF[OUT_LEN .. BUF_BYTES) keeps its old bytes." -/
def Obligations.SuccessKeepsTheRestOfObuf : Prop :=
  ∀ (i : Instr) (s t : State), s.maxLen.toNat ≤ Config.bufBytes → exec i s = .next t → t.status.err = false → i ≠ .xfer →
    ∀ k, t.outLen.toNat ≤ k → k < Config.bufBytes →
      t.mem.read (Buffer.obuf.base + k) = s.mem.read (Buffer.obuf.base + k)

/-! ### The invariant and safe runs -/

/-- R290: reset meets the invariant. -/
def Obligations.ResetMeetsTheInvariant : Prop := State.reset.Inv

/-- R25, R26 to R29, R32 to R34, R38 to R40, R67: from every state that meets the invariant, whatever happens next, the next
state meets it. The clauses on draws and on memory's canonical form are the model's own (log entries 1 and 2). -/
def Obligations.EveryStepKeepsTheInvariant : Prop :=
  ∀ s t : State, s.Inv → step s = .next t → t.Inv

/-- R62, R271, R296: a host that makes only admitted accesses and never writes while BUSY never sees the machine stop. -/
def Obligations.DutifulHostNeverStops : Prop :=
  ∀ s : State, s.Inv → dutiful s.status.busy s.inputs = true → neverStops s

/-- R62, R296: nothing but an admitted host write while BUSY faults, and nothing but an access outside R62 is refused; no command
is a reason to stop. That an access outside R62 is refused and does not fault while BUSY = 1, so that a fault comes on an
admitted write only, is the model's reading (log entry 10): X6 and X7 both apply there. -/
def Obligations.OnlyHostAccessesStopTheMachine : Prop :=
  ∀ s : State,
    (∀ f, step s = .fault f → f = .hostWriteWhileBusy ∧ s.status.busy = true ∧
      ∃ o n v rest, s.inputs = .busWrite o n v :: rest ∧ admitted o n = true) ∧
    (∀ r, step s = .refused r → r = .unadmittedAccess ∧
      ∃ o n rest, admitted o n = false ∧
        (s.inputs = .busRead o n :: rest ∨ ∃ v, s.inputs = .busWrite o n v :: rest))

/-- R290: a reset from any state, a command pending or not, gives every register its reset value and leaves every buffer byte
a free value. That `inputs` and `readLog` stay is the model's choice (log entry 13), and so is the form of the
draw (log entry 2). -/
def Obligations.ResetFromAnyState : Prop :=
  ∀ (s : State) (rest : List Event), s.inputs = .reset :: rest →
    ∃ t, step s = .next t ∧ t.cmd = 0x00000000 ∧ t.status.word = 0x00000000 ∧ t.inLen = 0 ∧ t.hrpLen = 0 ∧ t.outLen = 0 ∧
      t.maxLen = 256 ∧ t.chk = 0x00000001 ∧ t.version = 0 ∧ t.tlvCount = 0 ∧ t.tlvFound.word = 0x00000000 ∧ t.tlvEnd = 0 ∧
      (∀ i : Fin 16, t.tlvRec[i].word = 0x00000000) ∧ t.pending = none ∧ t.acc = 0 ∧ t.bits = 0 ∧ t.off = 0 ∧ t.nrec = 0 ∧
      t.pstate = .idle ∧ (∀ a, (bufferAt a).isSome = true → t.mem.read a = Config.freeByte s.drawn a) ∧
      t.inputs = rest ∧ t.readLog = s.readLog

/-! ### The bus (20_memory.md, 10_state.md) -/

/-- R26, R27, R29: a host write of `v` to IN_LEN, HRP_LEN or MAX_LEN stores `min(v[15:0], BUF_BYTES)`, which is what a read
returns, and changes nothing else. -/
def Obligations.LengthRegistersClampHostWrites : Prop :=
  ∀ (s : State) (v : Word), s.status.busy = false →
    ∀ x : Nat, x = min (v.toNat % 65536) 512 →
    (∃ t, busWrite 0x008 4 v s = .next t ∧ t = { s with inLen := BitVec.ofNat 16 x } ∧ (readValue 0x008 4 t).toNat = x) ∧
    (∃ t, busWrite 0x00C 4 v s = .next t ∧ t = { s with hrpLen := BitVec.ofNat 16 x } ∧ (readValue 0x00C 4 t).toNat = x) ∧
    (∃ t, busWrite 0x014 4 v s = .next t ∧ t = { s with maxLen := BitVec.ofNat 16 x } ∧ (readValue 0x014 4 t).toNat = x)

/-- R30, R31, R32, R35: what the host reads back from CHK, VERSION, TLV_COUNT and TLV_REC[i] after it has written them. -/
def Obligations.HostWritesReadBack : Prop :=
  ∀ (s : State) (v : Word) (i : Fin 16), s.status.busy = false →
    (∃ t, busWrite 0x018 4 v s = .next t ∧ t = { s with chk := t.chk } ∧
      (readValue 0x018 4 t).toNat = v.toNat % 2 ^ 30) ∧
    (∃ t, busWrite 0x01C 4 v s = .next t ∧ t = { s with version := t.version } ∧
      (readValue 0x01C 4 t).toNat = v.toNat % 32) ∧
    (∃ t, busWrite 0x020 4 v s = .next t ∧ t = { s with tlvCount := t.tlvCount } ∧
      (readValue 0x020 4 t).toNat = min (v.toNat % 32) 16) ∧
    (∃ t, busWrite (0x040 + 4 * i.val) 4 v s = .next t ∧ t = { s with tlvRec := t.tlvRec } ∧
      readValue (0x040 + 4 * i.val) 4 t = v ∧ ∀ j : Fin 16, j ≠ i → t.tlvRec[j] = s.tlvRec[j])

/-- R23, R25, R28, R33, R34, R61: a host write to a read-only register, to a reserved register offset, or to the reserved rest
of a buffer's window is ignored, and a reserved offset reads 0. -/
def Obligations.ReadOnlyAndReservedIgnoreWrites : Prop :=
  ∀ (s : State) (v : Word) (o n : Nat), s.status.busy = false → admitted o n = true →
    (o ∈ [0x004, 0x010, 0x024, 0x028] → busWrite o n v s = .next s) ∧
    ((0x02C ≤ o ∧ o < 0x040) ∨ (0x080 ≤ o ∧ o < 0x1000) ∨ (0x1200 ≤ o ∧ o < 0x2000) ∨ (0x2200 ≤ o ∧ o < 0x3000) ∨ 0x3200 ≤ o →
      busWrite o n v s = .next s ∧ readValue o n s = 0)

/-- R24 to R35: what a host read of each register returns. The fields of STATUS, TLV_FOUND and TLV_REC[i] stand at the bits their
rules give, the other registers' values in the low bits, and every reserved bit reads 0; STATUS and CMD read so while BUSY too. -/
def Obligations.StatusAndFoundWords : Prop :=
  ∀ (s : State) (x y : Word), x = readValue 0x004 4 s → y = readValue 0x024 4 s →
    (x.getLsbD 0 = s.status.busy ∧ x.getLsbD 1 = s.status.done ∧ x.getLsbD 2 = s.status.err ∧
      x.extractLsb' 8 5 = s.status.errcode ∧ x.extractLsb' 16 2 = s.status.enc ∧ x &&& 0xFFFCE0F8 = 0) ∧
    readValue 0x000 4 s = s.cmd ∧
    (s.status.busy = false →
      (y.extractLsb' 0 5 = s.tlvFound.index ∧ y.getLsbD 8 = s.tlvFound.found ∧ y &&& 0xFFFFFEE0 = 0) ∧
      (readValue 0x008 4 s).toNat = s.inLen.toNat ∧ (readValue 0x00C 4 s).toNat = s.hrpLen.toNat ∧
      (readValue 0x010 4 s).toNat = s.outLen.toNat ∧ (readValue 0x014 4 s).toNat = s.maxLen.toNat ∧
      (readValue 0x018 4 s).toNat = s.chk.toNat ∧ (readValue 0x01C 4 s).toNat = s.version.toNat ∧
      (readValue 0x020 4 s).toNat = s.tlvCount.toNat ∧ (readValue 0x028 4 s).toNat = s.tlvEnd.toNat ∧
      ∀ (i : Fin 16) (z : Word), z = readValue (0x040 + 4 * i.val) 4 s →
        z.extractLsb' 0 8 = s.tlvRec[i].type ∧ z.extractLsb' 8 8 = s.tlvRec[i].length ∧
          z.extractLsb' 16 16 = s.tlvRec[i].voff)

/-- R61, R63: an 8-bit host write to a buffer byte is what an 8-bit read returns; no other byte and no register changes. -/
def Obligations.BufferByteReadsBack : Prop :=
  ∀ (s : State) (b : Buffer) (k : Nat) (v : Word), s.status.busy = false → k < Config.bufBytes →
    ∃ t, busWrite (b.base + k) 1 v s = .next t ∧ t = { s with mem := t.mem } ∧
      (readValue (b.base + k) 1 t).toNat = v.toNat % 256 ∧
      ∀ a, a ≠ b.base + k → t.mem.read a = s.mem.read a

/-- R63: "byte `i` in bits [7:0] of the value and byte `i+3` in bits [31:24]", for a 32-bit write and for a 32-bit read. -/
def Obligations.BufferWordsAreLittleEndian : Prop :=
  ∀ (s : State) (b : Buffer) (k : Nat) (v : Word), s.status.busy = false → k + 3 < Config.bufBytes → k % 4 = 0 →
    ∃ t, busWrite (b.base + k) 4 v s = .next t ∧ t = { s with mem := t.mem } ∧
      (∀ j < 4, (t.mem.read (b.base + k + j)).toNat = v.toNat / 256 ^ j % 256) ∧
      readValue (b.base + k) 4 t = v ∧
      ∀ a, ¬ (b.base + k ≤ a ∧ a < b.base + k + 4) → t.mem.read a = s.mem.read a

/-- R24, R63: an admitted read changes no state of the block. The host's log, to which it appends the value, and the draws are
the model's own (log entries 4 and 16). -/
def Obligations.BusReadsChangeNothing : Prop :=
  ∀ (s : State) (o n : Nat) (rest : List Event), s.inputs = .busRead o n :: rest → admitted o n = true →
    ∃ t, step s = .next t ∧
      t = { s with inputs := rest, readLog := s.readLog ++ [readValue o n { s with inputs := rest }], drawn := t.drawn } ∧
      (s.status.busy = false → t.drawn = s.drawn)

/-- R68: while BUSY = 1 a read of STATUS or CMD gives the true value, and a read of any other register or buffer byte a value
that comes from a draw, whatever the location holds: two states that agree on BUSY and on the draw read the same there. The draw
is the model's form (log entry 4). -/
def Obligations.ReadsWhileBusy : Prop :=
  ∀ s : State, s.status.busy = true →
    readValue 0x000 4 s = s.cmd ∧ readValue 0x004 4 s = s.status.word ∧
    ∀ u : State, u.status.busy = true → u.drawn = s.drawn → ∀ o n, admitted o n = true → o ≠ 0x000 → o ≠ 0x004 →
      readValue o n u = readValue o n s

/-- R62: the accesses the host may make "and no others": every other one is refused, read or write. That it is refused while
BUSY = 1 too is the model's reading (log entry 10). -/
def Obligations.UnadmittedAccessesAreRefused : Prop :=
  ∀ (s : State) (o n : Nat) (v : Word),
    ¬ ((n = 4 ∧ o % 4 = 0 ∧ o < 0x4000) ∨ (n = 1 ∧ 0x1000 ≤ o ∧ o < 0x4000)) →
    busRead o n s = .refused .unadmittedAccess ∧ busWrite o n v s = .refused .unadmittedAccess

/-- R296: a host write of any location while BUSY = 1 is the fault HostWriteWhileBusy; of a read-only or reserved offset too, in
the model's reading (log entry 11). -/
def Obligations.WriteWhileBusyFaults : Prop :=
  ∀ (s : State) (o n : Nat) (v : Word) (rest : List Event), s.inputs = .busWrite o n v :: rest → s.status.busy = true →
    ((n = 4 ∧ o % 4 = 0 ∧ o < 0x4000) ∨ (n = 1 ∧ 0x1000 ≤ o ∧ o < 0x4000)) → step s = .fault .hostWriteWhileBusy

/-! ### The checksum unit (40_checksum.md) -/

/-- R102, R103, R220 with R101: NOP, CHK_INIT and CHK_STEP, by their words, change CHK as their rules say, OUT_LEN to 0 and
STATUS, and nothing else; the step shifts the low 25 bits up by 5 and adds GEN[i] for each bit 25+i that is set. -/
def Obligations.RegisterCommandsResult : Prop :=
  ∀ (s : State) (v : Nat), v ≤ 31 →
    decode 0x00000000 = .ok .nop ∧ decode 0x00000001 = .ok .chkInit ∧
    decode (0x00000002 ||| (BitVec.ofNat 32 v <<< 8)) = .ok (.chkStep v) ∧
    exec .nop s = .next { s with outLen := 0, pending := none, status := okStatus 0 } ∧
    exec .chkInit s = .next { s with chk := 0x00000001, outLen := 0, pending := none, status := okStatus 0 } ∧
    exec (.chkStep v) s = .next { s with
      chk := (s.chk <<< 5) ^^^ (if s.chk.getLsbD 25 then 0x3b6a57b2 else 0) ^^^
        (if s.chk.getLsbD 26 then 0x26508e6d else 0) ^^^ (if s.chk.getLsbD 27 then 0x1ea119fa else 0) ^^^
        (if s.chk.getLsbD 28 then 0x3d4233dd else 0) ^^^ (if s.chk.getLsbD 29 then 0x2a1462b3 else 0) ^^^ BitVec.ofNat 30 v
      outLen := 0, pending := none, status := okStatus 0 }

/-- R110, the laws of linearity: of the step, of the polymod, and of six symbols in the place of six zero steps; so that with
the six checksum symbols of R106 appended, the polymod over the whole string is the encoding constant. -/
def Obligations.PolymodIsLinear : Prop :=
  (∀ a b : Chk, polyStep (a ^^^ b) = polyStep a ^^^ polyStep b) ∧
  (∀ (a b : Chk) (vs : List Sym), polymod a vs ^^^ polymod b vs = polymod (a ^^^ b) (List.replicate vs.length 0)) ∧
  (∀ (c x : Chk), polymod c ((List.range 6).map fun i => x.extractLsb' (5 * (5 - i)) 5) =
    polymod c [0, 0, 0, 0, 0, 0] ^^^ x) ∧
  ∀ (e : Encoding) (vs : List Sym) (c : Chk), c = polymod 1 (vs ++ [0, 0, 0, 0, 0, 0]) ^^^ constOf e →
    polymod 1 (vs ++ (List.range 6).map fun i => c.extractLsb' (25 - 5 * i) 5) = constOf e

/-- R111: one symbol replaced by another changes the residue, wherever it stands, so the residue of a valid text is not the
constant of its encoding any more. -/
def Obligations.OneSymbolChangesTheResidue : Prop :=
  ∀ (c : Chk) (pre post : List Sym) (v v' : Sym), v ≠ v' →
    polymod c (pre ++ v :: post) ≠ polymod c (pre ++ v' :: post)

/-- R42, R43: CHARSET's 32 bytes are the characters of R42's string in order, and REV inverts CHARSET: it gives `v` exactly for
the bytes whose lower case is CHARSET[v], and INVALID otherwise. -/
def Obligations.ReverseLookupInvertsTheCharset : Prop :=
  ((List.range 32).map fun v => charOf (BitVec.ofNat 5 v)) =
    (['q', 'p', 'z', 'r', 'y', '9', 'x', '8', 'g', 'f', '2', 't', 'v', 'd', 'w', '0'] ++
      ['s', '3', 'j', 'n', '5', '4', 'k', 'h', 'c', 'e', '6', 'm', 'u', 'a', '7', 'l']).map (fun c => BitVec.ofNat 8 c.toNat) ∧
  ∀ (b : Byte) (v : Sym), symOf b = some v ↔ charOf v = toLower b

/-- R105: CHK_HRP absorbs the high bits, a zero and the low bits of an hrp that passes the check; CHK, OUT_LEN and STATUS
change, nothing else. -/
def Obligations.ChkHrpResult : Prop :=
  ∀ s : State, s.hrp ≠ [] → (∀ c ∈ s.hrp, hrpByteOk c) →
    exec .chkHrp s = .next { s with
      chk := polymod s.chk
        ((s.hrp.map fun c => BitVec.ofNat 5 (c.toNat / 32)) ++ [0] ++ s.hrp.map fun c => BitVec.ofNat 5 (c.toNat % 32))
      outLen := 0, pending := none, status := okStatus 0 }

/-- R105, R273: CHK_HRP's errors: TooShort for an empty hrp, else the error of the first byte the check rejects; CHK and all
else stay. -/
def Obligations.ChkHrpErrors : Prop :=
  ∀ s : State,
    (s.hrp = [] → FailsClean (exec .chkHrp s) s 15) ∧
    (∀ pre c post, s.hrp = pre ++ c :: post → (∀ x ∈ pre, hrpByteOk x) → ¬ hrpByteOk c →
      FailsClean (exec .chkHrp s) s (hrpByteCode c))

/-- R107, R106: CHK_FINAL, by its word, leaves the checksum value in CHK and its six characters in OBUF, and writes nothing else. -/
def Obligations.ChkFinalResult : Prop :=
  ∀ (e : Encoding) (s : State),
    decode (if e = .bech32 then 0x00000004 else 0x00000104) = .ok (.chkFinal e) ∧
    ∃ t, exec (.chkFinal e) s = .next t ∧
      t = { s with
        chk := polymod s.chk [0, 0, 0, 0, 0, 0] ^^^ (if e = .bech32 then 0x00000001 else 0x2bc830a3)
        outLen := 6, mem := t.mem, pending := none, status := okStatus (if e = .bech32 then 1 else 2) } ∧
      Holds .obuf (checkText t.chk) t ∧ SameBytesBut .obuf 6 s t

/-! ### Framing (41_bech32_framing.md) -/

/-- R125: B32_ENCODE of an hrp that passes the check, words below 32 and a text within MAX_LEN. -/
def Obligations.B32EncodeResult : Prop :=
  ∀ (e : Encoding) (s : State), s.maxLen.toNat ≤ Config.bufBytes → s.hrp ≠ [] → (∀ c ∈ s.hrp, hrpByteOk c) → (∀ w ∈ s.input, w.toNat ≤ 31) →
    s.hrp.length + 1 + s.input.length + 6 ≤ s.maxLen.toNat →
    OutputsText (exec (.b32Encode e) s) s (textOf s.hrp s.input (checksumOf e s.hrp s.input)) (checksumOf e s.hrp s.input)
      (encField e)

/-- R125, R273, R276: B32_ENCODE's errors, in the order of the checks, and what each leaves. -/
def Obligations.B32EncodeErrors : Prop :=
  ∀ (e : Encoding) (s : State),
    (s.hrp = [] → FailsLosingChk (exec (.b32Encode e) s) s 15) ∧
    (∀ pre c post, s.hrp = pre ++ c :: post → (∀ x ∈ pre, hrpByteOk x) → ¬ hrpByteOk c →
      FailsLosingChk (exec (.b32Encode e) s) s (hrpByteCode c)) ∧
    (s.hrp ≠ [] → (∀ c ∈ s.hrp, hrpByteOk c) →
      (s.maxLen.toNat < s.hrp.length + 1 + s.input.length + 6 → FailsLosingChk (exec (.b32Encode e) s) s 5) ∧
      (s.hrp.length + 1 + s.input.length + 6 ≤ s.maxLen.toNat → (∃ w ∈ s.input, 31 < w.toNat) →
        FailsLosingChk (exec (.b32Encode e) s) s 18))

/-- R131: B32_DECODE of a text that passes every check: the lower-cased hrp in HBUF, the words without the checksum in OBUF, one
per byte, the residue in CHK, the encoding in ENC. -/
def Obligations.B32DecodeResult : Prop :=
  ∀ (s : State) (pre post : Bytes) (d : List Sym) (enc : Encoding), Splits s.input pre post →
    8 ≤ s.input.length → s.input.length ≤ s.maxLen.toNat → pre ≠ [] → 6 ≤ post.length →
    (∀ c ∈ pre, 33 ≤ c.toNat ∧ c.toNat ≤ 126) → post.map symOf = d.map some → ¬ mixed s.input →
    polymod 1 (hrpExpand (pre.map toLower) ++ d) = constOf enc →
    ∃ t, exec .b32Decode s = .next t ∧
      t = { s with
        chk := constOf enc, hrpLen := BitVec.ofNat 16 pre.length, outLen := BitVec.ofNat 16 (post.length - 6)
        mem := t.mem, pending := none, status := okStatus (encField enc) } ∧
      Holds .hbuf (pre.map toLower) t ∧ Holds .obuf ((d.take (post.length - 6)).map fun v => v.setWidth 8) t ∧
      ∀ a, ¬ (Buffer.hbuf.base ≤ a ∧ a < Buffer.hbuf.base + pre.length) →
        ¬ (Buffer.obuf.base ≤ a ∧ a < Buffer.obuf.base + (post.length - 6)) → t.mem.read a = s.mem.read a

/-- R131, R135, R273, R276: B32_DECODE's errors, in the order of the checks, and what each leaves. -/
def Obligations.B32DecodeErrors : Prop :=
  ∀ s : State,
    (s.input.length < 8 → FailsDecode (exec .b32Decode s) s 15 none) ∧
    (8 ≤ s.input.length → s.maxLen.toNat < s.input.length → FailsDecode (exec .b32Decode s) s 5 none) ∧
    (8 ≤ s.input.length → s.input.length ≤ s.maxLen.toNat →
      (0x31 ∉ s.input → FailsDecode (exec .b32Decode s) s 14 none) ∧
      (∀ pre post, Splits s.input pre post →
        (pre = [] ∨ post.length < 6 → FailsDecode (exec .b32Decode s) s 15 none) ∧
        (pre ≠ [] → 6 ≤ post.length →
          ((∃ c ∈ pre, c.toNat < 33 ∨ 126 < c.toNat) ∨ none ∈ post.map symOf →
            FailsDecode (exec .b32Decode s) s 1 none) ∧
          ∀ d : List Sym, (∀ c ∈ pre, 33 ≤ c.toNat ∧ c.toNat ≤ 126) → post.map symOf = d.map some →
            (mixed s.input → FailsDecode (exec .b32Decode s) s 2 none) ∧
            (¬ mixed s.input → ∀ r, r = polymod 1 (hrpExpand (pre.map toLower) ++ d) → r ≠ 0x00000001 → r ≠ 0x2bc830a3 →
              FailsDecode (exec .b32Decode s) s 3 (some r)))))

/-- R136: B32_ENCODE, XFER, B32_DECODE gives back the hrp, the words and the encoding. -/
def Obligations.FramingRoundTrip : Prop :=
  ∀ (e : Encoding) (s : State), s.maxLen.toNat ≤ Config.bufBytes → s.hrp ≠ [] → (∀ c ∈ s.hrp, hrpByteOk c) → (∀ w ∈ s.input, w.toNat ≤ 31) →
    s.hrp.length + 1 + s.input.length + 6 ≤ s.maxLen.toNat →
    ∃ t u v, exec (.b32Encode e) s = .next t ∧ exec .xfer t = .next u ∧ exec .b32Decode u = .next v ∧
      v.status = okStatus (encField e) ∧ v.hrp = s.hrp ∧ v.output = s.input

/-! ### The converter (42_convert.md) -/

/-- R151, R152, R153, R154: when CONVERT succeeds. With padding the output's bit stream is the input's and zeros up to a whole
word; without it the leftover zeros are dropped. CHK, the lengths and every byte outside the output stay. -/
def Obligations.ConvertResult : Prop :=
  ∀ (d : Direction) (p : Padding) (s : State) (n : Nat), n = s.input.length * inBits d →
    (d = .to8 → ∀ x ∈ s.input, x.toNat ≤ 31) → (d = .to5 → s.input.length ≤ 320) →
    (p = .nopad → n % outBits d < inBits d ∧ ∀ i, n - n % outBits d ≤ i → (stream (inBits d) s.input).getD i false = false) →
    ∃ t out, exec (.convert d p) s = .next t ∧
      t = { s with
        outLen := BitVec.ofNat 16 out.length, mem := t.mem, pending := none, status := okStatus 0
        acc := t.acc, bits := t.bits } ∧
      Holds .obuf out t ∧ SameBytesBut .obuf out.length s t ∧ out.length ≤ Config.bufBytes ∧
      (∀ w ∈ out, w.toNat < 2 ^ outBits d) ∧
      (p = .pad → out.length = (n + outBits d - 1) / outBits d ∧
        stream (outBits d) out = stream (inBits d) s.input ++ List.replicate (out.length * outBits d - n) false) ∧
      (p = .nopad → out.length = n / outBits d ∧
        stream (inBits d) s.input = stream (outBits d) out ++ List.replicate (n % outBits d) false)

/-- R151, R153, R154, R273: CONVERT's errors. A 5 to 8 input byte above 31 is InvalidWord; an 8 to 5 input of more than 320
bytes is LengthExceeded; without padding, a leftover of at least the input width or with a bit set is NonCanonicalPadding. -/
def Obligations.ConvertErrors : Prop :=
  ∀ (d : Direction) (p : Padding) (s : State) (n : Nat), n = s.input.length * inBits d →
    (d = .to8 → (∃ x ∈ s.input, 31 < x.toNat) → FailsLosingOutput (exec (.convert d p) s) s 18) ∧
    (d = .to5 → 320 < s.input.length → FailsLosingOutput (exec (.convert d p) s) s 5) ∧
    ((d = .to8 → ∀ x ∈ s.input, x.toNat ≤ 31) → (d = .to5 → s.input.length ≤ 320) → p = .nopad →
      (inBits d ≤ n % outBits d ∨ ∃ i, n - n % outBits d ≤ i ∧ (stream (inBits d) s.input).getD i false = true) →
      FailsLosingOutput (exec (.convert d p) s) s 6)

/-- R155: 8 to 5 without padding fails exactly when a leftover bit is set; 8 to 5 with padding, XFER, 5 to 8 without padding
gives back the input bytes. -/
def Obligations.ConvertRoundTrip : Prop :=
  ∀ s : State, s.input.length ≤ 320 →
    (∃ w, exec (.convert .to5 .nopad) s = .next w ∧
      (w.status.err = true ↔
        ∃ i, 8 * s.input.length - 8 * s.input.length % 5 ≤ i ∧ (stream 8 s.input).getD i false = true)) ∧
    ∃ t u v, exec (.convert .to5 .pad) s = .next t ∧ exec .xfer t = .next u ∧ exec (.convert .to8 .nopad) u = .next v ∧
      v.status = okStatus 0 ∧ v.output = s.input

/-! ### Segwit (43_segwit.md) -/

/-- R171, R172, R170: SEGWIT_ENCODE in bare and in versioned mode, for a program length and version it accepts, an hrp that
passes the check and a text within 90 characters, whatever MAX_LEN is. -/
def Obligations.SegwitEncodeResult : Prop :=
  ∀ s : State, s.hrp ≠ [] → (∀ c ∈ s.hrp, hrpByteOk c) → ∀ ws : Bytes, ws = (convertBits .to5 .pad s.input).out →
    (s.input.length ∈ [20, 32] → s.hrp.length + 1 + ws.length + 6 ≤ 90 →
      OutputsText (exec (.segwitEncode .bare) s) s (textOf s.hrp ws (checksumOf .bech32 s.hrp ws))
        (checksumOf .bech32 s.hrp ws) 1) ∧
    ∀ v : Byte, v = s.version.setWidth 8 → s.version.toNat ≤ 16 → 2 ≤ s.input.length → s.input.length ≤ 40 →
      s.hrp.length + 1 + (ws.length + 1) + 6 ≤ 90 →
      (s.version = 0 → s.input.length ∈ [20, 32] →
        OutputsText (exec (.segwitEncode .versioned) s) s (textOf s.hrp (v :: ws) (checksumOf .bech32 s.hrp (v :: ws)))
          (checksumOf .bech32 s.hrp (v :: ws)) 1) ∧
      (s.version ≠ 0 →
        OutputsText (exec (.segwitEncode .versioned) s) s (textOf s.hrp (v :: ws) (checksumOf .bech32m s.hrp (v :: ws)))
          (checksumOf .bech32m s.hrp (v :: ws)) 2)

/-- R171, R273, R276: SEGWIT_ENCODE's errors, in the order of the checks: the version, the program length, then the hrp and the
length of the text. -/
def Obligations.SegwitEncodeErrors : Prop :=
  ∀ (m : SegwitMode) (s : State),
    (m = .versioned → 16 < s.version.toNat → FailsLosingChk (exec (.segwitEncode m) s) s 16) ∧
    ((m = .versioned → s.version.toNat ≤ 16) →
      ((m = .versioned ∧ (s.input.length < 2 ∨ 40 < s.input.length)) ∨
        ((m = .bare ∨ s.version = 0) ∧ s.input.length ≠ 20 ∧ s.input.length ≠ 32) →
          FailsLosingChk (exec (.segwitEncode m) s) s 17) ∧
      (2 ≤ s.input.length → s.input.length ≤ 40 → (m = .bare ∨ s.version = 0 → s.input.length ∈ [20, 32]) →
        (s.hrp = [] → FailsLosingChk (exec (.segwitEncode m) s) s 15) ∧
        (∀ pre c post, s.hrp = pre ++ c :: post → (∀ x ∈ pre, hrpByteOk x) → ¬ hrpByteOk c →
          FailsLosingChk (exec (.segwitEncode m) s) s (hrpByteCode c)) ∧
        (s.hrp ≠ [] → (∀ c ∈ s.hrp, hrpByteOk c) →
          90 < s.hrp.length + 1 + ((8 * s.input.length + 4) / 5 + if m = .versioned then 1 else 0) + 6 →
          FailsLosingChk (exec (.segwitEncode m) s) s 5)))

/-- R173, R174: SEGWIT_DECODE of a text whose decode within 90 characters gives the hrp in HBUF and words that pass the mode's
checks: the program in OBUF, the version in VERSION (0 in bare mode), the residue in CHK; HBUF, HRP_LEN, IBUF stay. -/
def Obligations.SegwitDecodeResult : Prop :=
  ∀ (s : State) (g : DecodedText) (c : Conversion), decodeText s.input 90 = .ok g → g.hrp = s.hrp →
    ∀ (m : SegwitMode) (v : BitVec 5),
    (m = .bare → v = 0 ∧ c = convertBits .to8 .nopad (g.words.map byteOfSym)) →
    (m = .versioned → ∃ rest, g.words = v :: rest ∧ c = convertBits .to8 .nopad (rest.map byteOfSym)) →
    v.toNat ≤ 16 → c.error = none → 2 ≤ c.out.length → c.out.length ≤ 40 →
    (v = 0 → g.enc = .bech32 ∧ c.out.length ∈ [20, 32]) → (v ≠ 0 → g.enc = .bech32m) →
    ∃ t, exec (.segwitDecode m) s = .next t ∧
      t = { s with
        version := v, chk := constOf g.enc, outLen := BitVec.ofNat 16 c.out.length, mem := t.mem, pending := none
        status := okStatus (encField g.enc), acc := t.acc, bits := t.bits
        scratchHrp := t.scratchHrp, scratchWords := t.scratchWords } ∧
      Holds .obuf c.out t ∧ SameBytesBut .obuf c.out.length s t

/-- R173, R273, R276: SEGWIT_DECODE's errors after the text's own, in the order of the checks. -/
def Obligations.SegwitDecodeErrors : Prop :=
  ∀ (m : SegwitMode) (s : State),
    (∀ te, decodeText s.input 90 = .error te →
      FailsLosingChk (exec (.segwitDecode m) s) s te.code.code ∧
      ∀ t r, exec (.segwitDecode m) s = .next t → te.residue = some r → t.chk = r) ∧
    (∀ g, decodeText s.input 90 = .ok g →
      (g.hrp ≠ s.hrp → FailsLosingChk (exec (.segwitDecode m) s) s 12) ∧
      (g.hrp = s.hrp →
        (m = .bare → g.enc = .bech32m → FailsLosingChk (exec (.segwitDecode m) s) s 13) ∧
        (m = .versioned → g.words = [] → FailsLosingChk (exec (.segwitDecode m) s) s 17) ∧
        (∀ v rest, m = .versioned → g.words = v :: rest →
          (16 < v.toNat → FailsLosingChk (exec (.segwitDecode m) s) s 16) ∧
          (v.toNat ≤ 16 → (v = 0 ∧ g.enc = .bech32m) ∨ (v ≠ 0 ∧ g.enc = .bech32) →
            FailsLosingChk (exec (.segwitDecode m) s) s 13)) ∧
        (∀ v ws, (m = .bare ∧ g.enc = .bech32 ∧ v = 0 ∧ ws = g.words) ∨
            (m = .versioned ∧ g.words = v :: ws ∧ v.toNat ≤ 16 ∧ (v = 0 ↔ g.enc = .bech32)) →
          ∀ c, c = convertBits .to8 .nopad (ws.map byteOfSym) →
          (c.error = some .nonCanonicalPadding → FailsLosingChk (exec (.segwitDecode m) s) s 6) ∧
          (c.error = none → c.out.length < 2 ∨ 40 < c.out.length ∨ (v = 0 ∧ c.out.length ∉ [20, 32]) →
            FailsLosingChk (exec (.segwitDecode m) s) s 17))))

/-- R174: VERSION changes only in a successful SEGWIT_DECODE. -/
def Obligations.OnlySegwitDecodeSuccessWritesVersion : Prop :=
  ∀ (s t : State) (w : Word), s.inputs = [] → s.pending = some w → step s = .next t → t.version ≠ s.version →
    (w = 0x00000031 ∨ w = 0x00000131) ∧ t.status.err = false

/-- R176: what SEGWIT_ENCODE accepts, XFER and SEGWIT_DECODE in the same mode give back, with its version. -/
def Obligations.SegwitRoundTrip : Prop :=
  ∀ (m : SegwitMode) (s t : State), exec (.segwitEncode m) s = .next t → t.status.err = false →
    ∃ u v, exec .xfer t = .next u ∧ exec (.segwitDecode m) u = .next v ∧ v.status.err = false ∧ v.output = s.input ∧
      v.version = if m = .bare then 0 else s.version

/-! ### TLV (44_tlv.md) -/

/-- R190 to R194: TLV_PARSE of 1 to 16 records back to back, which end the input or are sixteen: each record's type, length and
value offset in the table, the count, and where parsing stopped; later entries, OBUF and all else stay. -/
def Obligations.TlvParseResult : Prop :=
  ∀ (s : State) (rs : List (Byte × Bytes)) (rest : Bytes), s.input = tlvStream rs ++ rest → (∀ r ∈ rs, recordOk r) →
    rs ≠ [] → rs.length ≤ 16 → (rest = [] ∨ rs.length = 16) →
    ∃ t, exec .tlvParse s = .next t ∧
      t = { s with
        tlvCount := BitVec.ofNat 5 rs.length, tlvEnd := BitVec.ofNat 16 (tlvStream rs).length, tlvRec := t.tlvRec
        outLen := 0, pending := none, status := okStatus 0, off := t.off, nrec := t.nrec, pstate := .idle } ∧
      ∀ i : Fin 16, t.tlvRec[i] =
        match rs[i.val]? with
        | some r => ⟨r.1, BitVec.ofNat 8 r.2.length, BitVec.ofNat 16 ((tlvStream (rs.take i)).length + 2)⟩
        | none => s.tlvRec[i]

/-- R192, R193, R273: TLV_PARSE's errors after fewer than 16 good records: a bad type, no length byte, a value past the end;
and the empty stream. TLV_END is the start of the record being read. -/
def Obligations.TlvParseErrors : Prop :=
  ∀ (s : State) (rs : List (Byte × Bytes)) (rest : Bytes), s.input = tlvStream rs ++ rest → (∀ r ∈ rs, recordOk r) →
    rs.length < 16 →
    (rs = [] → rest = [] → FailsParse (exec .tlvParse s) s 9 0) ∧
    (∀ ty more, rest = ty :: more →
      (4 ≤ ty.toNat → FailsParse (exec .tlvParse s) s 7 (tlvStream rs).length) ∧
      (ty.toNat < 4 →
        (more = [] → FailsParse (exec .tlvParse s) s 8 (tlvStream rs).length) ∧
        (∀ l value, more = l :: value → value.length < l.toNat → FailsParse (exec .tlvParse s) s 8 (tlvStream rs).length)))

/-- R196: TLV_FIND, by its word, finds the first of the valid entries with the type, or none; TLV_FOUND, OUT_LEN and STATUS change, nothing
else. -/
def Obligations.TlvFindResult : Prop :=
  ∀ (t : Nat) (s : State), t ≤ 3 → s.tlvCount.toNat ≤ 16 →
    decode (0x00000041 ||| (BitVec.ofNat 32 t <<< 8)) = .ok (.tlvFind t) ∧
    ∃ f : Found, exec (.tlvFind t) s = .next { s with tlvFound := f, outLen := 0, pending := none, status := okStatus 0 } ∧
      (f.found = true → f.index.toNat < s.tlvCount.toNat ∧
        (∃ r, s.tlvRec[f.index.toNat]? = some r ∧ r.type.toNat = t) ∧
        ∀ j r, j < f.index.toNat → s.tlvRec[j]? = some r → r.type.toNat ≠ t) ∧
      (f.found = false → f.index = 0 ∧ ∀ j r, j < s.tlvCount.toNat → s.tlvRec[j]? = some r → r.type.toNat ≠ t)

/-- R197: TLV_ENCODE concatenates type, length and value of the valid entries in table order, whatever their types. -/
def Obligations.TlvEncodeResult : Prop :=
  ∀ (s : State) (out : Bytes),
    out = s.records.flatMap (fun r =>
      r.type :: r.length :: (s.input.drop r.voff.toNat).take r.length.toNat) →
    (∀ r ∈ s.records, r.voff.toNat + r.length.toNat ≤ s.input.length) → out.length ≤ Config.bufBytes →
    ∃ t, exec .tlvEncode s = .next t ∧
      t = { s with outLen := BitVec.ofNat 16 out.length, mem := t.mem, pending := none, status := okStatus 0 } ∧
      Holds .obuf out t ∧ SameBytesBut .obuf out.length s t

/-- R197, R273: TLV_ENCODE's errors, per record in table order: a value past IN_LEN is TruncatedTlv, a stream past BUF_BYTES
LengthExceeded. -/
def Obligations.TlvEncodeErrors : Prop :=
  ∀ (s : State) (pre post : List Record) (r : Record), s.records = pre ++ r :: post →
    (∀ q ∈ pre, q.voff.toNat + q.length.toNat ≤ s.input.length) →
    (pre.map fun q => 2 + q.length.toNat).sum ≤ Config.bufBytes →
    (s.input.length < r.voff.toNat + r.length.toNat → FailsLosingOutput (exec .tlvEncode s) s 8) ∧
    (r.voff.toNat + r.length.toNat ≤ s.input.length →
      Config.bufBytes < (pre.map fun q => 2 + q.length.toNat).sum + 2 + r.length.toNat →
      FailsLosingOutput (exec .tlvEncode s) s 5)

/-- R198: where TLV_ENCODE succeeds on 1 to 16 entries of types 0..3, XFER and TLV_PARSE give back the types, the lengths and
the value bytes in order. -/
def Obligations.ParseAfterEncode : Prop :=
  ∀ s t : State, 1 ≤ s.tlvCount.toNat → s.tlvCount.toNat ≤ 16 → (∀ r ∈ s.records, r.type.toNat < 4) →
    exec .tlvEncode s = .next t → t.status.err = false →
    ∃ u v, exec .xfer t = .next u ∧ exec .tlvParse u = .next v ∧ v.status = okStatus 0 ∧ v.tlvCount = s.tlvCount ∧
      ∀ (j : Fin 16), j.val < s.tlvCount.toNat → v.tlvRec[j].type = s.tlvRec[j].type ∧
        v.tlvRec[j].length = s.tlvRec[j].length ∧
        (v.input.drop v.tlvRec[j].voff.toNat).take v.tlvRec[j].length.toNat =
          (s.input.drop s.tlvRec[j].voff.toNat).take s.tlvRec[j].length.toNat

/-- R39, R192: from any stream the parser is back in IDLE when the command ends, after at most 16 records. -/
def Obligations.ParserEndsIdle : Prop :=
  ∀ s t : State, exec .tlvParse s = .next t → t.pstate = .idle ∧ t.nrec ≤ 16 ∧ t.off.toNat ≤ s.input.length

/-! ### XFER (45_control.md) -/

/-- R222: XFER, by its word, copies OBUF[0 .. OUT_LEN) to IBUF, sets IN_LEN and STATUS, and writes nothing else; a second XFER gives the same
state again. -/
def Obligations.XferResult : Prop :=
  ∀ s : State, s.outLen.toNat ≤ Config.bufBytes →
    decode 0x00000050 = .ok .xfer ∧
    ∃ t, exec .xfer s = .next t ∧
      t = { s with inLen := s.outLen, mem := t.mem, pending := none, status := okStatus 0 } ∧
      (∀ k < s.outLen.toNat, t.mem.read (Buffer.ibuf.base + k) = s.mem.read (Buffer.obuf.base + k)) ∧
      SameBytesBut .ibuf s.outLen.toNat s t ∧ exec .xfer t = .next t

/-! ### What no command can learn (20_memory.md R67) -/

/-- R26, R27, R67, R292: two states that differ only in buffer bytes at or above the length registers give the same registers
and the same valid hrp, input and output after every command. That an unspecified value depends on the draw alone is the model's
form (log entry 2). -/
def Obligations.BytesAboveTheLengthsAreNeverRead : Prop :=
  ∀ (i : Instr) (s : State) (m : Memory), ∀ s' : State, s' = { s with mem := m } →
    s'.hrp = s.hrp → s'.input = s.input → s'.output = s.output →
    ∃ t t', exec i s = .next t ∧ exec i s' = .next t' ∧ t' = { t with mem := t'.mem } ∧
      t'.hrp = t.hrp ∧ t'.input = t.input ∧ t'.output = t.output

/-! ### The host identifier layer (46_host_identifier_layer.md) -/

/-- R238: the four bytes of a kind number, most significant first, give it back. -/
def Obligations.KindNumberRoundTrip : Prop :=
  ∀ k : Word, kindOfBytes (kindBytes k) = k ∧
    (kindBytes k).map (fun b => b.toNat) =
      [k.toNat / 2 ^ 24, k.toNat / 2 ^ 16 % 256, k.toNat / 2 ^ 8 % 256, k.toNat % 256]

/-- R241: an naddr payload without author or kind is MissingField before any access to the block. That it is so for a payload
which is malformed or too long as well is the model's order of R241's checks (log entry 19). -/
def Obligations.MissingFieldBeforeAnyCommand : Prop :=
  ∀ (p : Payload) (s : State), p.kind = .naddr → p.hasAuthor = false ∨ p.hasKind = false →
    (encodeIdentifier p).run.run s = (.error (.error .missingField), s)
end

