-- ==== Sys2Proof/Laws/Memory.lean ====
section
/-! SUPPORT. The laws of the buffers: reading after writing, what a write leaves alone, and that every operation keeps the
canonical form (20_memory.md R60, R61; log entry 1). -/

namespace Sys2Proof.Machine

/-! ### Offsets and buffers -/

theorem bufBytes_eq : Config.bufBytes = 512 := rfl

theorem Buffer.holds_iff (b : Buffer) (a : Nat) :
    b.holds a = true ↔ b.base ≤ a ∧ a < b.base + Config.bufBytes := by
  simp [Buffer.holds]

theorem bufferAt_eq_some (a : Nat) (b : Buffer) : bufferAt a = some b ↔ b.holds a = true := by
  cases b <;> simp only [bufferAt, Buffer.holds_iff, Buffer.base, bufBytes_eq] <;>
    (repeat' split) <;> simp only [Option.some.injEq, reduceCtorEq, true_iff, false_iff] <;> omega

@[simp] theorem bufferAt_base_add (b : Buffer) (k : Nat) (h : k < Config.bufBytes) :
    bufferAt (b.base + k) = some b := by
  rw [bufferAt_eq_some, Buffer.holds_iff]; omega

theorem Buffer.holds_inj {b c : Buffer} {a : Nat} (hb : b.holds a = true) (hc : c.holds a = true) : b = c := by
  rw [← bufferAt_eq_some] at hb hc
  exact Option.some.inj (hb.symm.trans hc)

/-! ### Cells -/

theorem mem_cellsFrom {bs : Bytes} {a : Nat} {c : Host.Cell} (h : c ∈ cellsFrom a bs) :
    a ≤ c.1 ∧ c.1 < a + bs.length := by
  induction bs generalizing a with
  | nil => simp [cellsFrom] at h
  | cons b bs ih =>
    rcases List.mem_cons.1 h with rfl | h
    · simp
    · have := ih h; simp only [List.length_cons]; omega

theorem pairwise_cellsFrom (bs : Bytes) (a : Nat) : (cellsFrom a bs).Pairwise fun c d => c.1 < d.1 := by
  induction bs generalizing a with
  | nil => exact .nil
  | cons b bs ih => exact .cons (fun d hd => by have := mem_cellsFrom hd; simp; omega) (ih _)

theorem lookup_cellsFrom (bs : Bytes) (a x : Nat) :
    (cellsFrom a bs).lookup x = if a ≤ x then bs[x - a]? else none := by
  induction bs generalizing a with
  | nil => simp [cellsFrom]
  | cons b bs ih =>
    rw [cellsFrom, List.lookup_cons, ih]
    by_cases h : x = a
    · simp [h]
    · have hne : (x == a) = false := by simp [h]
      rw [hne]
      by_cases h2 : a ≤ x
      · have h3 : a + 1 ≤ x := by omega
        have h4 : x - a = (x - (a + 1)) + 1 := by omega
        simp [h2, h3, h4]
      · simp [h2, show ¬ a + 1 ≤ x by omega]

theorem lookup_filter_pos (p : Nat → Bool) (cells : List Host.Cell) (x : Nat) (h : p x = true) :
    (cells.filter fun c => p c.1).lookup x = cells.lookup x := by
  induction cells with
  | nil => rfl
  | cons c cells ih =>
    obtain ⟨a, b⟩ := c
    by_cases hx : x = a
    · subst hx; simp [h]
    · have hne : (x == a) = false := by simp [hx]
      by_cases hp : p a = true <;> simp [hp, List.lookup_cons, hne, ih]

theorem lookup_filter_neg (p : Nat → Bool) (cells : List Host.Cell) (x : Nat) (h : p x = false) :
    (cells.filter fun c => p c.1).lookup x = none := by
  induction cells with
  | nil => rfl
  | cons c cells ih =>
    obtain ⟨a, b⟩ := c
    by_cases hp : p a = true
    · have hne : (x == a) = false := by
        rw [beq_eq_false_iff_ne]; rintro rfl; simp [h] at hp
      simp [hp, List.lookup_cons, hne, ih]
    · simp [hp, ih]

theorem lookup_head (c : Host.Cell) (l : List Host.Cell) : (c :: l).lookup c.1 = some c.2 := by
  simp [List.lookup]

theorem lookup_append (l₁ l₂ : List Host.Cell) (x : Nat) :
    (l₁ ++ l₂).lookup x = (l₁.lookup x).or (l₂.lookup x) := by
  induction l₁ with
  | nil => simp
  | cons c l₁ ih =>
    obtain ⟨a, b⟩ := c
    rw [List.cons_append, List.lookup_cons, List.lookup_cons, ih]
    cases x == a <;> rfl

/-! ### One byte after a run of bytes is written -/

theorem Memory.lookup_store (m : Memory) (a : Nat) (bs : Bytes) (x : Nat) :
    (m.store a bs).lookup x = if a ≤ x ∧ x < a + bs.length then bs[x - a]? else m.lookup x := by
  unfold Memory.lookup Memory.store
  simp only [lookup_append, lookup_cellsFrom]
  by_cases h1 : x < a
  · have hp : (fun n : Nat => decide (n < a)) x = true := by simpa using h1
    have hq : (fun n : Nat => decide (a + bs.length ≤ n)) x = false := by simp; omega
    rw [lookup_filter_pos (fun n => decide (n < a)) _ _ hp, lookup_filter_neg (fun n => decide (a + bs.length ≤ n)) _ _ hq]
    simp [show ¬ a ≤ x by omega]
  · have hp : (fun n : Nat => decide (n < a)) x = false := by simp; omega
    rw [lookup_filter_neg (fun n => decide (n < a)) _ _ hp]
    by_cases h2 : x < a + bs.length
    · have hq : (fun n : Nat => decide (a + bs.length ≤ n)) x = false := by simp; omega
      rw [lookup_filter_neg (fun n => decide (a + bs.length ≤ n)) _ _ hq]
      simp [show a ≤ x by omega, h2]
    · have hq : (fun n : Nat => decide (a + bs.length ≤ n)) x = true := by simp; omega
      rw [lookup_filter_pos (fun n => decide (a + bs.length ≤ n)) _ _ hq]
      simp [show a ≤ x by omega, h2, List.getElem?_eq_none (show bs.length ≤ x - a by omega)]

@[simp] theorem Memory.drawOf_store (m : Memory) (a : Nat) (bs : Bytes) (b : Buffer) :
    (m.store a bs).drawOf b = m.drawOf b := by cases b <;> rfl

/-- A write leaves every byte outside its run alone. -/
theorem Memory.read_store_outside (m : Memory) (a : Nat) (bs : Bytes) (x : Nat)
    (h : ¬ (a ≤ x ∧ x < a + bs.length)) : (m.store a bs).read x = m.read x := by
  simp [Memory.read, Memory.lookup_store, h]

/-- A byte of a buffer reads as it was last written. -/
theorem Memory.read_store_inside (m : Memory) (a : Nat) (bs : Bytes) (x : Nat) (hx : (bufferAt x).isSome = true)
    (h1 : a ≤ x) (h2 : x < a + bs.length) : (m.store a bs).read x = bs.getD (x - a) 0 := by
  obtain ⟨b, hb⟩ := Option.isSome_iff_exists.1 hx
  have h3 : x - a < bs.length := by omega
  simp [Memory.read, hb, Memory.lookup_store, h1, h2, List.getElem?_eq_getElem h3]

/-! ### Whole buffers -/

theorem Memory.read_storeBuffer_inside (m : Memory) (b : Buffer) (bs : Bytes) (k : Nat)
    (hk : k < bs.length) (hc : k < Config.bufBytes) : (m.storeBuffer b bs).read (b.base + k) = bs.getD k 0 := by
  rw [Memory.storeBuffer, Memory.read_store_inside]
  · simp [hc]
  · simp [bufferAt_base_add b k hc]
  · omega
  · simp; omega

theorem Memory.read_storeBuffer_outside (m : Memory) (b : Buffer) (bs : Bytes) (x : Nat)
    (h : ¬ (b.base ≤ x ∧ x < b.base + min bs.length Config.bufBytes)) : (m.storeBuffer b bs).read x = m.read x := by
  apply Memory.read_store_outside
  rw [List.length_take, Nat.min_comm]; exact h

@[simp] theorem Memory.length_readBuffer (m : Memory) (b : Buffer) (n : Nat) :
    (m.readBuffer b n).length = min n Config.bufBytes := by
  simp [Memory.readBuffer]

theorem Memory.getD_readBuffer (m : Memory) (b : Buffer) (n k : Nat) (hk : k < n) (hc : k < Config.bufBytes) :
    (m.readBuffer b n).getD k 0 = m.read (b.base + k) := by
  have : k < min n Config.bufBytes := by omega
  simp [Memory.readBuffer, this]

/-- `BUF[0 .. n)` depends on no byte but its own. -/
theorem Memory.readBuffer_congr {m m' : Memory} {b : Buffer} {n : Nat}
    (h : ∀ k < min n Config.bufBytes, m'.read (b.base + k) = m.read (b.base + k)) :
    m'.readBuffer b n = m.readBuffer b n := by
  apply List.map_congr_left
  intro k hk
  exact h k (by simpa using hk)

/-- What a command has just written is what is read back. -/
theorem Memory.readBuffer_storeBuffer (m : Memory) (b : Buffer) (bs : Bytes) (h : bs.length ≤ Config.bufBytes) :
    (m.storeBuffer b bs).readBuffer b bs.length = bs := by
  apply List.ext_getElem
  · simp [h]
  · intro k h1 h2
    have hc : k < Config.bufBytes := by omega
    have e1 := Memory.getD_readBuffer (m.storeBuffer b bs) b bs.length k h2 hc
    rw [Memory.read_storeBuffer_inside m b bs k h2 hc] at e1
    simpa [List.getD_eq_getElem?_getD, List.getElem?_eq_getElem h1, List.getElem?_eq_getElem h2] using e1

/-- Writing one buffer leaves the others alone. -/
theorem Memory.readBuffer_storeBuffer_ne (m : Memory) {b c : Buffer} (h : b ≠ c) (bs : Bytes) (n : Nat) :
    (m.storeBuffer b bs).readBuffer c n = m.readBuffer c n := by
  apply Memory.readBuffer_congr
  intro k hk
  apply Memory.read_storeBuffer_outside
  cases b <;> cases c <;> simp [Buffer.base, bufBytes_eq] at h hk ⊢ <;> omega

/-! ### A buffer that becomes unspecified -/

theorem Memory.lookup_forget (m : Memory) (b : Buffer) (d x : Nat) :
    (m.forget b d).lookup x = if b.holds x then none else m.lookup x := by
  unfold Memory.lookup Memory.forget
  by_cases h : b.holds x = true
  · rw [if_pos h]; exact lookup_filter_neg (fun n => !b.holds n) _ _ (by simp [h])
  · rw [if_neg h]; exact lookup_filter_pos (fun n => !b.holds n) _ _ (by simp [h])

@[simp] theorem Memory.drawOf_forget (m : Memory) (b c : Buffer) (d : Nat) :
    (m.forget b d).drawOf c = if b = c then d else m.drawOf c := by
  cases b <;> cases c <;> rfl

/-- A byte of the buffer that has become unspecified is the free value of its draw; every other byte stays. -/
theorem Memory.read_forget (m : Memory) (b : Buffer) (d x : Nat) :
    (m.forget b d).read x = if b.holds x then Config.freeByte d x else m.read x := by
  unfold Memory.read
  cases hx : bufferAt x with
  | none =>
    have : ¬ b.holds x = true := fun h => by simp [(bufferAt_eq_some x b).2 h] at hx
    simp [this]
  | some c =>
    have hc := (bufferAt_eq_some x c).1 hx
    by_cases h : b.holds x = true
    · obtain rfl := Buffer.holds_inj h hc
      simp [Memory.lookup_forget, h]
    · have hne : b ≠ c := fun e => h (e ▸ hc)
      simp [Memory.lookup_forget, h, hne]

theorem Memory.read_storeBuffer_other (m : Memory) (b : Buffer) (bs : Bytes) {x : Nat} (h : b.holds x = false) :
    (m.storeBuffer b bs).read x = m.read x := by
  apply Memory.read_storeBuffer_outside
  intro hx
  rw [← Bool.not_eq_true, Buffer.holds_iff] at h
  omega

theorem Memory.read_forget_other (m : Memory) (b : Buffer) (d : Nat) {x : Nat} (h : b.holds x = false) :
    (m.forget b d).read x = m.read x := by simp [Memory.read_forget, h]

theorem holds_of_bufferAt_eq_none {x : Nat} (h : bufferAt x = none) (b : Buffer) : b.holds x = false := by
  rw [← Bool.not_eq_true]
  intro hb
  rw [(bufferAt_eq_some x b).2 hb] at h; cases h

theorem holds_base_add_ne {b c : Buffer} (hne : b ≠ c) {k : Nat} (h : k < Config.bufBytes) : b.holds (c.base + k) = false := by
  rw [← Bool.not_eq_true]
  intro hb
  have hc := bufferAt_base_add c k h
  rw [(bufferAt_eq_some _ b).2 hb] at hc
  exact hne (Option.some.inj hc)

/-! ### The canonical form -/

/-- Equal contents in canonical form are equal data. -/
theorem Memory.cells_ext {l l' : List Host.Cell} (h : l.Pairwise fun c d => c.1 < d.1)
    (h' : l'.Pairwise fun c d => c.1 < d.1) (e : ∀ x, l.lookup x = l'.lookup x) : l = l' := by
  have head {l : List Host.Cell} {a : Nat} (hl : ∀ d ∈ l, a < d.1) : l.lookup a = none := by
    induction l with
    | nil => rfl
    | cons c l ih =>
      have := hl c (by simp)
      rw [List.lookup_cons, show (a == c.1) = false by simp; omega]
      exact ih fun d hd => hl d (by simp [hd])
  induction l generalizing l' with
  | nil =>
    cases l' with
    | nil => rfl
    | cons c l' => have := e c.1; simp [lookup_head] at this
  | cons c l ih =>
    cases l' with
    | nil => have := e c.1; simp [lookup_head] at this
    | cons c' l' =>
      obtain ⟨h1, h2⟩ := List.pairwise_cons.1 h
      obtain ⟨h1', h2'⟩ := List.pairwise_cons.1 h'
      have hk : c.1 = c'.1 := by
        rcases Nat.lt_trichotomy c.1 c'.1 with hlt | heq | hgt
        · have := e c.1
          rw [lookup_head, List.lookup_cons, show (c.1 == c'.1) = false by simp; omega,
            head fun d hd => lt_trans hlt (h1' d hd)] at this
          simp at this
        · exact heq
        · have := e c'.1
          rw [lookup_head, List.lookup_cons, show (c'.1 == c.1) = false by simp; omega,
            head fun d hd => lt_trans hgt (h1 d hd)] at this
          simp at this
      have hv : c.2 = c'.2 := by
        have := e c.1
        rw [lookup_head, hk, lookup_head] at this
        exact Option.some.inj this
      have hc : c = c' := Prod.ext hk hv
      subst hc
      rw [ih h2 h2' fun x => ?_]
      by_cases hx : x = c.1
      · subst hx; rw [head h1, head h1']
      · have := e x
        rwa [List.lookup_cons, List.lookup_cons, show (x == c.1) = false by simp [hx]] at this

theorem Memory.wf_store {m : Memory} (hm : m.wf) {a : Nat} {bs : Bytes}
    (h : ∀ k < bs.length, (bufferAt (a + k)).isSome = true) : (m.store a bs).wf := by
  constructor
  · simp only [Memory.store, List.pairwise_append, List.mem_append, List.mem_filter, decide_eq_true_eq]
    refine ⟨⟨hm.1.filter _, pairwise_cellsFrom bs a, ?_⟩, hm.1.filter _, ?_⟩
    · intro c hc d hd; have := mem_cellsFrom hd; omega
    · rintro c (hc | hc) d hd
      · omega
      · have := mem_cellsFrom hc; omega
  · intro c hc
    simp only [Memory.store, List.mem_append, List.mem_filter] at hc
    rcases hc with (hc | hc) | hc
    · exact hm.2 c hc.1
    · have h1 := mem_cellsFrom hc
      have h2 := h (c.1 - a) (by omega)
      rwa [show a + (c.1 - a) = c.1 by omega] at h2
    · exact hm.2 c hc.1

theorem Memory.wf_storeByte {m : Memory} (hm : m.wf) (a : Nat) (b : Byte) : (m.storeByte a b).wf := by
  unfold Memory.storeByte
  split
  · apply Memory.wf_store hm
    intro k hk
    obtain rfl : k = 0 := by simpa using hk
    assumption
  · exact hm

theorem Memory.wf_storeBuffer {m : Memory} (hm : m.wf) (b : Buffer) (bs : Bytes) : (m.storeBuffer b bs).wf := by
  apply Memory.wf_store hm
  intro k hk
  have : k < Config.bufBytes := by simp at hk; omega
  simp [bufferAt_base_add b k this]

theorem Memory.wf_forget {m : Memory} (hm : m.wf) (b : Buffer) (d : Nat) : (m.forget b d).wf :=
  ⟨hm.1.filter _, fun c hc => hm.2 c (List.mem_of_mem_filter hc)⟩

end Sys2Proof.Machine
end

