-- ==== Sys2Proof/Laws/Bus.lean ====
section
/-! SUPPORT. The host's accesses: which are admitted (R62), where the registers stand (R23), and what a bus write to a buffer leaves
to read (20_memory.md R61, R63). -/

namespace Sys2Proof.Machine

theorem admitted_iff (o n : Nat) :
    admitted o n = true ↔ (n = 4 ∧ o % 4 = 0 ∧ o < 0x4000) ∨ (n = 1 ∧ 0x1000 ≤ o ∧ o < 0x4000) := by
  simp only [admitted, Bool.and_eq_true, Bool.or_eq_true, decide_eq_true_eq, beq_iff_eq]
  rw [show blockSize = 0x4000 from rfl, show windowSize = 0x1000 from rfl]
  omega

/-! ### The register map (R23) -/

theorem regAt_offset (r : Reg) : regAt r.offset = some r := by
  cases r with
  | tlvRec i => fin_cases i <;> rfl
  | _ => rfl

theorem regAt_of_ge {o : Nat} (h : 0x080 ≤ o) : regAt o = none := by
  rw [regAt]
  iterate 12 rw [if_neg (by omega)]

theorem offset_of_regAt {o : Nat} {r : Reg} (h : regAt o = some r) : o = r.offset := by
  by_cases ho : o < 0x080
  · have key : ∀ p : Fin 0x080, (regAt p.val).all (fun r => r.offset == p.val) = true := by decide
    have := key ⟨o, ho⟩
    simp only [h, Option.all_some, beq_iff_eq] at this
    exact this.symm
  · rw [regAt_of_ge (by omega)] at h; cases h

theorem Reg.offset_lt (r : Reg) : r.offset < 0x080 ∧ r.offset % 4 = 0 := by
  cases r with
  | tlvRec i => simp only [Reg.offset]; omega
  | _ => decide

theorem Reg.offset_inj {r q : Reg} (h : r.offset = q.offset) : r = q := by
  have h1 := regAt_offset r
  rw [h, regAt_offset q] at h1
  exact (Option.some.inj h1).symm

theorem regAt_eq_none {o : Nat} (h : (0x02C ≤ o ∧ o < 0x040) ∨ 0x080 ≤ o) : regAt o = none := by
  cases hr : regAt o with
  | none => rfl
  | some r =>
    have ho := offset_of_regAt hr
    cases r with
    | tlvRec i => simp only [Reg.offset] at ho; omega
    | _ => simp only [Reg.offset] at ho; omega

/-- A host read at a register's offset (R63, R68). -/
theorem readValue_offset (r : Reg) (s : State) :
    readValue r.offset 4 s =
      if s.status.busy && r != .cmd && r != .status then Config.freeWord s.drawn else r.value s := by
  have h := r.offset_lt
  rw [readValue, if_pos (by rw [show windowSize = 0x1000 from rfl]; omega), registerRead, regAt_offset]

/-- A host write of a register while BUSY = 0 (R63). -/
theorem busWrite_offset (r : Reg) (v : Word) (s : State) (h : s.status.busy = false) :
    busWrite r.offset 4 v s = .next (r.write v s) := by
  have ho := r.offset_lt
  rw [busWrite, if_pos ((admitted_iff _ _).2 (by omega)), if_neg (by simp [h]), writeValue,
    if_pos (by rw [show windowSize = 0x1000 from rfl]; omega), regAt_offset]

/-! ### Buffer bytes (R61, R63) -/

theorem Memory.read_of_none (m : Memory) {a : Nat} (h : bufferAt a = none) : m.read a = 0 := by simp [Memory.read, h]

theorem bufferAt_reserved {a : Nat} (h : a < 0x1000 ∨ (0x1200 ≤ a ∧ a < 0x2000) ∨ (0x2200 ≤ a ∧ a < 0x3000) ∨ 0x3200 ≤ a) :
    bufferAt a = none := by
  cases hb : bufferAt a with
  | none => rfl
  | some b =>
    have := (Buffer.holds_iff b a).1 ((bufferAt_eq_some a b).1 hb)
    rw [bufBytes_eq] at this
    cases b <;> simp only [Buffer.base] at this <;> omega

theorem Memory.storeByte_of_none (m : Memory) {a : Nat} (b : Byte) (h : bufferAt a = none) : m.storeByte a b = m := by
  simp [Memory.storeByte, h]

theorem Memory.read_storeByte (m : Memory) (a x : Nat) (b : Byte) :
    (m.storeByte a b).read x = if x = a ∧ (bufferAt a).isSome = true then b else m.read x := by
  by_cases h : (bufferAt a).isSome = true
  · simp only [Memory.storeByte, h, if_true, and_true]
    by_cases hx : x = a
    · subst hx
      simpa using Memory.read_store_inside m x [b] x h (by simp) (by simp)
    · rw [if_neg hx]
      exact Memory.read_store_outside m a [b] x (by simp; omega)
  · simp [Memory.storeByte, h]

/-- A four-byte write inside one buffer, byte by byte. -/
theorem read_bufferWrite4 (m : Memory) (o x : Nat) (v : Word) (h : ∀ j < 4, (bufferAt (o + j)).isSome = true) :
    (bufferWrite o 4 v m).read x =
      if x = o then v.extractLsb' 0 8 else if x = o + 1 then v.extractLsb' 8 8
      else if x = o + 2 then v.extractLsb' 16 8 else if x = o + 3 then v.extractLsb' 24 8 else m.read x := by
  have h0 := h 0 (by omega)
  have h1 := h 1 (by omega)
  have h2 := h 2 (by omega)
  have h3 := h 3 (by omega)
  rw [Nat.add_zero] at h0
  rw [bufferWrite, if_neg (by omega)]
  rw [Memory.read_storeByte, Memory.read_storeByte, Memory.read_storeByte, Memory.read_storeByte]
  rw [h0, h1, h2, h3]
  simp only [and_true]
  repeat' split
  all_goals first | rfl | omega

theorem Memory.wf_bufferWrite {m : Memory} (hm : m.wf) (o n : Nat) (v : Word) : (bufferWrite o n v m).wf := by
  unfold bufferWrite
  split
  · exact Memory.wf_storeByte hm _ _
  · exact Memory.wf_storeByte (Memory.wf_storeByte (Memory.wf_storeByte (Memory.wf_storeByte hm _ _) _ _) _ _) _ _

@[simp] theorem Memory.drawOf_storeByte (m : Memory) (a : Nat) (v : Byte) (b : Buffer) :
    (m.storeByte a v).drawOf b = m.drawOf b := by
  unfold Memory.storeByte
  split
  · simp
  · rfl

@[simp] theorem Memory.drawOf_bufferWrite (m : Memory) (o n : Nat) (v : Word) (b : Buffer) :
    (bufferWrite o n v m).drawOf b = m.drawOf b := by
  unfold bufferWrite
  split <;> simp

end Sys2Proof.Machine
end

