-- ==== Sys2Proof/Laws/Converter.lean ====
section
/-! SUPPORT. The converter as a cut of a bit stream (42_convert.md R151, 20_memory.md R65): what each loop keeps, and what a whole
conversion gives. -/

namespace Sys2Proof.Machine

open Sys2Proof.Claims

theorem outBits_pos (d : Direction) : 0 < outBits d := by cases d <;> decide

theorem inBits_add_outBits (d : Direction) : inBits d + outBits d = 13 := by cases d <;> rfl

/-! ### Bit streams -/

/-- The `n` low bits of ACC, most significant first. -/
def lowBits (n : Nat) (acc : Half) : List Bool := (List.range n).map fun i => acc.getLsbD (n - 1 - i)

@[simp] theorem length_lowBits (n : Nat) (acc : Half) : (lowBits n acc).length = n := by simp [lowBits]

@[simp] theorem lowBits_zero (acc : Half) : lowBits 0 acc = [] := rfl

@[simp] theorem length_bitsOf (w : Nat) (x : Byte) : (bitsOf w x).length = w := by simp [bitsOf]

@[simp] theorem stream_nil (w : Nat) : stream w [] = [] := rfl

@[simp] theorem stream_append (w : Nat) (xs ys : Bytes) : stream w (xs ++ ys) = stream w xs ++ stream w ys := by
  simp [stream]

@[simp] theorem stream_singleton (w : Nat) (x : Byte) : stream w [x] = bitsOf w x := by simp [stream]

@[simp] theorem length_stream (w : Nat) (xs : Bytes) : (stream w xs).length = xs.length * w := by
  induction xs with
  | nil => simp
  | cons x xs ih =>
    rw [← List.singleton_append, stream_append, List.length_append, ih, stream_singleton, length_bitsOf,
      List.length_append, List.length_singleton]
    ring

/-- A word whose high bits are zero is determined by its low bits. -/
theorem bitsOf_inj {w : Nat} {x y : Byte} (hx : x.toNat < 2 ^ w) (hy : y.toNat < 2 ^ w)
    (h : bitsOf w x = bitsOf w y) : x = y := by
  apply BitVec.eq_of_getLsbD_eq
  intro i _
  by_cases hi : i < w
  · have e := congrArg (fun l => l[w - 1 - i]?) h
    simp only [bitsOf, List.getElem?_map, List.getElem?_range (show w - 1 - i < w by omega), Option.map_some,
      show w - 1 - (w - 1 - i) = i by omega] at e
    exact Option.some.inj e
  · have hw : 2 ^ w ≤ 2 ^ i := Nat.pow_le_pow_right (by decide) (by omega)
    simp only [BitVec.getLsbD]
    rw [Nat.testBit_lt_two_pow (lt_of_lt_of_le hx hw), Nat.testBit_lt_two_pow (lt_of_lt_of_le hy hw)]

/-- Words below 2^w are determined by their bit stream. -/
theorem stream_inj {w : Nat} (hw : 0 < w) {xs ys : Bytes} (hx : ∀ x ∈ xs, x.toNat < 2 ^ w)
    (hy : ∀ y ∈ ys, y.toNat < 2 ^ w) (h : stream w xs = stream w ys) : xs = ys := by
  induction xs generalizing ys with
  | nil =>
    have := congrArg List.length h
    rw [length_stream, length_stream] at this
    cases ys with
    | nil => rfl
    | cons y ys => simp at this; omega
  | cons x xs ih =>
    cases ys with
    | nil =>
      have := congrArg List.length h
      rw [length_stream, length_stream] at this
      simp at this; omega
    | cons y ys =>
      rw [← List.singleton_append, ← List.singleton_append (l := ys), stream_append, stream_append, stream_singleton,
        stream_singleton] at h
      obtain ⟨h1, h2⟩ := List.append_inj h (by simp)
      rw [bitsOf_inj (hx x (by simp)) (hy y (by simp)) h1,
        ih (fun z hz => hx z (by simp [hz])) (fun z hz => hy z (by simp [hz])) h2]

/-! ### The inner loop -/

/-- The word R151 cuts from the front of the `n + outBits` bits ACC holds. -/
def cut (d : Direction) (acc : Half) (n : Nat) : Byte := (acc >>> n).setWidth 8 &&& outMask d

theorem getLsbD_outMask (d : Direction) (i : Nat) : (outMask d).getLsbD i = decide (i < outBits d) := by
  by_cases h : i < 8
  · interval_cases i <;> cases d <;> rfl
  · have : ¬ i < outBits d := by cases d <;> simp [outBits] <;> omega
    rw [BitVec.getLsbD_of_ge (outMask d) i (by omega)]; simp [this]

theorem getLsbD_cut (d : Direction) (acc : Half) (n i : Nat) (h : i < outBits d) :
    (cut d acc n).getLsbD i = acc.getLsbD (n + i) := by
  have h8 : i < 8 := by cases d <;> simp [outBits] at h <;> omega
  simp [cut, getLsbD_outMask, h, h8]

theorem cut_lt (d : Direction) (acc : Half) (n : Nat) : (cut d acc n).toNat < 2 ^ outBits d := by
  have h : (cut d acc n).toNat ≤ (outMask d).toNat := by
    rw [cut, BitVec.toNat_and]; exact Nat.and_le_right
  cases d <;> simp [outMask, outBits] at h ⊢ <;> omega

theorem lowBits_cut (d : Direction) (acc : Half) (n : Nat) :
    lowBits (n + outBits d) acc = bitsOf (outBits d) (cut d acc n) ++ lowBits n acc := by
  rw [lowBits, Nat.add_comm, List.range_add, List.map_append, List.map_map]
  congr 1
  · apply List.map_congr_left
    intro i hi
    have hi := List.mem_range.1 hi
    rw [getLsbD_cut d acc n _ (by omega)]
    congr 1; omega
  · apply List.map_congr_left
    intro i hi
    have hi := List.mem_range.1 hi
    simp only [Function.comp]
    congr 1; omega

/-- What a conversion without an error has done with `n` input bits: ACC's low BITS bits and the output are `bits`. -/
structure Conversion.Holds (d : Direction) (bits : List Bool) (c : Conversion) : Prop where
  noError : c.error = none
  stream_eq : bits = stream (outBits d) c.out ++ lowBits c.bits c.acc
  words_lt : ∀ w ∈ c.out, w.toNat < 2 ^ outBits d
  length_le : c.out.length ≤ Config.bufBytes

theorem Conversion.emit_holds {d : Direction} {bits : List Bool} {c : Conversion} (n : Nat)
    (h : c.Holds d bits) (hb : c.bits = n + outBits d) (hl : c.out.length < Config.bufBytes) :
    Conversion.Holds d bits ({ c with bits := n }.emit (cut d c.acc n)) := by
  have hne : ¬ c.out.length = Config.bufBytes := by omega
  have he : { c with bits := n }.emit (cut d c.acc n) = ⟨c.acc, n, c.out ++ [cut d c.acc n], c.error⟩ := by
    simp [Conversion.emit, hne]
  rw [he]
  refine ⟨h.noError, ?_, ?_, ?_⟩
  · have h1 := h.stream_eq
    rw [hb, lowBits_cut] at h1
    simp only [h1, stream_append, stream_singleton, List.append_assoc]
  · intro w hw
    rcases List.mem_append.1 hw with hw | hw
    · exact h.words_lt w hw
    · rw [List.mem_singleton.1 hw]; exact cut_lt d c.acc n
  · simp only [List.length_append, List.length_singleton]; omega

/-- R151's inner loop: it emits a word for every whole group of bits, or finds that the output would pass BUF_BYTES. -/
theorem Conversion.drain_spec (d : Direction) (bits : List Bool) (n : Nat) (c : Conversion) (h : c.Holds d bits)
    (hn : c.bits < outBits d * (n + 1)) :
    (c.out.length + c.bits / outBits d ≤ Config.bufBytes →
      (Conversion.drain d n c).Holds d bits ∧ (Conversion.drain d n c).bits = c.bits % outBits d) ∧
    (Config.bufBytes < c.out.length + c.bits / outBits d →
      (Conversion.drain d n c).error = some .lengthExceeded ∧ (Conversion.drain d n c).bits ≤ c.bits) := by
  have hpos := outBits_pos d
  induction n generalizing c with
  | zero =>
    have h1 : c.bits < outBits d := by simpa using hn
    have h2 := h.length_le
    simp only [Conversion.drain, Nat.div_eq_of_lt h1, Nat.mod_eq_of_lt h1]
    exact ⟨fun _ => ⟨h, trivial⟩, fun h3 => absurd h3 (by omega)⟩
  | succ n ih =>
    have h2 := h.length_le
    by_cases hb : outBits d ≤ c.bits
    · have hd : c.bits / outBits d = (c.bits - outBits d) / outBits d + 1 := by
        rw [Nat.div_eq_sub_div hpos hb]
      have hm : c.bits % outBits d = (c.bits - outBits d) % outBits d := Nat.mod_eq_sub_mod hb
      have hs : Conversion.drain d (n + 1) c =
          Conversion.drain d n ({ c with bits := c.bits - outBits d }.emit (cut d c.acc (c.bits - outBits d))) := by
        rw [Conversion.drain, h.noError]
        simp [hb, cut]
      rw [hs]
      by_cases hl : c.out.length < Config.bufBytes
      · have h3 := Conversion.emit_holds (c.bits - outBits d) h (by omega) hl
        have hne : ¬ c.out.length = Config.bufBytes := by omega
        have hbits : ({ c with bits := c.bits - outBits d }.emit (cut d c.acc (c.bits - outBits d))).bits =
            c.bits - outBits d := by simp [Conversion.emit, hne]
        have hout : ({ c with bits := c.bits - outBits d }.emit (cut d c.acc (c.bits - outBits d))).out.length =
            c.out.length + 1 := by simp [Conversion.emit, hne]
        have h4 := ih _ h3 (by rw [hbits]; rw [Nat.mul_add] at hn; omega)
        rw [hbits, hout] at h4
        rw [hd, hm]
        exact ⟨fun h5 => h4.1 (by omega), fun h5 => ⟨(h4.2 (by omega)).1, by have := (h4.2 (by omega)).2; omega⟩⟩
      · have hfull : c.out.length = Config.bufBytes := by omega
        have he : { c with bits := c.bits - outBits d }.emit (cut d c.acc (c.bits - outBits d)) =
            ⟨c.acc, c.bits - outBits d, c.out, some .lengthExceeded⟩ := by simp [Conversion.emit, hfull]
        have hx : Conversion.drain d n ⟨c.acc, c.bits - outBits d, c.out, some .lengthExceeded⟩ =
            ⟨c.acc, c.bits - outBits d, c.out, some .lengthExceeded⟩ := by
          cases n <;> simp [Conversion.drain]
        rw [he, hx, hd]
        generalize (c.bits - outBits d) / outBits d = g
        exact ⟨fun h5 => absurd h5 (by omega), fun _ => ⟨rfl, by simp⟩⟩
    · have h1 : c.bits < outBits d := by omega
      have hs : Conversion.drain d (n + 1) c = c := by
        rw [Conversion.drain, h.noError]
        simp [hb]
      rw [hs, Nat.div_eq_of_lt h1, Nat.mod_eq_of_lt h1]
      exact ⟨fun _ => ⟨h, rfl⟩, fun h3 => absurd h3 (by omega)⟩

/-! ### The outer loop -/

/-- A word the converter accepts: it fits the input width (R151). -/
def Accepts (d : Direction) (x : Byte) : Prop := x.toNat < 2 ^ inBits d

theorem accepts_iff (d : Direction) (x : Byte) : Accepts d x ↔ x >>> inBits d = 0 := by
  rw [Accepts, ← BitVec.toNat_inj, BitVec.toNat_ushiftRight, Nat.shiftRight_eq_div_pow]
  simp [Nat.div_eq_zero_iff]

/-- Appending one input word to the low bits of ACC. -/
theorem lowBits_absorb (d : Direction) (acc : Half) (n : Nat) (x : Byte) (hx : Accepts d x) (hn : n + inBits d ≤ 16) :
    lowBits (n + inBits d) ((acc <<< inBits d) ||| x.setWidth 16) = lowBits n acc ++ bitsOf (inBits d) x := by
  have hd : inBits d ≤ 8 := by cases d <;> decide
  rw [lowBits, List.range_add, List.map_append, List.map_map]
  congr 1
  · apply List.map_congr_left
    intro i hi
    have hi := List.mem_range.1 hi
    have h1 : n + inBits d - 1 - i < 16 := by omega
    have h2 : inBits d ≤ n + inBits d - 1 - i := by omega
    have h3 : x.getLsbD (n + inBits d - 1 - i) = false := by
      simp only [BitVec.getLsbD]
      exact Nat.testBit_lt_two_pow (lt_of_lt_of_le hx (Nat.pow_le_pow_right (by decide) h2))
    have h4 : n + inBits d - 1 - i - inBits d = n - 1 - i := by omega
    have h5 : ¬ n + inBits d - 1 - i < inBits d := by omega
    simp only [BitVec.getLsbD_or, BitVec.getLsbD_shiftLeft, BitVec.getLsbD_setWidth, h1, h3, h4, h5]
    simp
  · apply List.map_congr_left
    intro i hi
    have hi := List.mem_range.1 hi
    have h1 : n + inBits d - 1 - (n + i) < 16 := by omega
    have h2 : n + inBits d - 1 - (n + i) < inBits d := by omega
    have h4 : n + inBits d - 1 - (n + i) = inBits d - 1 - i := by omega
    simp only [Function.comp, BitVec.getLsbD_or, BitVec.getLsbD_shiftLeft, BitVec.getLsbD_setWidth, h4]
    simp only [h4] at h1 h2
    simp [h1, h2]

/-- An error met while streaming ends the conversion. -/
theorem Conversion.absorb_error (d : Direction) (c : Conversion) (x : Byte) (h : c.error ≠ none) : c.absorb d x = c := by
  cases he : c.error with
  | none => exact absurd he h
  | some e => simp [Conversion.absorb, he]

theorem Conversion.foldl_error (d : Direction) (xs : Bytes) (c : Conversion) (h : c.error ≠ none) :
    xs.foldl (Conversion.absorb d) c = c := by
  induction xs with
  | nil => rfl
  | cons x xs ih => rw [List.foldl_cons, Conversion.absorb_error d c x h, ih]

/-- R151's outer loop over accepted words, as long as the output fits BUF_BYTES, and what ends it when it does not. -/
theorem Conversion.foldl_spec (d : Direction) (xs : Bytes) (hx : ∀ x ∈ xs, Accepts d x) :
    (xs.length * inBits d / outBits d ≤ Config.bufBytes →
      (xs.foldl (Conversion.absorb d) Conversion.start).Holds d (stream (inBits d) xs) ∧
      (xs.foldl (Conversion.absorb d) Conversion.start).bits = xs.length * inBits d % outBits d) ∧
    (Config.bufBytes < xs.length * inBits d / outBits d →
      (xs.foldl (Conversion.absorb d) Conversion.start).error = some .lengthExceeded ∧
      (xs.foldl (Conversion.absorb d) Conversion.start).bits ≤ 15) := by
  have hpos := outBits_pos d
  have h13 := inBits_add_outBits d
  induction xs using List.reverseRecOn with
  | nil =>
    refine ⟨fun _ => ⟨⟨rfl, rfl, by simp [Conversion.start], by simp [Conversion.start]⟩, by simp [Conversion.start]⟩, ?_⟩
    intro h; simp at h
  | append_singleton xs x ih =>
    have ih := ih fun y hy => hx y (by simp [hy])
    have hxa : Accepts d x := hx x (by simp)
    rw [List.foldl_append, List.foldl_cons, List.foldl_nil]
    generalize hc : xs.foldl (Conversion.absorb d) Conversion.start = c at ih
    have hlen : (xs ++ [x]).length * inBits d = xs.length * inBits d + inBits d := by
      simp [Nat.add_mul]
    rw [hlen]
    by_cases hfit : xs.length * inBits d / outBits d ≤ Config.bufBytes
    · obtain ⟨h1, h2⟩ := ih.1 hfit
      have hb : c.bits < outBits d := h2 ▸ Nat.mod_lt _ hpos
      have hs : c.absorb d x = Conversion.drain d 15
          { c with acc := (c.acc <<< inBits d) ||| x.setWidth 16, bits := c.bits + inBits d } := by
        simp [Conversion.absorb, h1.noError, (accepts_iff d x).1 hxa]
      have h3 : Conversion.Holds d (stream (inBits d) (xs ++ [x]))
          { c with acc := (c.acc <<< inBits d) ||| x.setWidth 16, bits := c.bits + inBits d } := by
        refine ⟨h1.noError, ?_, h1.words_lt, h1.length_le⟩
        rw [stream_append, stream_singleton, h1.stream_eq, List.append_assoc,
          lowBits_absorb d c.acc c.bits x hxa (by omega)]
      have h15 : c.bits + inBits d < outBits d * (15 + 1) := by
        have : 1 ≤ outBits d := hpos
        nlinarith
      have h4 := Conversion.drain_spec d _ 15 _ h3 h15
      have hcount : c.out.length * outBits d + c.bits = xs.length * inBits d := by
        have := congrArg List.length h1.stream_eq
        simpa using this.symm
      have hdiv : (xs.length * inBits d + inBits d) / outBits d = c.out.length + (c.bits + inBits d) / outBits d := by
        rw [← hcount, Nat.add_assoc, Nat.mul_comm, Nat.mul_add_div hpos]
      have hmod : (xs.length * inBits d + inBits d) % outBits d = (c.bits + inBits d) % outBits d := by
        rw [← hcount, Nat.add_assoc, Nat.mul_comm, Nat.mul_add_mod]
      rw [hs, hdiv, hmod]
      exact ⟨h4.1, fun h => ⟨(h4.2 h).1, by have := (h4.2 h).2; simp only at this; omega⟩⟩
    · have h1 := ih.2 (by omega)
      rw [Conversion.absorb_error d c x (by simp [h1.1])]
      have hmono : xs.length * inBits d / outBits d ≤ (xs.length * inBits d + inBits d) / outBits d :=
        Nat.div_le_div_right (by omega)
      exact ⟨fun h => absurd h (by omega), fun _ => h1⟩

/-! ### The end of a conversion -/

theorem getLsbD_leftover (d : Direction) (c : Conversion) (i : Nat) (h : i < outBits d) :
    (c.leftover d).getLsbD i = (decide (outBits d - c.bits ≤ i) && c.acc.getLsbD (i - (outBits d - c.bits))) := by
  have h8 : i < 8 := by cases d <;> simp [outBits] at h <;> omega
  have h16 : i < 16 := by omega
  simp only [Conversion.leftover, BitVec.getLsbD_and, BitVec.getLsbD_setWidth, BitVec.getLsbD_shiftLeft,
    getLsbD_outMask, h, h8, h16]
  by_cases h1 : outBits d - c.bits ≤ i
  · simp [h1, Nat.not_lt.2 h1]
  · simp [h1, Nat.lt_of_not_le h1]

theorem leftover_lt (d : Direction) (c : Conversion) : (c.leftover d).toNat < 2 ^ outBits d := by
  have h : (c.leftover d).toNat ≤ (outMask d).toNat := by
    rw [Conversion.leftover, BitVec.toNat_and]; exact Nat.and_le_right
  cases d <;> simp [outMask, outBits] at h ⊢ <;> omega

/-- The leftover bits stand at the top of the padded word, zeros below (R152). -/
theorem bitsOf_leftover (d : Direction) (c : Conversion) (h : c.bits ≤ outBits d) :
    bitsOf (outBits d) (c.leftover d) = lowBits c.bits c.acc ++ List.replicate (outBits d - c.bits) false := by
  have hs : outBits d = c.bits + (outBits d - c.bits) := by omega
  conv_lhs => rw [bitsOf]
  rw [show List.range (outBits d) = List.range (c.bits + (outBits d - c.bits)) by rw [← hs], List.range_add,
    List.map_append, List.map_map]
  congr 1
  · apply List.map_congr_left
    intro i hi
    have hi := List.mem_range.1 hi
    rw [getLsbD_leftover d c _ (by omega)]
    rw [show outBits d - 1 - i - (outBits d - c.bits) = c.bits - 1 - i by omega]
    simp [show outBits d - c.bits ≤ outBits d - 1 - i by omega]
  · rw [List.eq_replicate_iff]
    refine ⟨by simp, fun b hb => ?_⟩
    obtain ⟨i, hi, rfl⟩ := List.mem_map.1 hb
    have hi := List.mem_range.1 hi
    simp only [Function.comp]
    rw [getLsbD_leftover d c _ (by omega)]
    simp [show ¬ outBits d - c.bits ≤ outBits d - 1 - (c.bits + i) by omega]

/-- The leftover check of R151 finds exactly a leftover bit that is set. -/
theorem leftover_eq_zero (d : Direction) (c : Conversion) (h : c.bits ≤ outBits d) :
    c.leftover d = 0 ↔ lowBits c.bits c.acc = List.replicate c.bits false := by
  have h0 : bitsOf (outBits d) (0 : Byte) = List.replicate (outBits d) false := by
    rw [List.eq_replicate_iff]; simp [bitsOf]
  have hs : List.replicate (outBits d) false =
      List.replicate c.bits false ++ List.replicate (outBits d - c.bits) false := by
    rw [List.replicate_append_replicate]; congr 1; omega
  constructor
  · intro he
    have h1 := bitsOf_leftover d c h
    rw [he, h0, hs] at h1
    exact (List.append_inj h1 (by simp)).1.symm
  · intro he
    apply bitsOf_inj (w := outBits d) (leftover_lt d c) (by simp)
    rw [bitsOf_leftover d c h, he, h0, hs]

/-- A conversion with padding whose output fits BUF_BYTES: the input's bit stream, filled with zeros to a whole word. -/
theorem convertBits_pad (d : Direction) (xs : Bytes) (hx : ∀ x ∈ xs, Accepts d x)
    (hfit : (xs.length * inBits d + outBits d - 1) / outBits d ≤ Config.bufBytes) :
    let c := convertBits d .pad xs
    c.error = none ∧ c.out.length = (xs.length * inBits d + outBits d - 1) / outBits d ∧
      (∀ w ∈ c.out, w.toNat < 2 ^ outBits d) ∧
      stream (outBits d) c.out =
        stream (inBits d) xs ++ List.replicate (c.out.length * outBits d - xs.length * inBits d) false := by
  have hpos := outBits_pos d
  have hfloor : xs.length * inBits d / outBits d ≤ Config.bufBytes :=
    le_trans (Nat.div_le_div_right (by omega)) hfit
  obtain ⟨h1, h2⟩ := (Conversion.foldl_spec d xs hx).1 hfloor
  simp only [convertBits]
  generalize xs.foldl (Conversion.absorb d) Conversion.start = c at h1 h2
  have hcount : c.out.length * outBits d + c.bits = xs.length * inBits d := by
    simpa using (congrArg List.length h1.stream_eq).symm
  have hlt : c.bits < outBits d := h2 ▸ Nat.mod_lt _ hpos
  have hceil : (xs.length * inBits d + outBits d - 1) / outBits d = c.out.length + if 0 < c.bits then 1 else 0 := by
    rw [← hcount]
    split
    · rw [show c.out.length * outBits d + c.bits + outBits d - 1 = outBits d * (c.out.length + 1) + (c.bits - 1) by
        rw [Nat.mul_add, Nat.mul_comm]; omega, Nat.mul_add_div hpos, Nat.div_eq_of_lt (show c.bits - 1 < outBits d by omega)]
    · rw [show c.out.length * outBits d + c.bits + outBits d - 1 = outBits d * c.out.length + (outBits d - 1) by
        rw [Nat.mul_comm]; omega, Nat.mul_add_div hpos, Nat.div_eq_of_lt (show outBits d - 1 < outBits d by omega)]
  rw [hceil] at hfit ⊢
  by_cases hb : 0 < c.bits
  · simp only [hb, if_true] at hfit ⊢
    have hne : ¬ c.out.length = Config.bufBytes := by omega
    have hf : c.finish d .pad = ⟨c.acc, c.bits, c.out ++ [c.leftover d], none⟩ := by
      simp [Conversion.finish, Conversion.emit, h1.noError, hb, hne]
    rw [hf]
    refine ⟨rfl, by simp, ?_, ?_⟩
    · intro w hw
      rcases List.mem_append.1 hw with hw | hw
      · exact h1.words_lt w hw
      · rw [List.mem_singleton.1 hw]; exact leftover_lt d c
    · simp only [stream_append, stream_singleton, bitsOf_leftover d c hlt.le, h1.stream_eq, List.append_assoc,
        List.length_append, List.length_singleton]
      rw [show (c.out.length + 1) * outBits d - xs.length * inBits d = outBits d - c.bits by
        rw [← hcount, Nat.add_mul]; omega]
  · have hb0 : c.bits = 0 := by omega
    have hf : c.finish d .pad = c := by simp [Conversion.finish, h1.noError, hb0]
    rw [hf]
    refine ⟨h1.noError, by simp [hb0], h1.words_lt, ?_⟩
    rw [h1.stream_eq, ← hcount, hb0]
    simp

/-- A conversion without padding whose output fits BUF_BYTES: the leftover is dropped when it is shorter than an input word and
all zero, and is an error otherwise (R152). -/
theorem convertBits_nopad (d : Direction) (xs : Bytes) (hx : ∀ x ∈ xs, Accepts d x)
    (hfit : xs.length * inBits d / outBits d ≤ Config.bufBytes) :
    let c := convertBits d .nopad xs
    let r := xs.length * inBits d % outBits d
    c.out.length = xs.length * inBits d / outBits d ∧ (∀ w ∈ c.out, w.toNat < 2 ^ outBits d) ∧
      stream (inBits d) xs = stream (outBits d) c.out ++ (stream (inBits d) xs).drop (xs.length * inBits d - r) ∧
      c.error = if r < inBits d ∧ (stream (inBits d) xs).drop (xs.length * inBits d - r) = List.replicate r false then none
        else some .nonCanonicalPadding := by
  have hpos := outBits_pos d
  obtain ⟨h1, h2⟩ := (Conversion.foldl_spec d xs hx).1 hfit
  simp only [convertBits, ← h2]
  generalize xs.foldl (Conversion.absorb d) Conversion.start = c at h1 h2
  have hcount : c.out.length * outBits d + c.bits = xs.length * inBits d := by
    simpa using (congrArg List.length h1.stream_eq).symm
  have hlt : c.bits < outBits d := h2 ▸ Nat.mod_lt _ hpos
  have hdrop : (stream (inBits d) xs).drop (xs.length * inBits d - c.bits) = lowBits c.bits c.acc := by
    rw [h1.stream_eq, ← hcount, Nat.add_sub_cancel, ← length_stream, List.drop_left]
  have hlen : c.out.length = xs.length * inBits d / outBits d := by
    rw [← hcount, Nat.mul_comm, Nat.mul_add_div hpos, Nat.div_eq_of_lt hlt, Nat.add_zero]
  rw [hdrop]
  by_cases hb : inBits d ≤ c.bits ∨ c.leftover d ≠ 0
  · have hf : c.finish d .nopad = { c with error := some .nonCanonicalPadding } := by
      simp [Conversion.finish, h1.noError]
      intro h3 h4
      rcases hb with hb | hb
      · omega
      · exact absurd h4 hb
    have hno : ¬ (c.bits < inBits d ∧ lowBits c.bits c.acc = List.replicate c.bits false) := by
      rintro ⟨h3, h4⟩
      rcases hb with hb | hb
      · omega
      · exact hb ((leftover_eq_zero d c hlt.le).2 h4)
    rw [hf, if_neg hno]
    exact ⟨hlen, h1.words_lt, h1.stream_eq, rfl⟩
  · have hf : c.finish d .nopad = c := by
      simp only [not_or, not_le, not_not] at hb
      simp [Conversion.finish, h1.noError, hb.1, hb.2]
    simp only [not_or, not_le, not_not] at hb
    rw [hf, if_pos ⟨hb.1, (leftover_eq_zero d c hlt.le).1 hb.2⟩]
    exact ⟨hlen, h1.words_lt, h1.stream_eq, h1.noError⟩

theorem Conversion.finish_error (d : Direction) (p : Padding) (c : Conversion) {e : Err} (h : c.error = some e) :
    c.finish d p = c := by simp [Conversion.finish, h]

/-- A conversion whose output would pass BUF_BYTES before its end (R151). -/
theorem convertBits_tooLong (d : Direction) (p : Padding) (xs : Bytes) (hx : ∀ x ∈ xs, Accepts d x)
    (h : Config.bufBytes < xs.length * inBits d / outBits d) : (convertBits d p xs).error = some .lengthExceeded := by
  have h1 := ((Conversion.foldl_spec d xs hx).2 h).1
  rw [convertBits, Conversion.finish_error d p _ h1, h1]

/-- The first word that does not fit the input width ends the conversion, if the output before it fits (R151). -/
theorem convertBits_invalidWord (d : Direction) (p : Padding) (pre post : Bytes) (x : Byte)
    (hpre : ∀ y ∈ pre, Accepts d y) (hfit : pre.length * inBits d / outBits d ≤ Config.bufBytes) (hx : ¬ Accepts d x) :
    (convertBits d p (pre ++ x :: post)).error = some .invalidWord := by
  obtain ⟨h1, -⟩ := (Conversion.foldl_spec d pre hpre).1 hfit
  have hx' : ¬ x >>> inBits d = 0 := fun h => hx ((accepts_iff d x).2 h)
  have h2 : ((pre ++ x :: post).foldl (Conversion.absorb d) Conversion.start).error = some .invalidWord := by
    rw [List.foldl_append, List.foldl_cons]
    generalize pre.foldl (Conversion.absorb d) Conversion.start = c at h1
    have h3 : c.absorb d x = { c with error := some .invalidWord } := by
      simp [Conversion.absorb, h1.noError]
      exact fun h => absurd h hx'
    rw [h3, Conversion.foldl_error d post _ (by simp)]
  rw [convertBits, Conversion.finish_error d p _ h2, h2]

/-! ### What every conversion keeps -/

/-- BITS never passes 15 (R38, R150) and the output never passes BUF_BYTES (R67), whatever the input. -/
theorem convertBits_bounds (d : Direction) (p : Padding) (xs : Bytes) :
    (convertBits d p xs).bits ≤ 15 ∧ (convertBits d p xs).out.length ≤ Config.bufBytes := by
  have hpos := outBits_pos d
  have emit (c : Conversion) (w : Byte) (h : c.out.length ≤ Config.bufBytes) :
      (c.emit w).bits = c.bits ∧ (c.emit w).out.length ≤ Config.bufBytes := by
    unfold Conversion.emit
    split
    · exact ⟨rfl, h⟩
    · exact ⟨rfl, by simp; omega⟩
  have drain (n : Nat) (c : Conversion) (h : c.out.length ≤ Config.bufBytes) :
      (Conversion.drain d n c).bits ≤ c.bits ∧ (Conversion.drain d n c).out.length ≤ Config.bufBytes ∧
        ((Conversion.drain d n c).error = none → c.bits < outBits d * (n + 1) →
          (Conversion.drain d n c).bits < outBits d) := by
    induction n generalizing c with
    | zero => exact ⟨le_refl _, h, fun _ hb => by simpa [Conversion.drain] using hb⟩
    | succ n ih =>
      rw [Conversion.drain]
      split
      · rename_i hc
        simp only [Bool.and_eq_true, decide_eq_true_eq] at hc
        have h1 := emit { c with bits := c.bits - outBits d } (cut d c.acc (c.bits - outBits d)) h
        have h2 := ih _ h1.2
        rw [h1.1] at h2
        refine ⟨le_trans h2.1 (by simp), h2.2.1, fun he hb => h2.2.2 he ?_⟩
        rw [Nat.mul_add] at hb; simp only; omega
      · rename_i hc
        simp only [Bool.and_eq_true, decide_eq_true_eq, not_and, not_le] at hc
        exact ⟨le_refl _, h, fun he _ => hc (by simp [he])⟩
  have loop : ∀ (xs : Bytes) (c : Conversion), c.bits ≤ 15 → c.out.length ≤ Config.bufBytes →
      (c.error = none → c.bits < outBits d) →
      (xs.foldl (Conversion.absorb d) c).bits ≤ 15 ∧ (xs.foldl (Conversion.absorb d) c).out.length ≤ Config.bufBytes := by
    intro xs
    induction xs with
    | nil => intro c h1 h2 _; exact ⟨h1, h2⟩
    | cons x xs ih =>
      intro c h1 h2 h3
      rw [List.foldl_cons]
      unfold Conversion.absorb
      split
      · exact ih c h1 h2 h3
      · rename_i he
        have he : c.error = none := by simpa using he
        have h4 := h3 he
        have h13 := inBits_add_outBits d
        split
        · exact ih _ h1 h2 (by simp)
        · have h5 := drain 15 { c with acc := (c.acc <<< inBits d) ||| x.setWidth 16, bits := c.bits + inBits d } h2
          simp only at h5
          exact ih _ (by omega) h5.2.1 (fun h6 => h5.2.2 h6 (by nlinarith))
  have h := loop xs Conversion.start (by decide) (by decide) (fun _ => hpos)
  rw [convertBits]
  generalize xs.foldl (Conversion.absorb d) Conversion.start = c at h
  unfold Conversion.finish
  split
  · exact h
  · cases p with
    | pad =>
      simp only
      split
      · rw [(emit c _ h.2).1]; exact ⟨h.1, (emit c _ h.2).2⟩
      · exact h
    | nopad =>
      simp only
      split <;> exact h

end Sys2Proof.Machine
end

