-- ==== Sys2Proof/Laws/State.lean ====
section
/-! SUPPORT. One lemma for each field after each shared update of the state, true by rfl, so that no later proof unfolds a
record update. -/

namespace Sys2Proof.Machine

/-! ### State.start -/

@[simp] theorem State.start_cmd (s : State) (w : Word) : (s.start w).cmd = w := rfl
@[simp] theorem State.start_status (s : State) (w : Word) : (s.start w).status = .started := rfl
@[simp] theorem State.start_inLen (s : State) (w : Word) : (s.start w).inLen = s.inLen := rfl
@[simp] theorem State.start_hrpLen (s : State) (w : Word) : (s.start w).hrpLen = s.hrpLen := rfl
@[simp] theorem State.start_outLen (s : State) (w : Word) : (s.start w).outLen = s.outLen := rfl
@[simp] theorem State.start_maxLen (s : State) (w : Word) : (s.start w).maxLen = s.maxLen := rfl
@[simp] theorem State.start_chk (s : State) (w : Word) : (s.start w).chk = s.chk := rfl
@[simp] theorem State.start_version (s : State) (w : Word) : (s.start w).version = s.version := rfl
@[simp] theorem State.start_tlvCount (s : State) (w : Word) : (s.start w).tlvCount = s.tlvCount := rfl
@[simp] theorem State.start_tlvFound (s : State) (w : Word) : (s.start w).tlvFound = s.tlvFound := rfl
@[simp] theorem State.start_tlvEnd (s : State) (w : Word) : (s.start w).tlvEnd = s.tlvEnd := rfl
@[simp] theorem State.start_tlvRec (s : State) (w : Word) : (s.start w).tlvRec = s.tlvRec := rfl
@[simp] theorem State.start_mem (s : State) (w : Word) : (s.start w).mem = s.mem := rfl
@[simp] theorem State.start_pending (s : State) (w : Word) : (s.start w).pending = some w := rfl
@[simp] theorem State.start_acc (s : State) (w : Word) : (s.start w).acc = s.acc := rfl
@[simp] theorem State.start_bits (s : State) (w : Word) : (s.start w).bits = s.bits := rfl
@[simp] theorem State.start_off (s : State) (w : Word) : (s.start w).off = s.off := rfl
@[simp] theorem State.start_nrec (s : State) (w : Word) : (s.start w).nrec = s.nrec := rfl
@[simp] theorem State.start_pstate (s : State) (w : Word) : (s.start w).pstate = s.pstate := rfl
@[simp] theorem State.start_scratchHrp (s : State) (w : Word) : (s.start w).scratchHrp = s.scratchHrp := rfl
@[simp] theorem State.start_scratchWords (s : State) (w : Word) : (s.start w).scratchWords = s.scratchWords := rfl
@[simp] theorem State.start_drawn (s : State) (w : Word) : (s.start w).drawn = s.drawn := rfl
@[simp] theorem State.start_inputs (s : State) (w : Word) : (s.start w).inputs = s.inputs := rfl
@[simp] theorem State.start_readLog (s : State) (w : Word) : (s.start w).readLog = s.readLog := rfl

/-! ### State.succeed -/

@[simp] theorem State.succeed_cmd (s : State) (n : BitVec 2) : (s.succeed n).cmd = s.cmd := rfl
@[simp] theorem State.succeed_status (s : State) (n : BitVec 2) : (s.succeed n).status = .succeeded n := rfl
@[simp] theorem State.succeed_inLen (s : State) (n : BitVec 2) : (s.succeed n).inLen = s.inLen := rfl
@[simp] theorem State.succeed_hrpLen (s : State) (n : BitVec 2) : (s.succeed n).hrpLen = s.hrpLen := rfl
@[simp] theorem State.succeed_outLen (s : State) (n : BitVec 2) : (s.succeed n).outLen = s.outLen := rfl
@[simp] theorem State.succeed_maxLen (s : State) (n : BitVec 2) : (s.succeed n).maxLen = s.maxLen := rfl
@[simp] theorem State.succeed_chk (s : State) (n : BitVec 2) : (s.succeed n).chk = s.chk := rfl
@[simp] theorem State.succeed_version (s : State) (n : BitVec 2) : (s.succeed n).version = s.version := rfl
@[simp] theorem State.succeed_tlvCount (s : State) (n : BitVec 2) : (s.succeed n).tlvCount = s.tlvCount := rfl
@[simp] theorem State.succeed_tlvFound (s : State) (n : BitVec 2) : (s.succeed n).tlvFound = s.tlvFound := rfl
@[simp] theorem State.succeed_tlvEnd (s : State) (n : BitVec 2) : (s.succeed n).tlvEnd = s.tlvEnd := rfl
@[simp] theorem State.succeed_tlvRec (s : State) (n : BitVec 2) : (s.succeed n).tlvRec = s.tlvRec := rfl
@[simp] theorem State.succeed_mem (s : State) (n : BitVec 2) : (s.succeed n).mem = s.mem := rfl
@[simp] theorem State.succeed_pending (s : State) (n : BitVec 2) : (s.succeed n).pending = none := rfl
@[simp] theorem State.succeed_acc (s : State) (n : BitVec 2) : (s.succeed n).acc = s.acc := rfl
@[simp] theorem State.succeed_bits (s : State) (n : BitVec 2) : (s.succeed n).bits = s.bits := rfl
@[simp] theorem State.succeed_off (s : State) (n : BitVec 2) : (s.succeed n).off = s.off := rfl
@[simp] theorem State.succeed_nrec (s : State) (n : BitVec 2) : (s.succeed n).nrec = s.nrec := rfl
@[simp] theorem State.succeed_pstate (s : State) (n : BitVec 2) : (s.succeed n).pstate = s.pstate := rfl
@[simp] theorem State.succeed_scratchHrp (s : State) (n : BitVec 2) : (s.succeed n).scratchHrp = s.scratchHrp := rfl
@[simp] theorem State.succeed_scratchWords (s : State) (n : BitVec 2) : (s.succeed n).scratchWords = s.scratchWords := rfl
@[simp] theorem State.succeed_drawn (s : State) (n : BitVec 2) : (s.succeed n).drawn = s.drawn := rfl
@[simp] theorem State.succeed_inputs (s : State) (n : BitVec 2) : (s.succeed n).inputs = s.inputs := rfl
@[simp] theorem State.succeed_readLog (s : State) (n : BitVec 2) : (s.succeed n).readLog = s.readLog := rfl

/-! ### State.raise -/

@[simp] theorem State.raise_cmd (s : State) (e : Err) : (s.raise e).cmd = s.cmd := rfl
@[simp] theorem State.raise_status (s : State) (e : Err) : (s.raise e).status = .failed e := rfl
@[simp] theorem State.raise_inLen (s : State) (e : Err) : (s.raise e).inLen = s.inLen := rfl
@[simp] theorem State.raise_hrpLen (s : State) (e : Err) : (s.raise e).hrpLen = s.hrpLen := rfl
@[simp] theorem State.raise_outLen (s : State) (e : Err) : (s.raise e).outLen = s.outLen := rfl
@[simp] theorem State.raise_maxLen (s : State) (e : Err) : (s.raise e).maxLen = s.maxLen := rfl
@[simp] theorem State.raise_chk (s : State) (e : Err) : (s.raise e).chk = s.chk := rfl
@[simp] theorem State.raise_version (s : State) (e : Err) : (s.raise e).version = s.version := rfl
@[simp] theorem State.raise_tlvCount (s : State) (e : Err) : (s.raise e).tlvCount = s.tlvCount := rfl
@[simp] theorem State.raise_tlvFound (s : State) (e : Err) : (s.raise e).tlvFound = s.tlvFound := rfl
@[simp] theorem State.raise_tlvEnd (s : State) (e : Err) : (s.raise e).tlvEnd = s.tlvEnd := rfl
@[simp] theorem State.raise_tlvRec (s : State) (e : Err) : (s.raise e).tlvRec = s.tlvRec := rfl
@[simp] theorem State.raise_mem (s : State) (e : Err) : (s.raise e).mem = s.mem := rfl
@[simp] theorem State.raise_pending (s : State) (e : Err) : (s.raise e).pending = none := rfl
@[simp] theorem State.raise_acc (s : State) (e : Err) : (s.raise e).acc = s.acc := rfl
@[simp] theorem State.raise_bits (s : State) (e : Err) : (s.raise e).bits = s.bits := rfl
@[simp] theorem State.raise_off (s : State) (e : Err) : (s.raise e).off = s.off := rfl
@[simp] theorem State.raise_nrec (s : State) (e : Err) : (s.raise e).nrec = s.nrec := rfl
@[simp] theorem State.raise_pstate (s : State) (e : Err) : (s.raise e).pstate = s.pstate := rfl
@[simp] theorem State.raise_scratchHrp (s : State) (e : Err) : (s.raise e).scratchHrp = s.scratchHrp := rfl
@[simp] theorem State.raise_scratchWords (s : State) (e : Err) : (s.raise e).scratchWords = s.scratchWords := rfl
@[simp] theorem State.raise_drawn (s : State) (e : Err) : (s.raise e).drawn = s.drawn := rfl
@[simp] theorem State.raise_inputs (s : State) (e : Err) : (s.raise e).inputs = s.inputs := rfl
@[simp] theorem State.raise_readLog (s : State) (e : Err) : (s.raise e).readLog = s.readLog := rfl

/-! ### State.noOutput -/

@[simp] theorem State.noOutput_cmd (s : State) : (s.noOutput).cmd = s.cmd := rfl
@[simp] theorem State.noOutput_status (s : State) : (s.noOutput).status = s.status := rfl
@[simp] theorem State.noOutput_inLen (s : State) : (s.noOutput).inLen = s.inLen := rfl
@[simp] theorem State.noOutput_hrpLen (s : State) : (s.noOutput).hrpLen = s.hrpLen := rfl
@[simp] theorem State.noOutput_outLen (s : State) : (s.noOutput).outLen = 0 := rfl
@[simp] theorem State.noOutput_maxLen (s : State) : (s.noOutput).maxLen = s.maxLen := rfl
@[simp] theorem State.noOutput_chk (s : State) : (s.noOutput).chk = s.chk := rfl
@[simp] theorem State.noOutput_version (s : State) : (s.noOutput).version = s.version := rfl
@[simp] theorem State.noOutput_tlvCount (s : State) : (s.noOutput).tlvCount = s.tlvCount := rfl
@[simp] theorem State.noOutput_tlvFound (s : State) : (s.noOutput).tlvFound = s.tlvFound := rfl
@[simp] theorem State.noOutput_tlvEnd (s : State) : (s.noOutput).tlvEnd = s.tlvEnd := rfl
@[simp] theorem State.noOutput_tlvRec (s : State) : (s.noOutput).tlvRec = s.tlvRec := rfl
@[simp] theorem State.noOutput_mem (s : State) : (s.noOutput).mem = s.mem := rfl
@[simp] theorem State.noOutput_pending (s : State) : (s.noOutput).pending = s.pending := rfl
@[simp] theorem State.noOutput_acc (s : State) : (s.noOutput).acc = s.acc := rfl
@[simp] theorem State.noOutput_bits (s : State) : (s.noOutput).bits = s.bits := rfl
@[simp] theorem State.noOutput_off (s : State) : (s.noOutput).off = s.off := rfl
@[simp] theorem State.noOutput_nrec (s : State) : (s.noOutput).nrec = s.nrec := rfl
@[simp] theorem State.noOutput_pstate (s : State) : (s.noOutput).pstate = s.pstate := rfl
@[simp] theorem State.noOutput_scratchHrp (s : State) : (s.noOutput).scratchHrp = s.scratchHrp := rfl
@[simp] theorem State.noOutput_scratchWords (s : State) : (s.noOutput).scratchWords = s.scratchWords := rfl
@[simp] theorem State.noOutput_drawn (s : State) : (s.noOutput).drawn = s.drawn := rfl
@[simp] theorem State.noOutput_inputs (s : State) : (s.noOutput).inputs = s.inputs := rfl
@[simp] theorem State.noOutput_readLog (s : State) : (s.noOutput).readLog = s.readLog := rfl

/-! ### State.putOutput -/

@[simp] theorem State.putOutput_cmd (s : State) (bs : Bytes) : (s.putOutput bs).cmd = s.cmd := rfl
@[simp] theorem State.putOutput_status (s : State) (bs : Bytes) : (s.putOutput bs).status = s.status := rfl
@[simp] theorem State.putOutput_inLen (s : State) (bs : Bytes) : (s.putOutput bs).inLen = s.inLen := rfl
@[simp] theorem State.putOutput_hrpLen (s : State) (bs : Bytes) : (s.putOutput bs).hrpLen = s.hrpLen := rfl
@[simp] theorem State.putOutput_outLen (s : State) (bs : Bytes) : (s.putOutput bs).outLen = BitVec.ofNat 16 bs.length := rfl
@[simp] theorem State.putOutput_maxLen (s : State) (bs : Bytes) : (s.putOutput bs).maxLen = s.maxLen := rfl
@[simp] theorem State.putOutput_chk (s : State) (bs : Bytes) : (s.putOutput bs).chk = s.chk := rfl
@[simp] theorem State.putOutput_version (s : State) (bs : Bytes) : (s.putOutput bs).version = s.version := rfl
@[simp] theorem State.putOutput_tlvCount (s : State) (bs : Bytes) : (s.putOutput bs).tlvCount = s.tlvCount := rfl
@[simp] theorem State.putOutput_tlvFound (s : State) (bs : Bytes) : (s.putOutput bs).tlvFound = s.tlvFound := rfl
@[simp] theorem State.putOutput_tlvEnd (s : State) (bs : Bytes) : (s.putOutput bs).tlvEnd = s.tlvEnd := rfl
@[simp] theorem State.putOutput_tlvRec (s : State) (bs : Bytes) : (s.putOutput bs).tlvRec = s.tlvRec := rfl
@[simp] theorem State.putOutput_mem (s : State) (bs : Bytes) : (s.putOutput bs).mem = s.mem.storeBuffer .obuf bs := rfl
@[simp] theorem State.putOutput_pending (s : State) (bs : Bytes) : (s.putOutput bs).pending = s.pending := rfl
@[simp] theorem State.putOutput_acc (s : State) (bs : Bytes) : (s.putOutput bs).acc = s.acc := rfl
@[simp] theorem State.putOutput_bits (s : State) (bs : Bytes) : (s.putOutput bs).bits = s.bits := rfl
@[simp] theorem State.putOutput_off (s : State) (bs : Bytes) : (s.putOutput bs).off = s.off := rfl
@[simp] theorem State.putOutput_nrec (s : State) (bs : Bytes) : (s.putOutput bs).nrec = s.nrec := rfl
@[simp] theorem State.putOutput_pstate (s : State) (bs : Bytes) : (s.putOutput bs).pstate = s.pstate := rfl
@[simp] theorem State.putOutput_scratchHrp (s : State) (bs : Bytes) : (s.putOutput bs).scratchHrp = s.scratchHrp := rfl
@[simp] theorem State.putOutput_scratchWords (s : State) (bs : Bytes) : (s.putOutput bs).scratchWords = s.scratchWords := rfl
@[simp] theorem State.putOutput_drawn (s : State) (bs : Bytes) : (s.putOutput bs).drawn = s.drawn := rfl
@[simp] theorem State.putOutput_inputs (s : State) (bs : Bytes) : (s.putOutput bs).inputs = s.inputs := rfl
@[simp] theorem State.putOutput_readLog (s : State) (bs : Bytes) : (s.putOutput bs).readLog = s.readLog := rfl

/-! ### State.raiseNoOutput -/

@[simp] theorem State.raiseNoOutput_cmd (s : State) (e : Err) : (s.raiseNoOutput e).cmd = s.cmd := rfl
@[simp] theorem State.raiseNoOutput_status (s : State) (e : Err) : (s.raiseNoOutput e).status = .failed e := rfl
@[simp] theorem State.raiseNoOutput_inLen (s : State) (e : Err) : (s.raiseNoOutput e).inLen = s.inLen := rfl
@[simp] theorem State.raiseNoOutput_hrpLen (s : State) (e : Err) : (s.raiseNoOutput e).hrpLen = s.hrpLen := rfl
@[simp] theorem State.raiseNoOutput_outLen (s : State) (e : Err) : (s.raiseNoOutput e).outLen = 0 := rfl
@[simp] theorem State.raiseNoOutput_maxLen (s : State) (e : Err) : (s.raiseNoOutput e).maxLen = s.maxLen := rfl
@[simp] theorem State.raiseNoOutput_chk (s : State) (e : Err) : (s.raiseNoOutput e).chk = s.chk := rfl
@[simp] theorem State.raiseNoOutput_version (s : State) (e : Err) : (s.raiseNoOutput e).version = s.version := rfl
@[simp] theorem State.raiseNoOutput_tlvCount (s : State) (e : Err) : (s.raiseNoOutput e).tlvCount = s.tlvCount := rfl
@[simp] theorem State.raiseNoOutput_tlvFound (s : State) (e : Err) : (s.raiseNoOutput e).tlvFound = s.tlvFound := rfl
@[simp] theorem State.raiseNoOutput_tlvEnd (s : State) (e : Err) : (s.raiseNoOutput e).tlvEnd = s.tlvEnd := rfl
@[simp] theorem State.raiseNoOutput_tlvRec (s : State) (e : Err) : (s.raiseNoOutput e).tlvRec = s.tlvRec := rfl
@[simp] theorem State.raiseNoOutput_mem (s : State) (e : Err) : (s.raiseNoOutput e).mem = s.mem := rfl
@[simp] theorem State.raiseNoOutput_pending (s : State) (e : Err) : (s.raiseNoOutput e).pending = none := rfl
@[simp] theorem State.raiseNoOutput_acc (s : State) (e : Err) : (s.raiseNoOutput e).acc = s.acc := rfl
@[simp] theorem State.raiseNoOutput_bits (s : State) (e : Err) : (s.raiseNoOutput e).bits = s.bits := rfl
@[simp] theorem State.raiseNoOutput_off (s : State) (e : Err) : (s.raiseNoOutput e).off = s.off := rfl
@[simp] theorem State.raiseNoOutput_nrec (s : State) (e : Err) : (s.raiseNoOutput e).nrec = s.nrec := rfl
@[simp] theorem State.raiseNoOutput_pstate (s : State) (e : Err) : (s.raiseNoOutput e).pstate = s.pstate := rfl
@[simp] theorem State.raiseNoOutput_scratchHrp (s : State) (e : Err) : (s.raiseNoOutput e).scratchHrp = s.scratchHrp := rfl
@[simp] theorem State.raiseNoOutput_scratchWords (s : State) (e : Err) :
    (s.raiseNoOutput e).scratchWords = s.scratchWords := rfl
@[simp] theorem State.raiseNoOutput_drawn (s : State) (e : Err) : (s.raiseNoOutput e).drawn = s.drawn := rfl
@[simp] theorem State.raiseNoOutput_inputs (s : State) (e : Err) : (s.raiseNoOutput e).inputs = s.inputs := rfl
@[simp] theorem State.raiseNoOutput_readLog (s : State) (e : Err) : (s.raiseNoOutput e).readLog = s.readLog := rfl

/-! ### State.raiseLosingOutput -/

@[simp] theorem State.raiseLosingOutput_cmd (s : State) (e : Err) : (s.raiseLosingOutput e).cmd = s.cmd := rfl
@[simp] theorem State.raiseLosingOutput_status (s : State) (e : Err) : (s.raiseLosingOutput e).status = .failed e := rfl
@[simp] theorem State.raiseLosingOutput_inLen (s : State) (e : Err) : (s.raiseLosingOutput e).inLen = s.inLen := rfl
@[simp] theorem State.raiseLosingOutput_hrpLen (s : State) (e : Err) : (s.raiseLosingOutput e).hrpLen = s.hrpLen := rfl
@[simp] theorem State.raiseLosingOutput_outLen (s : State) (e : Err) : (s.raiseLosingOutput e).outLen = 0 := rfl
@[simp] theorem State.raiseLosingOutput_maxLen (s : State) (e : Err) : (s.raiseLosingOutput e).maxLen = s.maxLen := rfl
@[simp] theorem State.raiseLosingOutput_chk (s : State) (e : Err) : (s.raiseLosingOutput e).chk = s.chk := rfl
@[simp] theorem State.raiseLosingOutput_version (s : State) (e : Err) : (s.raiseLosingOutput e).version = s.version := rfl
@[simp] theorem State.raiseLosingOutput_tlvCount (s : State) (e : Err) : (s.raiseLosingOutput e).tlvCount = s.tlvCount := rfl
@[simp] theorem State.raiseLosingOutput_tlvFound (s : State) (e : Err) : (s.raiseLosingOutput e).tlvFound = s.tlvFound := rfl
@[simp] theorem State.raiseLosingOutput_tlvEnd (s : State) (e : Err) : (s.raiseLosingOutput e).tlvEnd = s.tlvEnd := rfl
@[simp] theorem State.raiseLosingOutput_tlvRec (s : State) (e : Err) : (s.raiseLosingOutput e).tlvRec = s.tlvRec := rfl
@[simp] theorem State.raiseLosingOutput_mem (s : State) (e : Err) :
    (s.raiseLosingOutput e).mem = s.mem.forget .obuf s.drawn := rfl
@[simp] theorem State.raiseLosingOutput_pending (s : State) (e : Err) : (s.raiseLosingOutput e).pending = none := rfl
@[simp] theorem State.raiseLosingOutput_acc (s : State) (e : Err) : (s.raiseLosingOutput e).acc = s.acc := rfl
@[simp] theorem State.raiseLosingOutput_bits (s : State) (e : Err) : (s.raiseLosingOutput e).bits = s.bits := rfl
@[simp] theorem State.raiseLosingOutput_off (s : State) (e : Err) : (s.raiseLosingOutput e).off = s.off := rfl
@[simp] theorem State.raiseLosingOutput_nrec (s : State) (e : Err) : (s.raiseLosingOutput e).nrec = s.nrec := rfl
@[simp] theorem State.raiseLosingOutput_pstate (s : State) (e : Err) : (s.raiseLosingOutput e).pstate = s.pstate := rfl
@[simp] theorem State.raiseLosingOutput_scratchHrp (s : State) (e : Err) :
    (s.raiseLosingOutput e).scratchHrp = s.scratchHrp := rfl
@[simp] theorem State.raiseLosingOutput_scratchWords (s : State) (e : Err) :
    (s.raiseLosingOutput e).scratchWords = s.scratchWords := rfl
@[simp] theorem State.raiseLosingOutput_drawn (s : State) (e : Err) : (s.raiseLosingOutput e).drawn = s.drawn + 1 := rfl
@[simp] theorem State.raiseLosingOutput_inputs (s : State) (e : Err) : (s.raiseLosingOutput e).inputs = s.inputs := rfl
@[simp] theorem State.raiseLosingOutput_readLog (s : State) (e : Err) : (s.raiseLosingOutput e).readLog = s.readLog := rfl

/-! ### State.raiseLosingChk -/

@[simp] theorem State.raiseLosingChk_cmd (s : State) (e : Err) (r : Option Chk) : (s.raiseLosingChk e r).cmd = s.cmd := rfl
@[simp] theorem State.raiseLosingChk_status (s : State) (e : Err) (r : Option Chk) :
    (s.raiseLosingChk e r).status = .failed e := rfl
@[simp] theorem State.raiseLosingChk_inLen (s : State) (e : Err) (r : Option Chk) :
    (s.raiseLosingChk e r).inLen = s.inLen := rfl
@[simp] theorem State.raiseLosingChk_hrpLen (s : State) (e : Err) (r : Option Chk) :
    (s.raiseLosingChk e r).hrpLen = s.hrpLen := rfl
@[simp] theorem State.raiseLosingChk_outLen (s : State) (e : Err) (r : Option Chk) : (s.raiseLosingChk e r).outLen = 0 := rfl
@[simp] theorem State.raiseLosingChk_maxLen (s : State) (e : Err) (r : Option Chk) :
    (s.raiseLosingChk e r).maxLen = s.maxLen := rfl
@[simp] theorem State.raiseLosingChk_chk (s : State) (e : Err) (r : Option Chk) :
    (s.raiseLosingChk e r).chk = r.getD (Config.freeChk s.drawn) := rfl
@[simp] theorem State.raiseLosingChk_version (s : State) (e : Err) (r : Option Chk) :
    (s.raiseLosingChk e r).version = s.version := rfl
@[simp] theorem State.raiseLosingChk_tlvCount (s : State) (e : Err) (r : Option Chk) :
    (s.raiseLosingChk e r).tlvCount = s.tlvCount := rfl
@[simp] theorem State.raiseLosingChk_tlvFound (s : State) (e : Err) (r : Option Chk) :
    (s.raiseLosingChk e r).tlvFound = s.tlvFound := rfl
@[simp] theorem State.raiseLosingChk_tlvEnd (s : State) (e : Err) (r : Option Chk) :
    (s.raiseLosingChk e r).tlvEnd = s.tlvEnd := rfl
@[simp] theorem State.raiseLosingChk_tlvRec (s : State) (e : Err) (r : Option Chk) :
    (s.raiseLosingChk e r).tlvRec = s.tlvRec := rfl
@[simp] theorem State.raiseLosingChk_mem (s : State) (e : Err) (r : Option Chk) :
    (s.raiseLosingChk e r).mem = s.mem.forget .obuf s.drawn := rfl
@[simp] theorem State.raiseLosingChk_pending (s : State) (e : Err) (r : Option Chk) :
    (s.raiseLosingChk e r).pending = none := rfl
@[simp] theorem State.raiseLosingChk_acc (s : State) (e : Err) (r : Option Chk) : (s.raiseLosingChk e r).acc = s.acc := rfl
@[simp] theorem State.raiseLosingChk_bits (s : State) (e : Err) (r : Option Chk) :
    (s.raiseLosingChk e r).bits = s.bits := rfl
@[simp] theorem State.raiseLosingChk_off (s : State) (e : Err) (r : Option Chk) : (s.raiseLosingChk e r).off = s.off := rfl
@[simp] theorem State.raiseLosingChk_nrec (s : State) (e : Err) (r : Option Chk) :
    (s.raiseLosingChk e r).nrec = s.nrec := rfl
@[simp] theorem State.raiseLosingChk_pstate (s : State) (e : Err) (r : Option Chk) :
    (s.raiseLosingChk e r).pstate = s.pstate := rfl
@[simp] theorem State.raiseLosingChk_scratchHrp (s : State) (e : Err) (r : Option Chk) :
    (s.raiseLosingChk e r).scratchHrp = s.scratchHrp := rfl
@[simp] theorem State.raiseLosingChk_scratchWords (s : State) (e : Err) (r : Option Chk) :
    (s.raiseLosingChk e r).scratchWords = s.scratchWords := rfl
@[simp] theorem State.raiseLosingChk_drawn (s : State) (e : Err) (r : Option Chk) :
    (s.raiseLosingChk e r).drawn = s.drawn + 1 := rfl
@[simp] theorem State.raiseLosingChk_inputs (s : State) (e : Err) (r : Option Chk) :
    (s.raiseLosingChk e r).inputs = s.inputs := rfl
@[simp] theorem State.raiseLosingChk_readLog (s : State) (e : Err) (r : Option Chk) :
    (s.raiseLosingChk e r).readLog = s.readLog := rfl

/-! ### State.raiseLosingHrp -/

@[simp] theorem State.raiseLosingHrp_cmd (s : State) (e : Err) (r : Option Chk) : (s.raiseLosingHrp e r).cmd = s.cmd := rfl
@[simp] theorem State.raiseLosingHrp_status (s : State) (e : Err) (r : Option Chk) :
    (s.raiseLosingHrp e r).status = .failed e := rfl
@[simp] theorem State.raiseLosingHrp_inLen (s : State) (e : Err) (r : Option Chk) :
    (s.raiseLosingHrp e r).inLen = s.inLen := rfl
@[simp] theorem State.raiseLosingHrp_hrpLen (s : State) (e : Err) (r : Option Chk) : (s.raiseLosingHrp e r).hrpLen = 0 := rfl
@[simp] theorem State.raiseLosingHrp_outLen (s : State) (e : Err) (r : Option Chk) : (s.raiseLosingHrp e r).outLen = 0 := rfl
@[simp] theorem State.raiseLosingHrp_maxLen (s : State) (e : Err) (r : Option Chk) :
    (s.raiseLosingHrp e r).maxLen = s.maxLen := rfl
@[simp] theorem State.raiseLosingHrp_chk (s : State) (e : Err) (r : Option Chk) :
    (s.raiseLosingHrp e r).chk = r.getD (Config.freeChk s.drawn) := rfl
@[simp] theorem State.raiseLosingHrp_version (s : State) (e : Err) (r : Option Chk) :
    (s.raiseLosingHrp e r).version = s.version := rfl
@[simp] theorem State.raiseLosingHrp_tlvCount (s : State) (e : Err) (r : Option Chk) :
    (s.raiseLosingHrp e r).tlvCount = s.tlvCount := rfl
@[simp] theorem State.raiseLosingHrp_tlvFound (s : State) (e : Err) (r : Option Chk) :
    (s.raiseLosingHrp e r).tlvFound = s.tlvFound := rfl
@[simp] theorem State.raiseLosingHrp_tlvEnd (s : State) (e : Err) (r : Option Chk) :
    (s.raiseLosingHrp e r).tlvEnd = s.tlvEnd := rfl
@[simp] theorem State.raiseLosingHrp_tlvRec (s : State) (e : Err) (r : Option Chk) :
    (s.raiseLosingHrp e r).tlvRec = s.tlvRec := rfl
@[simp] theorem State.raiseLosingHrp_mem (s : State) (e : Err) (r : Option Chk) :
    (s.raiseLosingHrp e r).mem = (s.mem.forget .hbuf s.drawn).forget .obuf s.drawn := rfl
@[simp] theorem State.raiseLosingHrp_pending (s : State) (e : Err) (r : Option Chk) :
    (s.raiseLosingHrp e r).pending = none := rfl
@[simp] theorem State.raiseLosingHrp_acc (s : State) (e : Err) (r : Option Chk) : (s.raiseLosingHrp e r).acc = s.acc := rfl
@[simp] theorem State.raiseLosingHrp_bits (s : State) (e : Err) (r : Option Chk) :
    (s.raiseLosingHrp e r).bits = s.bits := rfl
@[simp] theorem State.raiseLosingHrp_off (s : State) (e : Err) (r : Option Chk) : (s.raiseLosingHrp e r).off = s.off := rfl
@[simp] theorem State.raiseLosingHrp_nrec (s : State) (e : Err) (r : Option Chk) :
    (s.raiseLosingHrp e r).nrec = s.nrec := rfl
@[simp] theorem State.raiseLosingHrp_pstate (s : State) (e : Err) (r : Option Chk) :
    (s.raiseLosingHrp e r).pstate = s.pstate := rfl
@[simp] theorem State.raiseLosingHrp_scratchHrp (s : State) (e : Err) (r : Option Chk) :
    (s.raiseLosingHrp e r).scratchHrp = s.scratchHrp := rfl
@[simp] theorem State.raiseLosingHrp_scratchWords (s : State) (e : Err) (r : Option Chk) :
    (s.raiseLosingHrp e r).scratchWords = s.scratchWords := rfl
@[simp] theorem State.raiseLosingHrp_drawn (s : State) (e : Err) (r : Option Chk) :
    (s.raiseLosingHrp e r).drawn = s.drawn + 1 := rfl
@[simp] theorem State.raiseLosingHrp_inputs (s : State) (e : Err) (r : Option Chk) :
    (s.raiseLosingHrp e r).inputs = s.inputs := rfl
@[simp] theorem State.raiseLosingHrp_readLog (s : State) (e : Err) (r : Option Chk) :
    (s.raiseLosingHrp e r).readLog = s.readLog := rfl

/-! ### State.raiseLosingTable -/

@[simp] theorem State.raiseLosingTable_cmd (s : State) (e : Err) : (s.raiseLosingTable e).cmd = s.cmd := rfl
@[simp] theorem State.raiseLosingTable_status (s : State) (e : Err) : (s.raiseLosingTable e).status = .failed e := rfl
@[simp] theorem State.raiseLosingTable_inLen (s : State) (e : Err) : (s.raiseLosingTable e).inLen = s.inLen := rfl
@[simp] theorem State.raiseLosingTable_hrpLen (s : State) (e : Err) : (s.raiseLosingTable e).hrpLen = s.hrpLen := rfl
@[simp] theorem State.raiseLosingTable_outLen (s : State) (e : Err) : (s.raiseLosingTable e).outLen = 0 := rfl
@[simp] theorem State.raiseLosingTable_maxLen (s : State) (e : Err) : (s.raiseLosingTable e).maxLen = s.maxLen := rfl
@[simp] theorem State.raiseLosingTable_chk (s : State) (e : Err) : (s.raiseLosingTable e).chk = s.chk := rfl
@[simp] theorem State.raiseLosingTable_version (s : State) (e : Err) : (s.raiseLosingTable e).version = s.version := rfl
@[simp] theorem State.raiseLosingTable_tlvCount (s : State) (e : Err) : (s.raiseLosingTable e).tlvCount = 0 := rfl
@[simp] theorem State.raiseLosingTable_tlvFound (s : State) (e : Err) : (s.raiseLosingTable e).tlvFound = s.tlvFound := rfl
@[simp] theorem State.raiseLosingTable_tlvEnd (s : State) (e : Err) : (s.raiseLosingTable e).tlvEnd = s.tlvEnd := rfl
@[simp] theorem State.raiseLosingTable_tlvRec (s : State) (e : Err) :
    (s.raiseLosingTable e).tlvRec = Vector.ofFn fun i : Fin 16 => Record.ofWord (Config.freeRec s.drawn i) := rfl
@[simp] theorem State.raiseLosingTable_mem (s : State) (e : Err) : (s.raiseLosingTable e).mem = s.mem := rfl
@[simp] theorem State.raiseLosingTable_pending (s : State) (e : Err) : (s.raiseLosingTable e).pending = none := rfl
@[simp] theorem State.raiseLosingTable_acc (s : State) (e : Err) : (s.raiseLosingTable e).acc = s.acc := rfl
@[simp] theorem State.raiseLosingTable_bits (s : State) (e : Err) : (s.raiseLosingTable e).bits = s.bits := rfl
@[simp] theorem State.raiseLosingTable_off (s : State) (e : Err) : (s.raiseLosingTable e).off = s.off := rfl
@[simp] theorem State.raiseLosingTable_nrec (s : State) (e : Err) : (s.raiseLosingTable e).nrec = s.nrec := rfl
@[simp] theorem State.raiseLosingTable_pstate (s : State) (e : Err) : (s.raiseLosingTable e).pstate = s.pstate := rfl
@[simp] theorem State.raiseLosingTable_scratchHrp (s : State) (e : Err) :
    (s.raiseLosingTable e).scratchHrp = s.scratchHrp := rfl
@[simp] theorem State.raiseLosingTable_scratchWords (s : State) (e : Err) :
    (s.raiseLosingTable e).scratchWords = s.scratchWords := rfl
@[simp] theorem State.raiseLosingTable_drawn (s : State) (e : Err) : (s.raiseLosingTable e).drawn = s.drawn + 1 := rfl
@[simp] theorem State.raiseLosingTable_inputs (s : State) (e : Err) : (s.raiseLosingTable e).inputs = s.inputs := rfl
@[simp] theorem State.raiseLosingTable_readLog (s : State) (e : Err) : (s.raiseLosingTable e).readLog = s.readLog := rfl

/-! ### State.holdConverter -/

@[simp] theorem State.holdConverter_cmd (s : State) (c : Conversion) : (s.holdConverter c).cmd = s.cmd := rfl
@[simp] theorem State.holdConverter_status (s : State) (c : Conversion) : (s.holdConverter c).status = s.status := rfl
@[simp] theorem State.holdConverter_inLen (s : State) (c : Conversion) : (s.holdConverter c).inLen = s.inLen := rfl
@[simp] theorem State.holdConverter_hrpLen (s : State) (c : Conversion) : (s.holdConverter c).hrpLen = s.hrpLen := rfl
@[simp] theorem State.holdConverter_outLen (s : State) (c : Conversion) : (s.holdConverter c).outLen = s.outLen := rfl
@[simp] theorem State.holdConverter_maxLen (s : State) (c : Conversion) : (s.holdConverter c).maxLen = s.maxLen := rfl
@[simp] theorem State.holdConverter_chk (s : State) (c : Conversion) : (s.holdConverter c).chk = s.chk := rfl
@[simp] theorem State.holdConverter_version (s : State) (c : Conversion) : (s.holdConverter c).version = s.version := rfl
@[simp] theorem State.holdConverter_tlvCount (s : State) (c : Conversion) : (s.holdConverter c).tlvCount = s.tlvCount := rfl
@[simp] theorem State.holdConverter_tlvFound (s : State) (c : Conversion) : (s.holdConverter c).tlvFound = s.tlvFound := rfl
@[simp] theorem State.holdConverter_tlvEnd (s : State) (c : Conversion) : (s.holdConverter c).tlvEnd = s.tlvEnd := rfl
@[simp] theorem State.holdConverter_tlvRec (s : State) (c : Conversion) : (s.holdConverter c).tlvRec = s.tlvRec := rfl
@[simp] theorem State.holdConverter_mem (s : State) (c : Conversion) : (s.holdConverter c).mem = s.mem := rfl
@[simp] theorem State.holdConverter_pending (s : State) (c : Conversion) : (s.holdConverter c).pending = s.pending := rfl
@[simp] theorem State.holdConverter_acc (s : State) (c : Conversion) : (s.holdConverter c).acc = c.acc := rfl
@[simp] theorem State.holdConverter_bits (s : State) (c : Conversion) : (s.holdConverter c).bits = c.bits := rfl
@[simp] theorem State.holdConverter_off (s : State) (c : Conversion) : (s.holdConverter c).off = s.off := rfl
@[simp] theorem State.holdConverter_nrec (s : State) (c : Conversion) : (s.holdConverter c).nrec = s.nrec := rfl
@[simp] theorem State.holdConverter_pstate (s : State) (c : Conversion) : (s.holdConverter c).pstate = s.pstate := rfl
@[simp] theorem State.holdConverter_scratchHrp (s : State) (c : Conversion) :
    (s.holdConverter c).scratchHrp = s.scratchHrp := rfl
@[simp] theorem State.holdConverter_scratchWords (s : State) (c : Conversion) :
    (s.holdConverter c).scratchWords = s.scratchWords := rfl
@[simp] theorem State.holdConverter_drawn (s : State) (c : Conversion) : (s.holdConverter c).drawn = s.drawn := rfl
@[simp] theorem State.holdConverter_inputs (s : State) (c : Conversion) : (s.holdConverter c).inputs = s.inputs := rfl
@[simp] theorem State.holdConverter_readLog (s : State) (c : Conversion) : (s.holdConverter c).readLog = s.readLog := rfl

/-! ### State.holdScratch -/

@[simp] theorem State.holdScratch_cmd (s : State) (d : DecodedText) : (s.holdScratch d).cmd = s.cmd := rfl
@[simp] theorem State.holdScratch_status (s : State) (d : DecodedText) : (s.holdScratch d).status = s.status := rfl
@[simp] theorem State.holdScratch_inLen (s : State) (d : DecodedText) : (s.holdScratch d).inLen = s.inLen := rfl
@[simp] theorem State.holdScratch_hrpLen (s : State) (d : DecodedText) : (s.holdScratch d).hrpLen = s.hrpLen := rfl
@[simp] theorem State.holdScratch_outLen (s : State) (d : DecodedText) : (s.holdScratch d).outLen = s.outLen := rfl
@[simp] theorem State.holdScratch_maxLen (s : State) (d : DecodedText) : (s.holdScratch d).maxLen = s.maxLen := rfl
@[simp] theorem State.holdScratch_chk (s : State) (d : DecodedText) : (s.holdScratch d).chk = s.chk := rfl
@[simp] theorem State.holdScratch_version (s : State) (d : DecodedText) : (s.holdScratch d).version = s.version := rfl
@[simp] theorem State.holdScratch_tlvCount (s : State) (d : DecodedText) : (s.holdScratch d).tlvCount = s.tlvCount := rfl
@[simp] theorem State.holdScratch_tlvFound (s : State) (d : DecodedText) : (s.holdScratch d).tlvFound = s.tlvFound := rfl
@[simp] theorem State.holdScratch_tlvEnd (s : State) (d : DecodedText) : (s.holdScratch d).tlvEnd = s.tlvEnd := rfl
@[simp] theorem State.holdScratch_tlvRec (s : State) (d : DecodedText) : (s.holdScratch d).tlvRec = s.tlvRec := rfl
@[simp] theorem State.holdScratch_mem (s : State) (d : DecodedText) : (s.holdScratch d).mem = s.mem := rfl
@[simp] theorem State.holdScratch_pending (s : State) (d : DecodedText) : (s.holdScratch d).pending = s.pending := rfl
@[simp] theorem State.holdScratch_acc (s : State) (d : DecodedText) : (s.holdScratch d).acc = s.acc := rfl
@[simp] theorem State.holdScratch_bits (s : State) (d : DecodedText) : (s.holdScratch d).bits = s.bits := rfl
@[simp] theorem State.holdScratch_off (s : State) (d : DecodedText) : (s.holdScratch d).off = s.off := rfl
@[simp] theorem State.holdScratch_nrec (s : State) (d : DecodedText) : (s.holdScratch d).nrec = s.nrec := rfl
@[simp] theorem State.holdScratch_pstate (s : State) (d : DecodedText) : (s.holdScratch d).pstate = s.pstate := rfl
@[simp] theorem State.holdScratch_scratchHrp (s : State) (d : DecodedText) : (s.holdScratch d).scratchHrp = d.hrp := rfl
@[simp] theorem State.holdScratch_scratchWords (s : State) (d : DecodedText) :
    (s.holdScratch d).scratchWords = d.words := rfl
@[simp] theorem State.holdScratch_drawn (s : State) (d : DecodedText) : (s.holdScratch d).drawn = s.drawn := rfl
@[simp] theorem State.holdScratch_inputs (s : State) (d : DecodedText) : (s.holdScratch d).inputs = s.inputs := rfl
@[simp] theorem State.holdScratch_readLog (s : State) (d : DecodedText) : (s.holdScratch d).readLog = s.readLog := rfl

/-! ### State.holdParser -/

@[simp] theorem State.holdParser_cmd (s : State) (p : Parser) : (s.holdParser p).cmd = s.cmd := rfl
@[simp] theorem State.holdParser_status (s : State) (p : Parser) : (s.holdParser p).status = s.status := rfl
@[simp] theorem State.holdParser_inLen (s : State) (p : Parser) : (s.holdParser p).inLen = s.inLen := rfl
@[simp] theorem State.holdParser_hrpLen (s : State) (p : Parser) : (s.holdParser p).hrpLen = s.hrpLen := rfl
@[simp] theorem State.holdParser_outLen (s : State) (p : Parser) : (s.holdParser p).outLen = s.outLen := rfl
@[simp] theorem State.holdParser_maxLen (s : State) (p : Parser) : (s.holdParser p).maxLen = s.maxLen := rfl
@[simp] theorem State.holdParser_chk (s : State) (p : Parser) : (s.holdParser p).chk = s.chk := rfl
@[simp] theorem State.holdParser_version (s : State) (p : Parser) : (s.holdParser p).version = s.version := rfl
@[simp] theorem State.holdParser_tlvCount (s : State) (p : Parser) : (s.holdParser p).tlvCount = s.tlvCount := rfl
@[simp] theorem State.holdParser_tlvFound (s : State) (p : Parser) : (s.holdParser p).tlvFound = s.tlvFound := rfl
@[simp] theorem State.holdParser_tlvEnd (s : State) (p : Parser) : (s.holdParser p).tlvEnd = BitVec.ofNat 16 p.off := rfl
@[simp] theorem State.holdParser_tlvRec (s : State) (p : Parser) : (s.holdParser p).tlvRec = s.tlvRec := rfl
@[simp] theorem State.holdParser_mem (s : State) (p : Parser) : (s.holdParser p).mem = s.mem := rfl
@[simp] theorem State.holdParser_pending (s : State) (p : Parser) : (s.holdParser p).pending = s.pending := rfl
@[simp] theorem State.holdParser_acc (s : State) (p : Parser) : (s.holdParser p).acc = s.acc := rfl
@[simp] theorem State.holdParser_bits (s : State) (p : Parser) : (s.holdParser p).bits = s.bits := rfl
@[simp] theorem State.holdParser_off (s : State) (p : Parser) : (s.holdParser p).off = BitVec.ofNat 16 p.off := rfl
@[simp] theorem State.holdParser_nrec (s : State) (p : Parser) : (s.holdParser p).nrec = p.nrec := rfl
@[simp] theorem State.holdParser_pstate (s : State) (p : Parser) : (s.holdParser p).pstate = p.state := rfl
@[simp] theorem State.holdParser_scratchHrp (s : State) (p : Parser) : (s.holdParser p).scratchHrp = s.scratchHrp := rfl
@[simp] theorem State.holdParser_scratchWords (s : State) (p : Parser) :
    (s.holdParser p).scratchWords = s.scratchWords := rfl
@[simp] theorem State.holdParser_drawn (s : State) (p : Parser) : (s.holdParser p).drawn = s.drawn := rfl
@[simp] theorem State.holdParser_inputs (s : State) (p : Parser) : (s.holdParser p).inputs = s.inputs := rfl
@[simp] theorem State.holdParser_readLog (s : State) (p : Parser) : (s.holdParser p).readLog = s.readLog := rfl

/-! ### State.resetNow -/

@[simp] theorem State.resetNow_cmd (s : State) : (s.resetNow).cmd = State.reset.cmd := rfl
@[simp] theorem State.resetNow_status (s : State) : (s.resetNow).status = State.reset.status := rfl
@[simp] theorem State.resetNow_inLen (s : State) : (s.resetNow).inLen = State.reset.inLen := rfl
@[simp] theorem State.resetNow_hrpLen (s : State) : (s.resetNow).hrpLen = State.reset.hrpLen := rfl
@[simp] theorem State.resetNow_outLen (s : State) : (s.resetNow).outLen = State.reset.outLen := rfl
@[simp] theorem State.resetNow_maxLen (s : State) : (s.resetNow).maxLen = State.reset.maxLen := rfl
@[simp] theorem State.resetNow_chk (s : State) : (s.resetNow).chk = State.reset.chk := rfl
@[simp] theorem State.resetNow_version (s : State) : (s.resetNow).version = State.reset.version := rfl
@[simp] theorem State.resetNow_tlvCount (s : State) : (s.resetNow).tlvCount = State.reset.tlvCount := rfl
@[simp] theorem State.resetNow_tlvFound (s : State) : (s.resetNow).tlvFound = State.reset.tlvFound := rfl
@[simp] theorem State.resetNow_tlvEnd (s : State) : (s.resetNow).tlvEnd = State.reset.tlvEnd := rfl
@[simp] theorem State.resetNow_tlvRec (s : State) : (s.resetNow).tlvRec = State.reset.tlvRec := rfl
@[simp] theorem State.resetNow_mem (s : State) : (s.resetNow).mem = ⟨[], s.drawn, s.drawn, s.drawn⟩ := rfl
@[simp] theorem State.resetNow_pending (s : State) : (s.resetNow).pending = State.reset.pending := rfl
@[simp] theorem State.resetNow_acc (s : State) : (s.resetNow).acc = State.reset.acc := rfl
@[simp] theorem State.resetNow_bits (s : State) : (s.resetNow).bits = State.reset.bits := rfl
@[simp] theorem State.resetNow_off (s : State) : (s.resetNow).off = State.reset.off := rfl
@[simp] theorem State.resetNow_nrec (s : State) : (s.resetNow).nrec = State.reset.nrec := rfl
@[simp] theorem State.resetNow_pstate (s : State) : (s.resetNow).pstate = State.reset.pstate := rfl
@[simp] theorem State.resetNow_scratchHrp (s : State) : (s.resetNow).scratchHrp = State.reset.scratchHrp := rfl
@[simp] theorem State.resetNow_scratchWords (s : State) : (s.resetNow).scratchWords = State.reset.scratchWords := rfl
@[simp] theorem State.resetNow_drawn (s : State) : (s.resetNow).drawn = s.drawn + 1 := rfl
@[simp] theorem State.resetNow_inputs (s : State) : (s.resetNow).inputs = s.inputs := rfl
@[simp] theorem State.resetNow_readLog (s : State) : (s.resetNow).readLog = s.readLog := rfl

end Sys2Proof.Machine
end

