-- ==== Sys2Proof/Laws/Exec.lean ====
section
/-! SUPPORT. What each command can do, said once: an equation where it has one way to end, the list of its ways to end where it has
several. Proofs about a command cite these and unfold nothing. -/

namespace Sys2Proof.Machine

/-! ### Commands with one way to end -/

theorem exec_nop (s : State) : exec .nop s = .next (s.noOutput.succeed encNone) := rfl

theorem exec_chkInit (s : State) : exec .chkInit s = .next ({ s with chk := 0x00000001 }.noOutput.succeed encNone) := rfl

theorem exec_chkStep (v : Nat) (s : State) :
    exec (.chkStep v) s = .next ({ s with chk := absorb s.chk (BitVec.ofNat 5 v) }.noOutput.succeed encNone) := rfl

theorem exec_chkFinal (e : Encoding) (s : State) :
    exec (.chkFinal e) s =
      .next (({ s with chk := finalChk e s.chk }.putOutput (chkChars (finalChk e s.chk))).succeed (encField e)) := rfl

theorem exec_tlvFind (t : Nat) (s : State) :
    exec (.tlvFind t) s = .next ({ s with tlvFound := findFirst t s.records }.noOutput.succeed encNone) := rfl

theorem exec_xfer (s : State) :
    exec .xfer s = .next ({ s with mem := s.mem.storeBuffer .ibuf s.output, inLen := s.outLen }.succeed encNone) := rfl

/-! ### Commands with several -/

theorem exec_chkHrp_cases (s : State) :
    (∃ e, checkHrpForEncode s.hrp = some e ∧ exec .chkHrp s = .next (s.raiseNoOutput e)) ∨
    (checkHrpForEncode s.hrp = none ∧
      exec .chkHrp s = .next ({ s with chk := polymod s.chk (hrpExpand s.hrp) }.noOutput.succeed encNone)) := by
  simp only [exec, execChkHrp]
  cases checkHrpForEncode s.hrp with
  | some e => exact .inl ⟨e, rfl, rfl⟩
  | none => exact .inr ⟨rfl, rfl⟩

theorem encodeInto_error {e : Encoding} {h ws : Bytes} {l : Nat} {er : Err} (s : State) (he : encodeText e h ws l = .error er) :
    s.encodeInto e h ws l = s.raiseLosingChk er none := by rw [State.encodeInto, he]

theorem encodeInto_ok {e : Encoding} {h ws : Bytes} {l : Nat} {p : Bytes × Chk} (s : State)
    (he : encodeText e h ws l = .ok p) :
    s.encodeInto e h ws l = ({ s with chk := p.2 }.putOutput p.1).succeed (encField e) := by rw [State.encodeInto, he]

theorem exec_b32Encode_cases (e : Encoding) (s : State) :
    (∃ er, encodeText e s.hrp s.input s.textLimit = .error er ∧
      exec (.b32Encode e) s = .next (s.raiseLosingChk er none)) ∨
    (∃ p, encodeText e s.hrp s.input s.textLimit = .ok p ∧
      exec (.b32Encode e) s = .next (({ s with chk := p.2 }.putOutput p.1).succeed (encField e))) := by
  simp only [exec, execB32Encode]
  cases h : encodeText e s.hrp s.input s.textLimit with
  | error er => exact .inl ⟨er, rfl, by rw [encodeInto_error s h]⟩
  | ok p => exact .inr ⟨p, rfl, by rw [encodeInto_ok s h]⟩

theorem exec_b32Decode_cases (s : State) :
    (∃ er, decodeText s.input s.textLimit = .error er ∧
      exec .b32Decode s = .next (s.raiseLosingHrp er.code er.residue)) ∨
    (∃ g, decodeText s.input s.textLimit = .ok g ∧
      exec .b32Decode s =
        .next (({ s with
          chk := g.residue, mem := s.mem.storeBuffer .hbuf g.hrp
          hrpLen := BitVec.ofNat 16 g.hrp.length }.putOutput (g.words.map byteOfSym)).succeed (encField g.enc))) := by
  simp only [exec, execB32Decode]
  cases decodeText s.input s.textLimit with
  | error er => exact .inl ⟨er, rfl, rfl⟩
  | ok g => exact .inr ⟨g, rfl, rfl⟩

theorem exec_convert_cases (d : Direction) (p : Padding) (s : State) :
    (∃ e, (convertBits d p s.input).error = some e ∧
      exec (.convert d p) s = .next ((s.holdConverter (convertBits d p s.input)).raiseLosingOutput e)) ∨
    ((convertBits d p s.input).error = none ∧
      exec (.convert d p) s =
        .next (((s.holdConverter (convertBits d p s.input)).putOutput (convertBits d p s.input).out).succeed encNone)) := by
  simp only [exec, execConvert]
  cases h : (convertBits d p s.input).error with
  | some e => exact .inl ⟨e, rfl, rfl⟩
  | none => exact .inr ⟨rfl, rfl⟩

/-- What SEGWIT_ENCODE encodes: the version symbol, if the mode has one, and the converted program (R171). -/
def segwitWords (m : SegwitMode) (s : State) : Bytes :=
  versionWord m s.version ++ (convertBits .to5 .pad s.input).out

theorem exec_segwitEncode_cases (m : SegwitMode) (s : State) :
    (∃ e, segwitEncodeFault m s.version s.input.length = some e ∧
      exec (.segwitEncode m) s = .next (s.raiseLosingChk e none)) ∨
    (segwitEncodeFault m s.version s.input.length = none ∧
      ((∃ e, (convertBits .to5 .pad s.input).error = some e ∧
          exec (.segwitEncode m) s = .next ((s.holdConverter (convertBits .to5 .pad s.input)).raiseLosingChk e none)) ∨
       ((convertBits .to5 .pad s.input).error = none ∧
         ((∃ e, encodeText (segwitEncoding m s.version) s.hrp (segwitWords m s) segwitMaxLen = .error e ∧
            exec (.segwitEncode m) s =
              .next ((s.holdConverter (convertBits .to5 .pad s.input)).raiseLosingChk e none)) ∨
          (∃ p, encodeText (segwitEncoding m s.version) s.hrp (segwitWords m s) segwitMaxLen = .ok p ∧
            exec (.segwitEncode m) s =
              .next (({ s.holdConverter (convertBits .to5 .pad s.input) with chk := p.2 }.putOutput p.1).succeed
                (encField (segwitEncoding m s.version)))))))) := by
  simp only [exec, execSegwitEncode]
  cases segwitEncodeFault m s.version s.input.length with
  | some e => exact .inl ⟨e, rfl, rfl⟩
  | none =>
    refine .inr ⟨rfl, ?_⟩
    cases hc : (convertBits .to5 .pad s.input).error with
    | some e => exact .inl ⟨e, rfl, rfl⟩
    | none =>
      refine .inr ⟨rfl, ?_⟩
      cases h : encodeText (segwitEncoding m s.version) s.hrp (segwitWords m s) segwitMaxLen with
      | error er => exact .inl ⟨er, rfl, by rw [← encodeInto_error _ h]; rfl⟩
      | ok p => exact .inr ⟨p, rfl, by rw [← encodeInto_ok _ h]; rfl⟩

/-- The state in which SEGWIT_DECODE makes its checks. -/
theorem exec_segwitDecode_cases (m : SegwitMode) (s : State) :
    (∃ te, decodeText s.input 90 = .error te ∧
      exec (.segwitDecode m) s = .next (s.raiseLosingChk te.code te.residue)) ∨
    (∃ g, decodeText s.input 90 = .ok g ∧
      ((g.hrp ≠ s.hrp ∧ exec (.segwitDecode m) s = .next ((s.holdScratch g).raiseLosingChk .unrecognizedPrefix none)) ∨
       (g.hrp = s.hrp ∧
        ((∃ e, segwitVersion m g.enc g.words = .error e ∧
            exec (.segwitDecode m) s = .next ((s.holdScratch g).raiseLosingChk e none)) ∨
         (∃ v ws c, segwitVersion m g.enc g.words = .ok (v, ws) ∧ c = convertBits .to8 .nopad (ws.map byteOfSym) ∧
           ((∃ e, c.error = some e ∧
              exec (.segwitDecode m) s = .next (((s.holdScratch g).holdConverter c).raiseLosingChk e none)) ∨
            (c.error = none ∧
              ((badProgramLength m v c.out.length = true ∧
                  exec (.segwitDecode m) s =
                    .next (((s.holdScratch g).holdConverter c).raiseLosingChk .invalidProgramLength none)) ∨
               (badProgramLength m v c.out.length = false ∧
                  exec (.segwitDecode m) s =
                    .next (({ (s.holdScratch g).holdConverter c with version := v, chk := g.residue }.putOutput
                      c.out).succeed (encField g.enc))))))))))) := by
  simp only [exec, execSegwitDecode, show segwitMaxLen = 90 from rfl]
  cases decodeText s.input 90 with
  | error te => exact .inl ⟨te, rfl, rfl⟩
  | ok g =>
    refine .inr ⟨g, rfl, ?_⟩
    simp only [segwitDecodeScratch, show (s.holdScratch g).scratchHrp = g.hrp from rfl,
      show (s.holdScratch g).hrp = s.hrp from rfl]
    by_cases hh : g.hrp = s.hrp
    · refine .inr ⟨hh, ?_⟩
      rw [if_neg (show ¬ g.hrp ≠ s.hrp from not_not.2 hh)]
      simp only [show (s.holdScratch g).scratchWords = g.words from rfl]
      cases hv : segwitVersion m g.enc g.words with
      | error e => exact .inl ⟨e, rfl, rfl⟩
      | ok p =>
        obtain ⟨v, ws⟩ := p
        refine .inr ⟨v, ws, _, rfl, rfl, ?_⟩
        cases hc : (convertBits .to8 .nopad (ws.map byteOfSym)).error with
        | some e => exact .inl ⟨e, rfl, by simp only [hc]⟩
        | none =>
          refine .inr ⟨rfl, ?_⟩
          cases hb : badProgramLength m v (convertBits .to8 .nopad (ws.map byteOfSym)).out.length with
          | true => exact .inl ⟨rfl, by simp only [hc, hb, if_true]⟩
          | false => exact .inr ⟨rfl, by simp only [hc, hb, Bool.false_eq_true, if_false]⟩
    · exact .inl ⟨hh, by rw [if_pos (show g.hrp ≠ s.hrp from hh)]⟩

theorem exec_tlvParse_cases (s : State) :
    (∃ e, (parseAll s.input s.tlvRec).code = some e ∧
      exec .tlvParse s = .next ((s.holdParser (parseAll s.input s.tlvRec)).raiseLosingTable e)) ∨
    ((parseAll s.input s.tlvRec).code = none ∧
      exec .tlvParse s = .next ({ s.holdParser (parseAll s.input s.tlvRec) with
        tlvCount := BitVec.ofNat 5 (parseAll s.input s.tlvRec).nrec
        tlvRec := (parseAll s.input s.tlvRec).table }.noOutput.succeed encNone)) := by
  simp only [exec, execTlvParse]
  cases (parseAll s.input s.tlvRec).code with
  | some e => exact .inl ⟨e, rfl, rfl⟩
  | none => exact .inr ⟨rfl, rfl⟩

theorem exec_tlvEncode_cases (s : State) :
    (∃ e, concatRecords s.input s.records [] = .error e ∧ exec .tlvEncode s = .next (s.raiseLosingOutput e)) ∨
    (∃ out, concatRecords s.input s.records [] = .ok out ∧
      exec .tlvEncode s = .next ((s.putOutput out).succeed encNone)) := by
  simp only [exec, execTlvEncode]
  cases concatRecords s.input s.records [] with
  | error e => exact .inl ⟨e, rfl, rfl⟩
  | ok out => exact .inr ⟨out, rfl, rfl⟩

/-! ### Every command -/

/-- How a command ends: nothing pending, and a success or an error in STATUS. -/
theorem exec_ends (i : Instr) (s : State) : ∃ t, exec i s = .next t ∧ t.pending = none ∧
    ((∃ n, t.status = .succeeded n ∧ n ≠ 3) ∨ ∃ e, t.status = .failed e) := by
  have hf : ∀ e : Encoding, encField e ≠ 3 := by intro e; cases e <;> decide
  have h0 : encNone ≠ 3 := by decide
  cases i with
  | nop => exact ⟨_, exec_nop s, rfl, .inl ⟨_, rfl, h0⟩⟩
  | chkInit => exact ⟨_, exec_chkInit s, rfl, .inl ⟨_, rfl, h0⟩⟩
  | chkStep v => exact ⟨_, exec_chkStep v s, rfl, .inl ⟨_, rfl, h0⟩⟩
  | chkHrp =>
    rcases exec_chkHrp_cases s with ⟨e, -, h⟩ | ⟨-, h⟩
    · exact ⟨_, h, rfl, .inr ⟨_, rfl⟩⟩
    · exact ⟨_, h, rfl, .inl ⟨_, rfl, h0⟩⟩
  | chkFinal e => exact ⟨_, exec_chkFinal e s, rfl, .inl ⟨_, rfl, hf e⟩⟩
  | b32Encode e =>
    rcases exec_b32Encode_cases e s with ⟨er, -, h⟩ | ⟨p, -, h⟩
    · exact ⟨_, h, rfl, .inr ⟨_, rfl⟩⟩
    · exact ⟨_, h, rfl, .inl ⟨_, rfl, hf e⟩⟩
  | b32Decode =>
    rcases exec_b32Decode_cases s with ⟨er, -, h⟩ | ⟨g, -, h⟩
    · exact ⟨_, h, rfl, .inr ⟨_, rfl⟩⟩
    · exact ⟨_, h, rfl, .inl ⟨_, rfl, hf g.enc⟩⟩
  | convert d p =>
    rcases exec_convert_cases d p s with ⟨e, -, h⟩ | ⟨-, h⟩
    · exact ⟨_, h, rfl, .inr ⟨_, rfl⟩⟩
    · exact ⟨_, h, rfl, .inl ⟨_, rfl, h0⟩⟩
  | segwitEncode m =>
    rcases exec_segwitEncode_cases m s with ⟨e, -, h⟩ | ⟨-, ⟨e, -, h⟩ | ⟨-, ⟨e, -, h⟩ | ⟨p, -, h⟩⟩⟩
    · exact ⟨_, h, rfl, .inr ⟨_, rfl⟩⟩
    · exact ⟨_, h, rfl, .inr ⟨_, rfl⟩⟩
    · exact ⟨_, h, rfl, .inr ⟨_, rfl⟩⟩
    · exact ⟨_, h, rfl, .inl ⟨_, rfl, hf _⟩⟩
  | segwitDecode m =>
    rcases exec_segwitDecode_cases m s with
      ⟨te, -, h⟩ | ⟨g, -, ⟨-, h⟩ | ⟨-, ⟨e, -, h⟩ | ⟨v, ws, c, -, -, ⟨e, -, h⟩ | ⟨-, ⟨-, h⟩ | ⟨-, h⟩⟩⟩⟩⟩
    · exact ⟨_, h, rfl, .inr ⟨_, rfl⟩⟩
    · exact ⟨_, h, rfl, .inr ⟨_, rfl⟩⟩
    · exact ⟨_, h, rfl, .inr ⟨_, rfl⟩⟩
    · exact ⟨_, h, rfl, .inr ⟨_, rfl⟩⟩
    · exact ⟨_, h, rfl, .inr ⟨_, rfl⟩⟩
    · exact ⟨_, h, rfl, .inl ⟨_, rfl, hf g.enc⟩⟩
  | tlvParse =>
    rcases exec_tlvParse_cases s with ⟨e, -, h⟩ | ⟨-, h⟩
    · exact ⟨_, h, rfl, .inr ⟨_, rfl⟩⟩
    · exact ⟨_, h, rfl, .inl ⟨_, rfl, h0⟩⟩
  | tlvFind t => exact ⟨_, exec_tlvFind t s, rfl, .inl ⟨_, rfl, h0⟩⟩
  | tlvEncode =>
    rcases exec_tlvEncode_cases s with ⟨e, -, h⟩ | ⟨out, -, h⟩
    · exact ⟨_, h, rfl, .inr ⟨_, rfl⟩⟩
    · exact ⟨_, h, rfl, .inl ⟨_, rfl, h0⟩⟩
  | xfer => exact ⟨_, exec_xfer s, rfl, .inl ⟨_, rfl, h0⟩⟩

end Sys2Proof.Machine
end

