-- ==== Sys2Proof/Laws/Framing.lean ====
section
/-! SUPPORT. What the checksum unit's and the framing sequencer's functions give (40_checksum.md, 41_bech32_framing.md): lengths, the
hrp check, the separator, and the cases of each framing function. -/

namespace Sys2Proof.Machine

open Sys2Proof.Claims

/-! ### The hrp check (R105) -/

theorem inHrpRange_iff (c : Byte) : inHrpRange c = true ↔ 33 ≤ c.toNat ∧ c.toNat ≤ 126 := by
  rw [inHrpRange, Bool.and_eq_true, decide_eq_true_iff, decide_eq_true_iff]

theorem isUpper_iff (c : Byte) : isUpper c = true ↔ 0x41 ≤ c.toNat ∧ c.toNat ≤ 0x5A := by
  rw [isUpper, Bool.and_eq_true, decide_eq_true_iff, decide_eq_true_iff]

theorem hrpByteOk_iff (c : Byte) : hrpByteOk c ↔ inHrpRange c = true ∧ isUpper c = false := by
  rw [hrpByteOk, inHrpRange_iff, ← Bool.not_eq_true, isUpper_iff, and_assoc]

/-- The error of a byte that is not accepted, as the check names it. -/
def hrpByteErr (c : Byte) : Err := if inHrpRange c then .mixedCase else .invalidCharacter

theorem code_hrpByteErr (c : Byte) : (hrpByteErr c).code = hrpByteCode c := by
  have h := inHrpRange_iff c
  by_cases hc : inHrpRange c = true
  · have := h.1 hc
    rw [hrpByteErr, if_pos hc, hrpByteCode, if_neg (by omega)]; rfl
  · have := mt h.2 hc
    rw [hrpByteErr, if_neg hc, hrpByteCode, if_pos (by omega)]; rfl

theorem hrpFault_eq_none (h : Bytes) : hrpFault h = none ↔ ∀ c ∈ h, hrpByteOk c := by
  induction h with
  | nil => simp [hrpFault]
  | cons c cs ih =>
    rw [List.forall_mem_cons, ← ih, hrpByteOk_iff, hrpFault]
    cases inHrpRange c <;> cases isUpper c <;> simp

theorem hrpFault_eq_some (pre post : Bytes) (c : Byte) (hp : ∀ x ∈ pre, hrpByteOk x) (hc : ¬ hrpByteOk c) :
    hrpFault (pre ++ c :: post) = some (hrpByteErr c) := by
  induction pre with
  | nil =>
    rw [hrpByteOk_iff] at hc
    rw [List.nil_append, hrpFault, hrpByteErr]
    cases h1 : inHrpRange c <;> cases h2 : isUpper c <;> simp_all
  | cons x pre ih =>
    have hx := (hrpByteOk_iff x).1 (hp x (by simp))
    rw [List.cons_append, hrpFault, hx.1, hx.2]
    simpa using ih fun y hy => hp y (by simp [hy])

theorem checkHrp_eq_none (h : Bytes) : checkHrpForEncode h = none ↔ h ≠ [] ∧ ∀ c ∈ h, hrpByteOk c := by
  rw [← hrpFault_eq_none, checkHrpForEncode]
  cases h <;> simp

theorem checkHrp_nil : checkHrpForEncode [] = some .tooShort := rfl

theorem checkHrp_eq_some (pre post : Bytes) (c : Byte) (hp : ∀ x ∈ pre, hrpByteOk x) (hc : ¬ hrpByteOk c) :
    checkHrpForEncode (pre ++ c :: post) = some (hrpByteErr c) := by
  rw [checkHrpForEncode, if_neg (by simp), hrpFault_eq_some pre post c hp hc]

/-! ### Text from hrp and words (R125) -/

@[simp] theorem length_chkChars (c : Chk) : (chkChars c).length = 6 := by simp [chkChars, chkSymbols]

/-- The cases of `encodeText`: an error of one of its checks, or the text and its checksum value. -/
theorem encodeText_cases (e : Encoding) (h ws : Bytes) (limit : Nat) :
    (∃ er, checkHrpForEncode h = some er ∧ encodeText e h ws limit = .error er) ∨
    (checkHrpForEncode h = none ∧ limit < h.length + 1 + ws.length + 6 ∧
      encodeText e h ws limit = .error .lengthExceeded) ∨
    (checkHrpForEncode h = none ∧ h.length + 1 + ws.length + 6 ≤ limit ∧ (∃ w ∈ ws, 31 < w.toNat) ∧
      encodeText e h ws limit = .error .invalidWord) ∨
    (checkHrpForEncode h = none ∧ h.length + 1 + ws.length + 6 ≤ limit ∧ (∀ w ∈ ws, w.toNat ≤ 31) ∧
      encodeText e h ws limit = .ok (textOf h ws (checksumOf e h ws), checksumOf e h ws)) := by
  unfold encodeText
  cases hc : checkHrpForEncode h with
  | some er => exact .inl ⟨er, rfl, rfl⟩
  | none =>
    right
    by_cases hl : limit < h.length + 1 + ws.length + 6
    · exact .inl ⟨rfl, hl, by simp [chkSymbols, hl]⟩
    · right
      by_cases hw : ∃ w ∈ ws, 31 < w.toNat
      · refine .inl ⟨rfl, by omega, hw, ?_⟩
        have : (ws.any fun w => decide (31 < w.toNat)) = true := by simpa using hw
        simp [chkSymbols, hl, this]
      · refine .inr ⟨rfl, by omega, by simpa using hw, ?_⟩
        have h1 : (ws.any fun w => decide (31 < w.toNat)) = false := by simpa using hw
        have h2 : finalChk e (polymod 1 (hrpExpand h ++ ws.map symOfByte)) = checksumOf e h ws := by
          rw [finalChk, checksumOf, polymod, polymod, ← List.foldl_append]; rfl
        have h3 : chkChars (checksumOf e h ws) = checkText (checksumOf e h ws) := by
          simp only [chkChars, checkText, chkSym, chkSymbols]
          apply List.map_congr_left
          intro i _
          rw [show 5 * (5 - i) = 25 - 5 * i by omega]
        simp only [chkSymbols, hl, h1, h2, h3, textOf, sep, List.map_map, if_false]
        rfl

theorem length_textOf (h ws : Bytes) (c : Chk) : (textOf h ws c).length = h.length + 1 + ws.length + 6 := by
  simp [textOf, checkText]
  omega

/-! ### The separator (R131) -/

theorem lastIndexOf_eq_none (x : Byte) (xs : Bytes) : lastIndexOf x xs = none ↔ x ∉ xs := by
  induction xs with
  | nil => simp [lastIndexOf]
  | cons c cs ih =>
    rw [lastIndexOf]
    cases hl : lastIndexOf x cs with
    | some p =>
      have : x ∈ cs := by
        by_contra hn; rw [ih.2 hn] at hl; simp at hl
      simp [this]
    | none =>
      have h1 := ih.1 hl
      by_cases hc : c = x
      · simp [hc]
      · simp [hc, h1, Ne.symm hc]

/-- The last `x` of a list with an `x` and none after it. -/
theorem lastIndexOf_append (x : Byte) (pre post : Bytes) (h : x ∉ post) :
    lastIndexOf x (pre ++ x :: post) = some pre.length := by
  induction pre with
  | nil => simp [lastIndexOf, (lastIndexOf_eq_none x post).2 h]
  | cons c pre ih => simp [lastIndexOf, ih]

/-- Every text with a separator is taken apart at the last one. -/
theorem exists_splits {text : Bytes} (h : 0x31 ∈ text) : ∃ pre post, Splits text pre post := by
  induction text with
  | nil => simp at h
  | cons c cs ih =>
    by_cases hc : (0x31 : Byte) ∈ cs
    · obtain ⟨pre, post, rfl, hp⟩ := ih hc
      exact ⟨c :: pre, post, rfl, hp⟩
    · rcases List.mem_cons.1 h with h | h
      · exact ⟨[], cs, by rw [h]; rfl, hc⟩
      · exact absurd h hc

/-! ### Hrp and words from text (R131) -/

/-- `decodeText` on a text taken apart at its last `1`. -/
theorem decodeText_split (text pre post : Bytes) (limit : Nat) (h : Splits text pre post) (h8 : 8 ≤ text.length)
    (hl : text.length ≤ limit) :
    decodeText text limit =
      if pre = [] ∨ post.length < 6 then .error ⟨.tooShort, none⟩ else decodeParts pre post := by
  obtain ⟨rfl, hp⟩ := h
  have h1 : lastIndexOf sep (pre ++ 0x31 :: post) = some pre.length := lastIndexOf_append 0x31 pre post hp
  have h2 : (pre ++ 0x31 :: post).length - pre.length - 1 = post.length := by simp
  simp only [decodeText, minTextLen, chkSymbols, h1, h2, show ¬ (pre ++ 0x31 :: post).length < 8 by omega,
    show ¬ limit < (pre ++ 0x31 :: post).length by omega, if_false]
  cases pre with
  | nil => simp
  | cons c pre => simp

theorem decodeText_short {text : Bytes} (limit : Nat) (h : text.length < 8) :
    decodeText text limit = .error ⟨.tooShort, none⟩ := by
  rw [decodeText, if_pos (show text.length < minTextLen from h)]

theorem decodeText_long {text : Bytes} {limit : Nat} (h8 : 8 ≤ text.length) (h : limit < text.length) :
    decodeText text limit = .error ⟨.lengthExceeded, none⟩ := by
  rw [decodeText, if_neg (show ¬ text.length < minTextLen from Nat.not_lt.2 h8), if_pos h]

theorem decodeText_noSep {text : Bytes} {limit : Nat} (h8 : 8 ≤ text.length) (hl : text.length ≤ limit) (h : 0x31 ∉ text) :
    decodeText text limit = .error ⟨.missingSeparator, none⟩ := by
  rw [decodeText, if_neg (show ¬ text.length < minTextLen from Nat.not_lt.2 h8), if_neg (Nat.not_lt.2 hl),
    (lastIndexOf_eq_none sep text).2 h]

theorem mapM_symOf_eq_some (xs : Bytes) (d : List Sym) : xs.mapM symOf = some d ↔ xs.map symOf = d.map some := by
  induction xs generalizing d with
  | nil => cases d <;> simp
  | cons x xs ih =>
    rw [List.mapM_cons, List.map_cons]
    cases hx : symOf x with
    | none => cases d <;> simp
    | some v =>
      cases hm : xs.mapM symOf with
      | none =>
        cases d with
        | nil => simp
        | cons w d =>
          simp only [Option.bind_eq_bind, Option.bind_some, Option.bind_none, List.map_cons, List.cons.injEq, reduceCtorEq,
            false_iff, not_and]
          intro _ he
          have := (ih d).2 he
          rw [hm] at this; simp at this
      | some vs =>
        have h1 := (ih vs).1 hm
        cases d with
        | nil => simp
        | cons w d =>
          have h2 : vs.map some = d.map some ↔ vs = d := by
            constructor
            · exact fun h => List.map_injective_iff.2 (Option.some_injective _) h
            · exact fun h => by rw [h]
          simp [h1, h2]

theorem mapM_symOf_eq_none (xs : Bytes) : xs.mapM symOf = none ↔ none ∈ xs.map symOf := by
  induction xs with
  | nil => simp
  | cons x xs ih =>
    rw [List.mapM_cons, List.map_cons, List.mem_cons, ← ih]
    cases hx : symOf x with
    | none => simp
    | some v => cases hm : xs.mapM symOf <;> simp

/-- A letter in a text stands before or after its separator, for `1` is no letter (R9). -/
theorem mixed_split {text pre post : Bytes} (h : Splits text pre post) :
    ((pre ++ post).any isLower && (pre ++ post).any isUpper) = true ↔ mixed text := by
  have h1 : isLower (0x31 : Byte) = false := by decide
  have h2 : isUpper (0x31 : Byte) = false := by decide
  have key : ∀ f : Byte → Bool, f 0x31 = false →
      ((pre ++ post).any f = true ↔ ∃ c ∈ pre ++ 0x31 :: post, f c = true) := fun f hf => by
    simp only [List.any_eq_true, List.mem_append, List.mem_cons]
    constructor
    · rintro ⟨c, h | h, hc⟩ <;> exact ⟨c, by tauto, hc⟩
    · rintro ⟨c, h | rfl | h, hc⟩
      · exact ⟨c, .inl h, hc⟩
      · rw [hf] at hc; cases hc
      · exact ⟨c, .inr h, hc⟩
  obtain ⟨rfl, -⟩ := h
  rw [Bool.and_eq_true, key _ h1, key _ h2, mixed]

/-- The cases of `decodeParts`, in the order of its checks. -/
theorem decodeParts_cases (pre post : Bytes) :
    (((∃ c ∈ pre, inHrpRange c = false) ∨ none ∈ post.map symOf) ∧ decodeParts pre post = .error ⟨.invalidCharacter, none⟩) ∨
    (∃ d, (∀ c ∈ pre, inHrpRange c = true) ∧ post.map symOf = d.map some ∧
      ((((pre ++ post).any isLower && (pre ++ post).any isUpper) = true ∧
          decodeParts pre post = .error ⟨.mixedCase, none⟩) ∨
       (((pre ++ post).any isLower && (pre ++ post).any isUpper) = false ∧
          decodeParts pre post =
            match encodingOfResidue (polymod 1 (hrpExpand (pre.map toLower) ++ d)) with
            | none => .error ⟨.checksumInvalid, some (polymod 1 (hrpExpand (pre.map toLower) ++ d))⟩
            | some enc =>
              .ok ⟨pre.map toLower, d.take (d.length - 6), enc, polymod 1 (hrpExpand (pre.map toLower) ++ d)⟩))) := by
  unfold decodeParts
  by_cases hp : ∃ c ∈ pre, inHrpRange c = false
  · have : (pre.any fun c => !inHrpRange c) = true := by simpa using hp
    exact .inl ⟨.inl hp, by rw [if_pos this]⟩
  · have hpf : ¬ (pre.any fun c => !inHrpRange c) = true := by simpa using hp
    rw [if_neg hpf]
    cases hm : post.mapM symOf with
    | none => exact .inl ⟨.inr ((mapM_symOf_eq_none post).1 hm), rfl⟩
    | some d =>
      refine .inr ⟨d, by simpa using hp, (mapM_symOf_eq_some post d).1 hm, ?_⟩
      cases hx : (pre ++ post).any isLower && (pre ++ post).any isUpper with
      | true => exact .inl ⟨rfl, by simp⟩
      | false => exact .inr ⟨rfl, by simp only [chkSymbols]; rfl⟩

theorem encodingOfResidue_eq_some {r : Chk} {enc : Encoding} (h : encodingOfResidue r = some enc) : r = constOf enc := by
  unfold encodingOfResidue at h
  split at h
  · cases h; assumption
  · split at h
    · cases h; assumption
    · cases h

theorem encodingOfResidue_constOf (enc : Encoding) : encodingOfResidue (constOf enc) = some enc := by
  cases enc <;> decide

theorem encodingOfResidue_eq_none (r : Chk) :
    encodingOfResidue r = none ↔ r ≠ 0x00000001 ∧ r ≠ 0x2bc830a3 := by
  unfold encodingOfResidue
  by_cases h1 : r = constOf .bech32
  · simp [h1, constOf]
  · by_cases h2 : r = constOf .bech32m
    · simp [h2, constOf]
    · simp only [h1, h2, if_false, true_iff]
      exact ⟨h1, h2⟩

/-- What a text that decodes is: a non-empty hrp, the words, and its encoding's constant as the residue. -/
theorem decodeText_ok {text : Bytes} {limit : Nat} {g : DecodedText} (h : decodeText text limit = .ok g) :
    8 ≤ text.length ∧ text.length ≤ limit ∧ g.residue = constOf g.enc ∧
      ∃ pre post d, Splits text pre post ∧ pre ≠ [] ∧ 6 ≤ post.length ∧ (∀ c ∈ pre, inHrpRange c = true) ∧
        post.map symOf = d.map some ∧ g.hrp = pre.map toLower ∧ g.words = d.take (post.length - 6) ∧
        g.residue = polymod 1 (hrpExpand (pre.map toLower) ++ d) := by
  have h8 : 8 ≤ text.length := by
    by_contra hn; simp [decodeText, minTextLen, show text.length < 8 by omega] at h
  have hl : text.length ≤ limit := by
    by_contra hn
    simp [decodeText, minTextLen, show ¬ text.length < 8 by omega, show limit < text.length by omega] at h
  have hs : 0x31 ∈ text := by
    by_contra hn
    have := (lastIndexOf_eq_none sep text).2 hn
    simp [decodeText, minTextLen, show ¬ text.length < 8 by omega, show ¬ limit < text.length by omega, this] at h
  obtain ⟨pre, post, hsp⟩ := exists_splits hs
  rw [decodeText_split text pre post limit hsp h8 hl] at h
  by_cases hshort : pre = [] ∨ post.length < 6
  · rw [if_pos hshort] at h; simp at h
  · rw [if_neg hshort] at h
    rcases decodeParts_cases pre post with ⟨-, he⟩ | ⟨d, hr, hd, ⟨-, he⟩ | ⟨-, he⟩⟩
    · rw [he] at h; simp at h
    · rw [he] at h; simp at h
    · have hdl : d.length = post.length := by simpa using (congrArg List.length hd).symm
      rw [he] at h
      cases hres : encodingOfResidue (polymod 1 (hrpExpand (pre.map toLower) ++ d)) with
      | none => rw [hres] at h; simp at h
      | some enc =>
        rw [hres] at h
        simp only [Except.ok.injEq] at h
        subst h
        exact ⟨h8, hl, encodingOfResidue_eq_some hres, pre, post, d, hsp, by tauto, by omega, hr, hd, rfl, by rw [hdl], rfl⟩

/-- The decoded hrp and words fit the buffers they go to. -/
theorem decodeText_lengths {text : Bytes} {limit : Nat} {g : DecodedText} (h : decodeText text limit = .ok g) :
    g.hrp.length + 1 + g.words.length + 6 = text.length := by
  obtain ⟨-, -, -, pre, post, d, ⟨rfl, -⟩, -, h6, -, hd, h1, h2, -⟩ := decodeText_ok h
  have hdl : d.length = post.length := by simpa using (congrArg List.length hd).symm
  rw [h1, h2]
  simp [hdl]; omega

end Sys2Proof.Machine
end

