-- ==== Sys2Proof/Laws/PerInstr.lean ====
section
/-! SUPPORT. Statements about every command as syntax, one lemma per constructor. -/

namespace Sys2Proof.Laws.HighBitsZero

/-- R80, R86: no format has a field above bit 12, so a well-formed command's word is 0 there. -/
def Statement (i : Instr) : Prop := i.wellFormed = true → (encode i).extractLsb' 13 19 = 0

theorem nop : Statement .nop := fun _ => by decide
theorem chkInit : Statement .chkInit := fun _ => by decide

theorem chkStep (v : Nat) : Statement (.chkStep v) := by
  intro h
  have key : ∀ n : Fin 32, (encode (.chkStep n.val)).extractLsb' 13 19 = 0 := by decide
  exact key ⟨v, by simpa [Instr.wellFormed, Nat.lt_succ_iff] using h⟩

theorem chkHrp : Statement .chkHrp := fun _ => by decide
theorem chkFinal (e : Encoding) : Statement (.chkFinal e) := fun _ => by cases e <;> decide
theorem b32Encode (e : Encoding) : Statement (.b32Encode e) := fun _ => by cases e <;> decide
theorem b32Decode : Statement .b32Decode := fun _ => by decide

theorem convert (d : Direction) (p : Padding) : Statement (.convert d p) := fun _ => by
  cases d <;> cases p <;> decide

theorem segwitEncode (m : SegwitMode) : Statement (.segwitEncode m) := fun _ => by cases m <;> decide
theorem segwitDecode (m : SegwitMode) : Statement (.segwitDecode m) := fun _ => by cases m <;> decide
theorem tlvParse : Statement .tlvParse := fun _ => by decide

theorem tlvFind (t : Nat) : Statement (.tlvFind t) := by
  intro h
  have key : ∀ n : Fin 4, (encode (.tlvFind n.val)).extractLsb' 13 19 = 0 := by decide
  exact key ⟨t, by simpa [Instr.wellFormed, Nat.lt_succ_iff] using h⟩

theorem tlvEncode : Statement .tlvEncode := fun _ => by decide
theorem xfer : Statement .xfer := fun _ => by decide

end Sys2Proof.Laws.HighBitsZero
end

