-- ==== Sys2Proof/Laws/Segwit.lean ====
section
/-! SUPPORT. The segwit adapter's checks as the conditions they stand for (43_segwit.md R171 to R173). -/

namespace Sys2Proof.Machine

/-- A program length the adapter accepts. -/
def GoodProgramLength (m : SegwitMode) (v : BitVec 5) (n : Nat) : Prop :=
  (m = .versioned → 2 ≤ n ∧ n ≤ 40) ∧ (m = .bare ∨ v = 0 → n ∈ [20, 32])

theorem isV0Length_iff (n : Nat) : isV0Length n = true ↔ n ∈ [20, 32] := by simp [isV0Length]

theorem badProgramLength_eq_false (m : SegwitMode) (v : BitVec 5) (n : Nat) :
    badProgramLength m v n = false ↔ GoodProgramLength m v n := by
  unfold badProgramLength GoodProgramLength
  cases m with
  | bare => simp only [Bool.not_eq_false', isV0Length_iff]; simp
  | versioned =>
    simp only [Bool.or_eq_false_iff, Bool.and_eq_false_iff, decide_eq_false_iff_not, Bool.not_eq_false', isV0Length_iff,
      beq_eq_false_iff_ne, progMin, progMax, ne_eq, forall_const]
    constructor
    · rintro ⟨⟨h1, h2⟩, h3⟩
      refine ⟨⟨by omega, by omega⟩, ?_⟩
      rintro (h | h)
      · cases h
      · exact h3.resolve_left (fun hn => hn h)
    · rintro ⟨h1, h2⟩
      have := h1
      refine ⟨⟨by omega, by omega⟩, ?_⟩
      by_cases h : v = 0
      · exact .inr (h2 (.inr h))
      · exact .inl h

theorem badProgramLength_eq_true (m : SegwitMode) (v : BitVec 5) (n : Nat) :
    badProgramLength m v n = true ↔ ¬ GoodProgramLength m v n := by
  rw [← badProgramLength_eq_false, Bool.not_eq_false]

/-- R171's checks, in their order. -/
theorem segwitEncodeFault_cases (m : SegwitMode) (v : BitVec 5) (n : Nat) :
    ((m = .versioned ∧ 16 < v.toNat) ∧ segwitEncodeFault m v n = some .invalidWitnessVersion) ∨
    ((m = .versioned → v.toNat ≤ 16) ∧ ¬ GoodProgramLength m v n ∧ segwitEncodeFault m v n = some .invalidProgramLength) ∨
    ((m = .versioned → v.toNat ≤ 16) ∧ GoodProgramLength m v n ∧ segwitEncodeFault m v n = none) := by
  unfold segwitEncodeFault
  by_cases h : m = .versioned ∧ witverMax < v.toNat
  · exact .inl ⟨h, by rw [if_pos h]⟩
  · have h' : m = .versioned → v.toNat ≤ 16 := fun hm => by
      by_contra hv; exact h ⟨hm, by simp only [witverMax]; omega⟩
    rw [if_neg h]
    right
    cases hb : badProgramLength m v n with
    | true => exact .inl ⟨h', (badProgramLength_eq_true m v n).1 hb, rfl⟩
    | false => exact .inr ⟨h', (badProgramLength_eq_false m v n).1 hb, rfl⟩

/-- A program the adapter encodes is short, and never empty. -/
theorem GoodProgramLength.bounds {m : SegwitMode} {v : BitVec 5} {n : Nat} (h : GoodProgramLength m v n) : 2 ≤ n ∧ n ≤ 40 := by
  cases m with
  | bare => have := h.2 (.inl rfl); simp at this; omega
  | versioned => exact h.1 rfl

theorem segwitEncoding_versioned (v : BitVec 5) (e : Encoding) :
    e = segwitEncoding .versioned v ↔ (v = 0 ↔ e = .bech32) := by
  simp only [segwitEncoding]
  by_cases h : v = 0 <;> cases e <;> simp [h]

/-- R173's checks of the decoded words, in their order, in versioned mode. -/
theorem segwitVersion_versioned (enc : Encoding) (v : Sym) (rest : List Sym) :
    segwitVersion .versioned enc (v :: rest) =
      if 16 < v.toNat then .error .invalidWitnessVersion
      else if v = 0 ↔ enc = .bech32 then .ok (v, rest) else .error .encodingKindMismatch := by
  by_cases h : enc = segwitEncoding .versioned v
  · have h' := (segwitEncoding_versioned v enc).1 h
    simp only [segwitVersion, if_neg (not_not.2 h), if_pos h']
  · have h' := mt (segwitEncoding_versioned v enc).2 h
    simp only [segwitVersion, if_pos h, if_neg h']

theorem segwitVersion_bare (enc : Encoding) (d : List Sym) :
    segwitVersion .bare enc d = if enc = .bech32 then .ok (0, d) else .error .encodingKindMismatch := by
  cases enc <;> simp [segwitVersion]

end Sys2Proof.Machine
end

