-- ==== Sys2Proof/Laws/Tlv.lean ====
section
/-! SUPPORT. What the TLV unit's functions give (44_tlv.md): the parser ends in IDLE from any stream, its run over records laid back
to back, its ways out, the search, and the concatenator. -/

namespace Sys2Proof.Machine

open Sys2Proof.Claims

/-! ### The parser ends (R39, R192) -/

/-- How many transitions a parser can still make. -/
def Parser.fuel (p : Parser) : Nat :=
  match p.state with
  | .idle => 0
  | .fail => 1
  | .done => 2
  | .type => 3 * (16 - p.nrec) + 3
  | .len => 3 * (16 - p.nrec) + 2
  | .value => 3 * (16 - p.nrec) + 1

/-- A parser in its ranges: at most 16 records, fewer while it reads one, and OFF inside the stream. -/
def Parser.InRange (xs : Bytes) (p : Parser) : Prop :=
  p.nrec ≤ 16 ∧ p.off ≤ xs.length ∧ (p.state = .len ∨ p.state = .value → p.nrec < 16)

theorem Parser.next_fuel (xs : Bytes) (p : Parser) (h : p.InRange xs) (hi : p.state ≠ .idle) :
    (p.next xs).InRange xs ∧ (p.next xs).fuel < p.fuel := by
  obtain ⟨h1, h2, h3⟩ := h
  obtain ⟨st, off, nrec, ty, ln, code, table⟩ := p
  simp only at h1 h2 h3 hi
  cases st
  case idle => exact absurd rfl hi
  case type =>
    simp only [Parser.next, tlvMaxRecords]
    split
    · exact ⟨⟨h1, h2, by simp⟩, by simp only [Parser.fuel]; omega⟩
    · split
      · exact ⟨⟨h1, h2, by simp [Parser.failWith]⟩, by simp only [Parser.fuel, Parser.failWith]; omega⟩
      · exact ⟨⟨h1, h2, by simp only; omega⟩, by simp only [Parser.fuel]; omega⟩
  case len =>
    simp only [Parser.next]
    split
    · exact ⟨⟨h1, h2, by simp [Parser.failWith]⟩, by simp only [Parser.fuel, Parser.failWith]; omega⟩
    · exact ⟨⟨h1, h2, fun _ => h3 (by simp)⟩, by simp only [Parser.fuel]; omega⟩
  case value =>
    simp only [Parser.next]
    have := h3 (by simp)
    split
    · exact ⟨⟨h1, h2, by simp [Parser.failWith]⟩, by simp only [Parser.fuel, Parser.failWith]; omega⟩
    · exact ⟨⟨by simp only; omega, by simp only; omega, by simp⟩, by simp only [Parser.fuel]; omega⟩
  case done =>
    simp only [Parser.next]
    split
    · exact ⟨⟨h1, h2, by simp [Parser.failWith]⟩, by simp only [Parser.fuel, Parser.failWith]; omega⟩
    · exact ⟨⟨h1, h2, by simp⟩, by simp only [Parser.fuel]; omega⟩
  case fail => exact ⟨⟨h1, h2, by simp [Parser.next]⟩, by simp only [Parser.fuel, Parser.next]; omega⟩

theorem Parser.run_ends (xs : Bytes) (n : Nat) (p : Parser) (h : p.InRange xs) (hn : p.fuel ≤ n) :
    (Parser.run xs n p).state = .idle ∧ (Parser.run xs n p).InRange xs := by
  induction n generalizing p with
  | zero =>
    refine ⟨?_, h⟩
    obtain ⟨st, off, nrec, ty, ln, code, table⟩ := p
    cases st <;> simp_all [Parser.fuel, Parser.run]
  | succ n ih =>
    rw [Parser.run]
    by_cases hi : p.state = .idle
    · rw [if_pos hi]; exact ⟨hi, h⟩
    · rw [if_neg hi]
      obtain ⟨h1, h2⟩ := Parser.next_fuel xs p h hi
      exact ih _ h1 (by omega)

/-- From any stream the parser is back in IDLE, in its ranges. -/
theorem parseAll_ends (xs : Bytes) (table : Vector Record 16) :
    (parseAll xs table).state = .idle ∧ (parseAll xs table).nrec ≤ 16 ∧ (parseAll xs table).off ≤ xs.length := by
  have := Parser.run_ends xs parserBound (Parser.start table) ⟨by simp [Parser.start], by simp [Parser.start], by simp [Parser.start]⟩
    (by simp [Parser.fuel, Parser.start, parserBound, tlvMaxRecords])
  exact ⟨this.1, this.2.1, this.2.2.1⟩

/-! ### The parser's run over records (R190 to R192) -/

theorem Parser.run_succ (xs : Bytes) (n : Nat) (p : Parser) (h : p.state ≠ .idle) :
    Parser.run xs (n + 1) p = Parser.run xs n (p.next xs) := by rw [Parser.run, if_neg h]

/-- The rest of a run of an idle parser. -/
theorem Parser.run_idle (xs : Bytes) (n : Nat) (p : Parser) (h : p.state = .idle) : Parser.run xs n p = p := by
  cases n with
  | zero => rfl
  | succ n => rw [Parser.run, if_pos h]

/-- The parser after a record. -/
def Parser.took (r : Byte × Bytes) (p : Parser) : Parser :=
  { state := .type, off := p.off + 2 + r.2.length, nrec := p.nrec + 1, type := r.1, length := BitVec.ofNat 8 r.2.length
    code := p.code
    table := p.table.setIfInBounds p.nrec ⟨r.1, BitVec.ofNat 8 r.2.length, BitVec.ofNat 16 (p.off + 2)⟩ }

theorem getD_append_add (pre post : Bytes) (k : Nat) : (pre ++ post).getD (pre.length + k) 0 = post.getD k 0 := by
  simp [List.getD_eq_getElem?_getD, List.getElem?_append_right]

/-- Three transitions take one record. -/
theorem Parser.run_record (pre post : Bytes) (r : Byte × Bytes) (hr : recordOk r) (n : Nat) (p : Parser)
    (hs : p.state = .type) (ho : p.off = pre.length) (hn : p.nrec < 16) :
    Parser.run (pre ++ recordStream r ++ post) (n + 3) p = Parser.run (pre ++ recordStream r ++ post) n (p.took r) := by
  obtain ⟨st, off, nrec, ty, ln, code, table⟩ := p
  obtain ⟨rty, val⟩ := r
  obtain ⟨hr1, hr2⟩ := hr
  simp only at hs ho hn hr1 hr2
  subst hs ho
  have hlen : (BitVec.ofNat 8 val.length).toNat = val.length := by simp; omega
  have hx : pre ++ recordStream (rty, val) ++ post = pre ++ (rty :: BitVec.ofNat 8 val.length :: (val ++ post)) := by
    simp [recordStream]
  have g0 : (pre ++ (rty :: BitVec.ofNat 8 val.length :: (val ++ post))).getD pre.length 0 = rty := by
    have := getD_append_add pre (rty :: BitVec.ofNat 8 val.length :: (val ++ post)) 0
    rwa [Nat.add_zero] at this
  have g1 : (pre ++ (rty :: BitVec.ofNat 8 val.length :: (val ++ post))).getD (pre.length + 1) 0 = BitVec.ofNat 8 val.length := by
    exact getD_append_add pre (rty :: BitVec.ofNat 8 val.length :: (val ++ post)) 1
  have hL : (pre ++ (rty :: BitVec.ofNat 8 val.length :: (val ++ post))).length = pre.length + 2 + val.length + post.length := by
    simp; omega
  rw [hx, Parser.run_succ _ _ _ (by simp)]
  have n1 : Parser.next (pre ++ (rty :: BitVec.ofNat 8 val.length :: (val ++ post))) ⟨.type, pre.length, nrec, ty, ln, code, table⟩ =
      ⟨.len, pre.length, nrec, rty, ln, code, table⟩ := by
    simp only [Parser.next, tlvMaxRecords, tlvTypes, g0, hL]
    rw [if_neg (by omega), if_neg (by omega)]
  rw [n1, Parser.run_succ _ _ _ (by simp)]
  have n2 : Parser.next (pre ++ (rty :: BitVec.ofNat 8 val.length :: (val ++ post))) ⟨.len, pre.length, nrec, rty, ln, code, table⟩ =
      ⟨.value, pre.length, nrec, rty, BitVec.ofNat 8 val.length, code, table⟩ := by
    simp only [Parser.next, g1, hL]
    rw [if_neg (by omega)]
  rw [n2, Parser.run_succ _ _ _ (by simp)]
  have n3 : Parser.next (pre ++ (rty :: BitVec.ofNat 8 val.length :: (val ++ post)))
        ⟨.value, pre.length, nrec, rty, BitVec.ofNat 8 val.length, code, table⟩ =
      Parser.took (rty, val) ⟨.type, pre.length, nrec, ty, ln, code, table⟩ := by
    simp only [Parser.next, hL, hlen, Parser.took]
    rw [if_neg (by omega)]
  rw [n3]

/-- The parser after records back to back. -/
def Parser.tookAll (rs : List (Byte × Bytes)) (p : Parser) : Parser := rs.foldl (fun p r => p.took r) p

@[simp] theorem length_recordStream (r : Byte × Bytes) : (recordStream r).length = 2 + r.2.length := by
  simp [recordStream]; omega

theorem tlvStream_cons (r : Byte × Bytes) (rs : List (Byte × Bytes)) : tlvStream (r :: rs) = recordStream r ++ tlvStream rs := by
  simp [tlvStream]

theorem tlvStream_append (rs qs : List (Byte × Bytes)) : tlvStream (rs ++ qs) = tlvStream rs ++ tlvStream qs := by
  simp [tlvStream]

theorem Parser.tookAll_cons (r : Byte × Bytes) (rs : List (Byte × Bytes)) (p : Parser) :
    p.tookAll (r :: rs) = (p.took r).tookAll rs := rfl

theorem Parser.tookAll_append (rs qs : List (Byte × Bytes)) (p : Parser) :
    p.tookAll (rs ++ qs) = (p.tookAll rs).tookAll qs := by simp [Parser.tookAll]

theorem Parser.tookAll_fields (rs : List (Byte × Bytes)) (p : Parser) (hs : p.state = .type) :
    (p.tookAll rs).state = .type ∧ (p.tookAll rs).off = p.off + (tlvStream rs).length ∧
      (p.tookAll rs).nrec = p.nrec + rs.length ∧ (p.tookAll rs).code = p.code := by
  induction rs generalizing p with
  | nil => simp [Parser.tookAll, tlvStream, hs]
  | cons r rs ih =>
    obtain ⟨h1, h2, h3, h4⟩ := ih (p.took r) rfl
    rw [Parser.tookAll_cons, tlvStream_cons, List.length_append, length_recordStream, List.length_cons]
    refine ⟨h1, ?_, ?_, h4⟩
    · rw [h2]; simp only [Parser.took]; omega
    · rw [h3]; simp only [Parser.took]; omega

theorem Parser.run_records (rs : List (Byte × Bytes)) (hrs : ∀ r ∈ rs, recordOk r) (pre post : Bytes) (n : Nat) (p : Parser)
    (hs : p.state = .type) (ho : p.off = pre.length) (hn : p.nrec + rs.length ≤ 16) :
    Parser.run (pre ++ tlvStream rs ++ post) (n + 3 * rs.length) p =
      Parser.run (pre ++ tlvStream rs ++ post) n (p.tookAll rs) := by
  induction rs generalizing pre p with
  | nil => rfl
  | cons r rs ih =>
    rw [List.length_cons] at hn
    have hx : pre ++ tlvStream (r :: rs) ++ post = pre ++ recordStream r ++ (tlvStream rs ++ post) := by
      simp [tlvStream_cons]
    have hx' : pre ++ tlvStream (r :: rs) ++ post = (pre ++ recordStream r) ++ tlvStream rs ++ post := by
      simp [tlvStream_cons]
    rw [hx, List.length_cons, show n + 3 * (rs.length + 1) = n + 3 * rs.length + 3 by omega,
      Parser.run_record pre _ r (hrs r (by simp)) _ p hs ho (by omega), ← hx, hx',
      ih (fun q hq => hrs q (by simp [hq])) (pre ++ recordStream r) (p.took r) rfl
        (by simp [Parser.took, ho]; omega) (by simp only [Parser.took]; omega), Parser.tookAll_cons]

/-- Where the entries of the table come from. -/
theorem Parser.tookAll_table (rs : List (Byte × Bytes)) (p : Parser) (hn : p.nrec + rs.length ≤ 16) (i : Fin 16) :
    (p.tookAll rs).table[i] =
      if i.val < p.nrec then p.table[i]
      else match rs[i.val - p.nrec]? with
        | some r => ⟨r.1, BitVec.ofNat 8 r.2.length,
            BitVec.ofNat 16 (p.off + (tlvStream (rs.take (i.val - p.nrec))).length + 2)⟩
        | none => p.table[i] := by
  induction rs generalizing p with
  | nil => simp [Parser.tookAll]
  | cons r rs ih =>
    rw [List.length_cons] at hn
    rw [Parser.tookAll_cons, ih (p.took r) (by simp only [Parser.took]; omega)]
    have ht : ∀ j : Fin 16, j.val ≠ p.nrec → (p.took r).table[j] = p.table[j] := by
      intro j hj
      simp only [Parser.took, Fin.getElem_fin]
      exact Vector.getElem_setIfInBounds_ne j.isLt (Ne.symm hj)
    rcases Nat.lt_trichotomy i.val p.nrec with h | h | h
    · rw [if_pos (by simp only [Parser.took]; omega), if_pos h, ht i (by omega)]
    · rw [if_pos (by simp only [Parser.took]; omega), if_neg (by omega)]
      have h0 : i.val - p.nrec = 0 := by omega
      simp only [h0, List.getElem?_cons_zero, List.take_zero, Parser.took, Fin.getElem_fin]
      rw [Vector.getElem_setIfInBounds]
      simp [h, tlvStream]
    · have hk : i.val - p.nrec = (i.val - (p.nrec + 1)) + 1 := by omega
      rw [if_neg (by simp only [Parser.took]; omega), if_neg (by omega), hk]
      simp only [List.getElem?_cons_succ, List.take_succ_cons, tlvStream_cons, List.length_append, length_recordStream]
      rw [show (p.took r).nrec = p.nrec + 1 from rfl, show (p.took r).off = p.off + 2 + r.2.length from rfl]
      cases hq : rs[i.val - (p.nrec + 1)]? with
      | none => exact ht i (by omega)
      | some q =>
        simp only [Record.mk.injEq, true_and]
        congr 1
        omega

/-- The parser on a stream that begins with good records. -/
theorem parseAll_records (rs : List (Byte × Bytes)) (hrs : ∀ r ∈ rs, recordOk r) (rest : Bytes) (table : Vector Record 16)
    (hn : rs.length ≤ 16) :
    parseAll (tlvStream rs ++ rest) table =
      Parser.run (tlvStream rs ++ rest) (parserBound - 3 * rs.length) ((Parser.start table).tookAll rs) := by
  have := Parser.run_records rs hrs [] rest (parserBound - 3 * rs.length) (Parser.start table) rfl rfl
    (by simp [Parser.start]; omega)
  rw [List.nil_append] at this
  rw [← this, parseAll, show parserBound - 3 * rs.length + 3 * rs.length = parserBound by
    simp only [parserBound, tlvMaxRecords]; omega]

/-- Records that end the stream, or sixteen of them: the parser succeeds (R192, R194). -/
theorem parseAll_ok (rs : List (Byte × Bytes)) (hrs : ∀ r ∈ rs, recordOk r) (rest : Bytes) (table : Vector Record 16)
    (hne : rs ≠ []) (hn : rs.length ≤ 16) (hrest : rest = [] ∨ rs.length = 16) :
    parseAll (tlvStream rs ++ rest) table = { (Parser.start table).tookAll rs with state := .idle } := by
  rw [parseAll_records rs hrs rest table hn]
  obtain ⟨h1, h2, h3, -⟩ := Parser.tookAll_fields rs (Parser.start table) rfl
  have hpos : 0 < rs.length := List.length_pos_iff.2 hne
  obtain ⟨n, hb⟩ : ∃ n, parserBound - 3 * rs.length = n + 2 := ⟨parserBound - 3 * rs.length - 2, by
    simp only [parserBound, tlvMaxRecords]; omega⟩
  generalize hp : (Parser.start table).tookAll rs = p at h1 h2 h3
  simp only [Parser.start, Nat.zero_add] at h2 h3
  have hend : p.off = (tlvStream rs ++ rest).length ∨ p.nrec = tlvMaxRecords := by
    rcases hrest with rfl | h
    · left; simp [h2]
    · right; rw [h3, h]
  rw [hb, Parser.run_succ _ _ _ (by simp [h1])]
  have n1 : p.next (tlvStream rs ++ rest) = { p with state := .done } := by
    simp only [Parser.next, h1, if_pos hend]
  rw [n1, Parser.run_succ _ _ _ (by simp)]
  have n2 : Parser.next (tlvStream rs ++ rest) { p with state := .done } = { p with state := .idle } := by
    simp only [Parser.next]; rw [if_neg (by omega)]
  rw [n2, Parser.run_idle _ _ _ rfl]

/-- The parser's ways out with an error after fewer than 16 good records (R192). -/
theorem parseAll_error (rs : List (Byte × Bytes)) (hrs : ∀ r ∈ rs, recordOk r) (rest : Bytes) (table : Vector Record 16)
    (hn : rs.length < 16) (e : Err)
    (he : (rs = [] ∧ rest = [] ∧ e = .emptyTlvSequence) ∨
      (∃ ty more, rest = ty :: more ∧ 4 ≤ ty.toNat ∧ e = .unknownTlvType) ∨
      (∃ ty, rest = [ty] ∧ ty.toNat < 4 ∧ e = .truncatedTlv) ∨
      (∃ ty l value, rest = ty :: l :: value ∧ ty.toNat < 4 ∧ value.length < l.toNat ∧ e = .truncatedTlv)) :
    (parseAll (tlvStream rs ++ rest) table).code = some e ∧
      (parseAll (tlvStream rs ++ rest) table).off = (tlvStream rs).length := by
  rw [parseAll_records rs hrs rest table (by omega)]
  obtain ⟨h1, h2, h3, h4⟩ := Parser.tookAll_fields rs (Parser.start table) rfl
  obtain ⟨n, hb⟩ : ∃ n, parserBound - 3 * rs.length = n + 5 := ⟨parserBound - 3 * rs.length - 5, by
    simp only [parserBound, tlvMaxRecords]; omega⟩
  generalize (Parser.start table).tookAll rs = p at h1 h2 h3 h4
  simp only [Parser.start, Nat.zero_add] at h2 h3 h4
  rw [hb, Parser.run_succ _ _ _ (by simp [h1])]
  have fail_end : ∀ (m : Nat) (q : Parser), q.state = .fail →
      (Parser.run (tlvStream rs ++ rest) (m + 1) q).code = q.code ∧
      (Parser.run (tlvStream rs ++ rest) (m + 1) q).off = q.off := by
    intro m q hq
    rw [Parser.run_succ _ _ _ (by simp [hq])]
    have hq' : q.next (tlvStream rs ++ rest) = { q with state := .idle } := by simp only [Parser.next, hq]
    rw [hq', Parser.run_idle _ _ _ rfl]
    exact ⟨rfl, rfl⟩
  have g : ∀ k, (tlvStream rs ++ rest).getD ((tlvStream rs).length + k) 0 = rest.getD k 0 := getD_append_add _ _
  have g0 := g 0
  rw [Nat.add_zero] at g0
  rcases he with ⟨rfl, rfl, rfl⟩ | ⟨ty, more, rfl, hty, rfl⟩ | ⟨ty, rfl, hty, rfl⟩ | ⟨ty, l, value, rfl, hty, hv, rfl⟩
  · have n1 : p.next (tlvStream [] ++ []) = { p with state := .done } := by
      simp only [Parser.next, h1]; rw [if_pos (.inl (by simp [h2]))]
    have n2 : Parser.next (tlvStream [] ++ []) { p with state := .done } =
        { p with state := .fail, code := some .emptyTlvSequence } := by
      simp only [Parser.next, Parser.failWith]; rw [if_pos (by simpa using h3)]
    rw [n1, Parser.run_succ _ _ _ (by simp), n2]
    obtain ⟨a, b⟩ := fail_end (n + 2) { p with state := .fail, code := some .emptyTlvSequence } rfl
    exact ⟨a, b.trans h2⟩
  · have n1 : p.next (tlvStream rs ++ ty :: more) = { p with state := .fail, code := some .unknownTlvType } := by
      simp only [Parser.next, h1, h2, g0, tlvMaxRecords, tlvTypes, Parser.failWith]
      rw [if_neg (by simp; omega), if_pos (by simpa using hty)]
    rw [n1]
    obtain ⟨a, b⟩ := fail_end (n + 3) { p with state := .fail, code := some .unknownTlvType } rfl
    exact ⟨a, b.trans h2⟩
  · have n1 : p.next (tlvStream rs ++ [ty]) = { p with state := .len, type := ty } := by
      simp only [Parser.next, h1, h2, g0, tlvMaxRecords, tlvTypes, Parser.failWith]
      rw [if_neg (by simp; omega), if_neg (by simpa using hty)]
      rfl
    have n2 : Parser.next (tlvStream rs ++ [ty]) { p with state := .len, type := ty } =
        { p with state := .fail, type := ty, code := some .truncatedTlv } := by
      simp only [Parser.next, h2, Parser.failWith]; rw [if_pos (by simp)]
    rw [n1, Parser.run_succ _ _ _ (by simp), n2]
    obtain ⟨a, b⟩ := fail_end (n + 2) { p with state := .fail, type := ty, code := some .truncatedTlv } rfl
    exact ⟨a, b.trans h2⟩
  · have n1 : p.next (tlvStream rs ++ ty :: l :: value) = { p with state := .len, type := ty } := by
      simp only [Parser.next, h1, h2, g0, tlvMaxRecords, tlvTypes, Parser.failWith]
      rw [if_neg (by simp; omega), if_neg (by simpa using hty)]
      rfl
    have n2 : Parser.next (tlvStream rs ++ ty :: l :: value) { p with state := .len, type := ty } =
        { p with state := .value, type := ty, length := l } := by
      simp only [Parser.next, h2, g 1, Parser.failWith]; rw [if_neg (by simp)]; rfl
    have n3 : Parser.next (tlvStream rs ++ ty :: l :: value) { p with state := .value, type := ty, length := l } =
        { p with state := .fail, type := ty, length := l, code := some .truncatedTlv } := by
      simp only [Parser.next, h2, Parser.failWith]; rw [if_pos (by simp; omega)]
    rw [n1, Parser.run_succ _ _ _ (by simp), n2, Parser.run_succ _ _ _ (by simp), n3]
    obtain ⟨a, b⟩ := fail_end (n + 1) { p with state := .fail, type := ty, length := l, code := some .truncatedTlv } rfl
    exact ⟨a, b.trans h2⟩

/-! ### The search (R196) -/

theorem findFirst_spec (t : Nat) (rs : List Record) (hn : rs.length ≤ 16) :
    ((findFirst t rs).found = true → (findFirst t rs).index.toNat < rs.length ∧
      (∃ r, rs[(findFirst t rs).index.toNat]? = some r ∧ r.type.toNat = t) ∧
      ∀ (j : Nat) (r : Record), j < (findFirst t rs).index.toNat → rs[j]? = some r → r.type.toNat ≠ t) ∧
    ((findFirst t rs).found = false → (findFirst t rs).index = 0 ∧
      ∀ (j : Nat) (r : Record), rs[j]? = some r → r.type.toNat ≠ t) := by
  unfold findFirst
  cases h : rs.findIdx? (fun r => r.type.toNat == t) with
  | none =>
    refine ⟨by simp, fun _ => ⟨rfl, fun j r hj => ?_⟩⟩
    simpa using (List.findIdx?_eq_none_iff.1 h) r (List.mem_of_getElem? hj)
  | some i =>
    obtain ⟨hi, hp, hb⟩ := List.findIdx?_eq_some_iff_getElem.1 h
    have hi5 : (BitVec.ofNat 5 i).toNat = i := by simp; omega
    refine ⟨fun _ => ?_, by simp⟩
    simp only [hi5]
    refine ⟨hi, ⟨rs[i], by simp [hi], by simpa using hp⟩, fun j r hj hr => ?_⟩
    obtain ⟨hj', rfl⟩ := List.getElem?_eq_some_iff.1 hr
    simpa using hb j hj

/-! ### The concatenator (R197) -/

/-- How many bytes a record takes in the stream. -/
def recordSize (r : Record) : Nat := 2 + r.length.toNat

/-- A record whose value lies inside the input. -/
def FitsInput (input : Bytes) (r : Record) : Prop := r.voff.toNat + r.length.toNat ≤ input.length

theorem length_recordBytes (input : Bytes) (r : Record) (h : FitsInput input r) :
    (recordBytes input r).length = recordSize r := by
  simp [FitsInput, recordBytes, recordSize] at *; omega

theorem length_flatMap_recordBytes (input : Bytes) (rs : List Record) (h : ∀ r ∈ rs, FitsInput input r) :
    (rs.flatMap (recordBytes input)).length = (rs.map recordSize).sum := by
  induction rs with
  | nil => rfl
  | cons r rs ih =>
    rw [List.flatMap_cons, List.length_append, ih (fun q hq => h q (by simp [hq])), length_recordBytes input r (h r (by simp)),
      List.map_cons, List.sum_cons]

/-- The concatenator passes over records that fit. -/
theorem concatRecords_append (input : Bytes) (pre post : List Record) (out : Bytes) (h : ∀ r ∈ pre, FitsInput input r)
    (hl : out.length + (pre.map recordSize).sum ≤ Config.bufBytes) :
    concatRecords input (pre ++ post) out = concatRecords input post (out ++ pre.flatMap (recordBytes input)) := by
  induction pre generalizing out with
  | nil => simp
  | cons r pre ih =>
    have hr := h r (by simp)
    simp only [FitsInput, List.map_cons, List.sum_cons, recordSize] at hr hl
    have hlen := length_recordBytes input r (h r (by simp))
    rw [List.cons_append, concatRecords, if_neg (by omega), if_neg (by omega),
      ih _ (fun q hq => h q (by simp [hq])) (by simp only [List.length_append, hlen, recordSize] at *; omega)]
    simp

/-- What a stream that the concatenator gives is. -/
theorem concatRecords_ok (input : Bytes) (rs : List Record) (out res : Bytes) (h : concatRecords input rs out = .ok res)
    (hl : out.length ≤ Config.bufBytes) :
    (∀ r ∈ rs, FitsInput input r) ∧ res = out ++ rs.flatMap (recordBytes input) ∧ res.length ≤ Config.bufBytes := by
  induction rs generalizing out with
  | nil =>
    simp only [concatRecords, Except.ok.injEq] at h
    subst h; simpa using hl
  | cons r rs ih =>
    rw [concatRecords] at h
    split at h
    · cases h
    · rename_i hf
      split at h
      · cases h
      · rename_i hs
        have hr : FitsInput input r := by simp only [FitsInput]; omega
        have hlen := length_recordBytes input r hr
        obtain ⟨h1, h2, h3⟩ := ih _ h (by rw [List.length_append, hlen, recordSize]; omega)
        refine ⟨?_, by simp [h2], h3⟩
        intro q hq
        rcases List.mem_cons.1 hq with rfl | hq
        · exact hr
        · exact h1 q hq

end Sys2Proof.Machine
end

