-- ==== Sys2Proof/Tests/Slice0.lean ====
section
/-! SUPPORT. The model's own tests. Command words are written out from the table of spec/30_encoding.md R86, and expected results are
those of spec/95_test_vectors.md (the row is named), unless a comment names another rule. The witnesses show, for each
statement of the certificates with hypotheses, inputs that meet them, at the ends of their ranges. -/

namespace Sys2Proof.Tests

set_option Elab.async false

open Sys2Proof.Machine Sys2Proof.Claims

/-- The bytes of an ASCII text. -/
def ascii (t : String) : Bytes := t.toList.map fun c => BitVec.ofNat 8 c.toNat

/-- The `n` bytes of a number written in hex, most significant first. -/
def hex (n v : Nat) : Bytes := (List.range n).map fun i => BitVec.ofNat 8 (v / 256 ^ (n - 1 - i))

/-- The reset state with an hrp and an input in place. -/
def given (hrp input : Bytes) : State :=
  { State.reset with
    mem := (State.reset.mem.storeBuffer .hbuf hrp).storeBuffer .ibuf input
    hrpLen := BitVec.ofNat 16 hrp.length
    inLen := BitVec.ofNat 16 input.length }

/-- The outcome is a next state with a property. -/
def endsWith (o : Host.Outcome State Fault Refusal) (p : State → Bool) : Bool :=
  match o with
  | .next t => p t
  | .fault _ => false
  | .refused _ => false

/-- One command word given to the block in a state, and a property of the state after the step. -/
def run (w : Nat) (s : State) (p : State → Bool) : Bool := endsWith (step (s.withFetchWord 32 w)) p

theorem next_of_endsWith {o : Host.Outcome State Fault Refusal} {p : State → Bool} (h : endsWith o p = true) :
    ∃ t, o = .next t ∧ p t = true := by
  cases o with
  | next t => exact ⟨t, rfl, h⟩
  | fault f => cases h
  | refused r => cases h

/-! ### WellFormed refuses what the assembler refuses (R86) -/

theorem test_wellFormed_chkStep : (Instr.chkStep 31).wellFormed = true ∧ (Instr.chkStep 32).wellFormed = false := by decide
theorem test_wellFormed_tlvFind : (Instr.tlvFind 3).wellFormed = true ∧ (Instr.tlvFind 4).wellFormed = false := by decide

/-! ### Decoding: a word of each row (R82, R86), and reserved words (R84; X2 to X4) -/

theorem test_decode_nop : decode 0x00000000 = .ok .nop := by decide
theorem test_decode_chkInit : decode 0x00000001 = .ok .chkInit := by decide
theorem test_decode_chkStep : decode 0b00000000000000000001001100000010 = .ok (.chkStep 19) := by decide
theorem test_decode_chkHrp : decode 0x00000003 = .ok .chkHrp := by decide
theorem test_decode_chkFinal : decode 0x00000004 = .ok (.chkFinal .bech32) := by decide
theorem test_decode_b32Encode : decode 0b00000000000000000000000100010000 = .ok (.b32Encode .bech32m) := by decide
theorem test_decode_b32Decode : decode 0x00000011 = .ok .b32Decode := by decide
theorem test_decode_convert : decode 0b00000000000000000000000100100000 = .ok (.convert .to8 .nopad) := by decide
theorem test_decode_convert_pad : decode 0b00000000000000000000001000100000 = .ok (.convert .to5 .pad) := by decide
theorem test_decode_segwitEncode : decode 0b00000000000000000000000100110000 = .ok (.segwitEncode .bare) := by decide
theorem test_decode_segwitDecode : decode 0x00000031 = .ok (.segwitDecode .versioned) := by decide
theorem test_decode_tlvParse : decode 0x00000040 = .ok .tlvParse := by decide
theorem test_decode_tlvFind : decode 0b00000000000000000000001001000001 = .ok (.tlvFind 2) := by decide
theorem test_decode_tlvEncode : decode 0x00000042 = .ok .tlvEncode := by decide
theorem test_decode_xfer : decode 0x00000050 = .ok .xfer := by decide

theorem test_decode_unknown : decode 0x000000FF = .error .unknownOpcode := by decide
theorem test_decode_reserved : decode 0x00000101 = .error .nonzeroReservedBits ∧ decode 0x00000441 = .error .nonzeroReservedBits := by
  decide
theorem test_decodeTableWord : decodeTableWord 32 0x00001F02 = some (.chkStep 31) ∧ decodeTableWord 32 0x00000012 = none := by decide

/-! ### One step of each command -/

/-- X1. -/
theorem test_nop : run 0x000 { State.reset with status := ⟨false, true, true, 8, 0⟩, outLen := 6 } (fun t =>
    t.status.word == 0x00000002 && t.outLen == 0) = true := by decide +kernel

/-- R102. -/
theorem test_chkInit : run 0x001 { State.reset with chk := 0x12345678 } (fun t => t.chk == 0x00000001) = true := by
  decide +kernel

/-- K2. -/
theorem test_chkStep : run 0x002 { State.reset with chk := 0x00000023 } (fun t =>
    t.chk == 0x00000460 && t.status.word == 0x00000002) = true := by decide +kernel

/-- K5: all five generator words together. -/
theorem test_chkStep_generators : run 0x002 { State.reset with chk := 0x3fffffff } (fun t => t.chk == 0x2b326eab) = true := by
  decide +kernel

/-- K8. -/
theorem test_chkHrp : run 0x003 (given (ascii "bc") []) (fun t => t.chk == 0x02318043) = true := by decide +kernel

/-- K11. -/
theorem test_chkHrp_space : run 0x003 (given (ascii "a b") []) (fun t =>
    t.chk == 0x00000001 && t.status.word == 0x00000106) = true := by decide +kernel

/-- K12. -/
theorem test_chkFinal : run 0x004 { State.reset with chk := 0x00008c01 } (fun t =>
    t.chk == 0x15ccfe9f && t.output == ascii "2uel5l" && t.status.word == 0x00010002) = true := by decide +kernel

/-- K17. -/
theorem test_chkFinal_bech32m : run 0x104 { State.reset with chk := 0 } (fun t =>
    t.chk == 0x2bc830a3 && t.output == ascii "4usv9r") = true := by decide +kernel

/-- E5. -/
theorem test_b32Encode : run 0x010 (given (ascii "abc") [0, 1, 2, 31]) (fun t =>
    t.output == ascii "abc1qpzlw0lmet" && t.chk == 0x1cffef2b && t.outLen == 14) = true := by decide +kernel

/-- E3. -/
theorem test_b32Encode_tooLong : run 0x010 { given (ascii "a") [0, 0] with maxLen := 9 } (fun t =>
    t.status.word == 0x00000506 && t.outLen == 0) = true := by decide +kernel

/-- D6: the separator is the last `1`. -/
theorem test_b32Decode : run 0x011 (given [] (ascii "a11qqmu28jd")) (fun t =>
    t.hrp == ascii "a1" && t.output == [0, 0] && t.status.word == 0x00010002) = true := by decide +kernel

/-- D13. -/
theorem test_b32Decode_checksum : run 0x011 (given [] (ascii "a12uel5m")) (fun t =>
    t.chk == 0x00000005 && t.status.word == 0x00000306 && t.hrpLen == 0) = true := by decide +kernel

/-- C10. -/
theorem test_convert : run 0x220 (given [] [1, 2, 3, 4, 5]) (fun t => t.output == [0, 4, 1, 0, 6, 1, 0, 5]) = true := by
  decide +kernel

/-- C4. -/
theorem test_convert_padding : run 0x120 (given [] [31, 29]) (fun t =>
    t.status.word == 0x00000606 && t.outLen == 0) = true := by decide +kernel

/-- S4. -/
theorem test_segwitEncode : run 0x030 { given (ascii "bc") [0, 0] with version := 1 } (fun t =>
    t.output == ascii "bc1pqqqqqcnjqs" && t.chk == 0x0189c810 && t.status.word == 0x00020002) = true := by decide +kernel

/-- S10. -/
theorem test_segwitEncode_bare :
    run 0x130 (given (ascii "npub") (hex 32 0x3bf0c63fcb93463407af97a5e5ee64fa883d107ef9e558472c4eb9aaaefa459d)) (fun t =>
      t.output == ascii "npub180cvv07tjdrrgpa0j7j7tmnyl2yr6yr7l8j4s3evf6u64th6gkwsyjh6w6") = true := by decide +kernel

/-- S13. -/
theorem test_segwitDecode : run 0x031 (given (ascii "bc") (ascii "BC1QW508D6QEJXTDG4Y5R3ZARVARY0C5XW7KV8F3T4")) (fun t =>
    t.output == hex 20 0x751e76e8199196d454941c45d1b3a323f1433bd6 && t.version == 0 && t.chk == 0x00000001) = true := by
  decide +kernel

/-- S16. -/
theorem test_segwitDecode_kind :
    run 0x031 (given (ascii "bc") (ascii "bc1pqqqsyqcyq5rqwzqfpg9scrgwpugpzysnzs23v9ccrydpk8qarc0sagmhkq")) (fun t =>
      t.status.word == 0x00000d06 && t.outLen == 0) = true := by decide +kernel

/-- T3. -/
theorem test_tlvParse : run 0x040 (given [] (hex 6 0x030400007547)) (fun t =>
    t.tlvRec[0].word == 0x00020403 && t.tlvCount == 1 && t.tlvEnd == 6) = true := by decide +kernel

/-- T10. -/
theorem test_tlvParse_truncated : run 0x040 (given [] (hex 4 0x0001aa01)) (fun t =>
    t.status.word == 0x00000806 && t.tlvCount == 0 && t.tlvEnd == 3) = true := by decide +kernel

/-- A table of up to three records, as the host writes it. -/
def withTable (n : BitVec 5) (r0 r1 r2 : Word) (s : State) : State :=
  { s with
    tlvCount := n
    tlvRec := ((s.tlvRec.set 0 (Record.ofWord r0)).set 1 (Record.ofWord r1)).set 2 (Record.ofWord r2) }

/-- F2: V4's table. -/
theorem test_tlvFind : run 0x141 (withTable 3 0x00022000 0x00240d01 0x00331501 State.reset) (fun t =>
    t.tlvFound.word == 0x00000101) = true := by decide +kernel

/-- F3. -/
theorem test_tlvFind_absent : run 0x241 (withTable 3 0x00022000 0x00240d01 0x00331501 State.reset) (fun t =>
    t.tlvFound.word == 0x00000000) = true := by decide +kernel

/-- N1. -/
theorem test_tlvEncode : run 0x042 (withTable 1 0x00000403 0 0 (given [] (hex 4 0x00007547))) (fun t =>
    t.output == hex 6 0x030400007547 && t.status.word == 0x00000002) = true := by decide +kernel

/-- N3. -/
theorem test_tlvEncode_truncated : run 0x042 (withTable 1 0x00020403 0 0 (given [] (hex 5 0x0000754700))) (fun t =>
    t.status.word == 0x00000806 && t.outLen == 0) = true := by decide +kernel

/-- The reset state with an output in place. -/
def outputting (bs : Bytes) : State :=
  { State.reset with mem := State.reset.mem.storeBuffer .obuf bs, outLen := BitVec.ofNat 16 bs.length }

/-- X5. -/
theorem test_xfer : run 0x050 (outputting [31, 28]) (fun t =>
    t.input == [31, 28] && t.inLen == 2 && t.outLen == 2) = true := by decide +kernel

/-- X2: nothing else changes. -/
theorem test_illegal : run 0x0FF (outputting [31, 28]) (fun t =>
    t.status.word == 0x00001306 && t.output == [31, 28]) = true := by decide +kernel

/-! ### The bus and the host layer -/

/-- The state with BUSY = 1 and NOP pending. -/
def busyState : State := State.reset.start 0x00000000

/-- R63, R27: a host write of 0xFFFFFFFF to HRP_LEN stores 512, and a read of it returns that. -/
theorem test_bus : endsWith (Sys2Proof.core.run 2 { State.reset with
    inputs := [.busWrite 0x00C 4 0xFFFFFFFF, .busRead 0x00C 4] }) (fun t => t.readLog == [0x00000200]) = true := by decide +kernel

/-- H8: the host layer's decode of an naddr without AUTHOR. -/
theorem test_host_missing :
    (match ((decodeIdentifier (ascii "naddr1qqqhsqcyqqq823cu5567s")).run.run State.reset).1 with
      | .error (.error e) => e == .missingField
      | .error (.fault _) => false
      | .error (.refused _) => false
      | .ok _ => false) = true := by decide +kernel

/-! ### Witnesses: encoding and the life of a command -/

theorem witness_DecodeOfEncodeIsTheCommand : (Instr.chkStep 31).wellFormed = true ∧ (Instr.tlvFind 3).wellFormed = true := by decide

theorem witness_EncodeOfDecodeIsTheWord : decode 0x00001F02 = .ok (.chkStep 31) := by decide

theorem witness_NoWordSelectsTwoRows : ∃ r ∈ opcodeMap, r.selects 0x00000302 = true := by decide

theorem witness_StepRunsThePendingCommand :
    busyState.inputs = [] ∧ busyState.pending = some 0x00000000 ∧ decode 0x00000000 = .ok .nop := by decide

theorem witness_CmdWriteStartsTheCommand : ∃ s : State, s.status.busy = false ∧
    s.inputs = .busWrite 0x000 4 0x00000050 :: .blockTurn :: [] ∧ decode 0x00000050 = .ok .xfer :=
  ⟨{ State.reset with inputs := [.busWrite 0x000 4 0x00000050, .blockTurn] }, rfl, rfl, by decide⟩

/-- Its last clause: an illegal word. -/
theorem witness_CmdWriteStartsTheCommand_illegal : ∃ s : State, s.status.busy = false ∧
    s.inputs = .busWrite 0x000 4 0x000000FF :: .blockTurn :: [] ∧ ¬ legalWord 0x000000FF :=
  ⟨{ State.reset with inputs := [.busWrite 0x000 4 0x000000FF, .blockTurn] }, rfl, rfl, by decide⟩

theorem witness_IllegalCommandChangesOnlyStatus : ∃ s : State, s.inputs = [] ∧ s.pending = some 0x00002002 ∧
    ¬ legalWord 0x00002002 ∧ ¬ legalWord 0x00000204 ∧ ¬ legalWord 0x00000420 :=
  ⟨State.reset.start 0x00002002, rfl, rfl, by decide, by decide, by decide⟩

theorem witness_EveryPendingCommandCompletes : busyState.inputs = [] ∧ busyState.pending = some 0x00000000 := by decide

theorem witness_FailingCommandKeepsItsInputs : ∃ s w t, s.inputs = [] ∧ s.pending = some w ∧ step s = .next t ∧
    t.status.err = true := by
  obtain ⟨t, h1, h2⟩ := next_of_endsWith (o := step (State.reset.start 0x00000040)) (p := fun t => t.status.err) (by decide +kernel)
  exact ⟨_, 0x00000040, t, rfl, rfl, h1, h2⟩

theorem witness_CommandsWriteOnlyTheirRegisters : ∃ t, exec .nop State.reset = .next t := ⟨_, rfl⟩

theorem witness_SuccessKeepsTheRestOfObuf : ∃ t, State.reset.maxLen.toNat ≤ Config.bufBytes ∧
    exec (.chkFinal .bech32) State.reset = .next t ∧ t.status.err = false ∧ Instr.chkFinal .bech32 ≠ .xfer ∧
    t.outLen.toNat ≤ 6 := by
  obtain ⟨t, h1, h2⟩ := next_of_endsWith (o := exec (.chkFinal .bech32) State.reset)
    (p := fun t => !t.status.err && t.outLen.toNat ≤ 6) (by decide +kernel)
  rw [Bool.and_eq_true, Bool.not_eq_true', decide_eq_true_eq] at h2
  exact ⟨t, by decide, h1, h2.1, by decide, h2.2⟩

theorem witness_EveryStepKeepsTheInvariant : ∃ t, State.reset.Inv ∧ step State.reset = .next t := ⟨State.reset, by decide, rfl⟩

theorem witness_DutifulHostNeverStops : ∃ s : State, s.Inv ∧ s.inputs ≠ [] ∧ dutiful s.status.busy s.inputs = true :=
  ⟨{ State.reset with
      inputs := [.busWrite 0x3FFF 1 7, .busWrite 0x000 4 0, .busRead 0x3FFC 4, .blockTurn, .busWrite 0x008 4 1, .reset] },
    by decide, by decide, by decide⟩

theorem witness_OnlyHostAccessesStopTheMachine :
    step { busyState with inputs := [.busWrite 0x1000 1 0] } = .fault .hostWriteWhileBusy ∧
    step { State.reset with inputs := [.busRead 0x4000 4] } = .refused .unadmittedAccess ∧
    step { State.reset with inputs := [.busWrite 0x0FFF 1 0] } = .refused .unadmittedAccess := ⟨rfl, rfl, rfl⟩

theorem witness_ResetFromAnyState : ∃ s : State, s.status.busy = true ∧ s.inputs = .reset :: [] :=
  ⟨{ busyState with inputs := [.reset] }, rfl, rfl⟩

/-! ### Witnesses: the bus -/

/-- Meets the one hypothesis of LengthRegistersClampHostWrites and of HostWritesReadBack. -/
theorem witness_LengthRegistersClampHostWrites : State.reset.status.busy = false ∧
    (512 : Nat) = min ((0xFFFFFFFF : Word).toNat % 65536) 512 ∧ (511 : Nat) = min ((511 : Word).toNat % 65536) 512 := by decide

theorem witness_HostWritesReadBack : State.reset.status.busy = false := rfl

theorem witness_ReadOnlyAndReservedIgnoreWrites : State.reset.status.busy = false ∧
    (∀ o ∈ [0x004, 0x010, 0x024, 0x028, 0x02C, 0x03C, 0x080, 0xFFC], admitted o 4 = true) ∧
    (∀ o ∈ [0x1200, 0x1FFF, 0x2200, 0x2FFF, 0x3200, 0x3FFF], admitted o 1 = true) := by decide

theorem witness_StatusAndFoundWords : readValue 0x004 4 State.reset = 0 ∧ readValue 0x024 4 State.reset = 0 ∧
    State.reset.status.busy = false ∧ readValue (0x040 + 4 * (15 : Fin 16).val) 4 State.reset = 0 := by decide

theorem witness_BufferByteReadsBack : State.reset.status.busy = false ∧ 511 < Config.bufBytes := by decide

theorem witness_BufferWordsAreLittleEndian : State.reset.status.busy = false ∧ 508 + 3 < Config.bufBytes ∧ 508 % 4 = 0 := by
  decide

theorem witness_BusReadsChangeNothing : ∃ s : State, s.inputs = .busRead 0x3FFF 1 :: [] ∧ admitted 0x3FFF 1 = true ∧
    s.status.busy = false := ⟨{ State.reset with inputs := [.busRead 0x3FFF 1] }, rfl, by decide, rfl⟩

theorem witness_ReadsWhileBusy : ∃ u : State, busyState.status.busy = true ∧ u.status.busy = true ∧ u.drawn = busyState.drawn ∧
    u ≠ busyState ∧ admitted 0x008 4 = true ∧ admitted 0x3FFF 1 = true :=
  ⟨{ busyState with inLen := 7 }, rfl, rfl, rfl, by decide, by decide, by decide⟩

theorem witness_UnadmittedAccessesAreRefused : ∀ p ∈ [(0x4000, 4), (0x3FFE, 4), (0x4000, 1), (0x0FFF, 1), (0x1000, 2)],
    ¬ ((p.2 = 4 ∧ p.1 % 4 = 0 ∧ p.1 < 0x4000) ∨ (p.2 = 1 ∧ 0x1000 ≤ p.1 ∧ p.1 < 0x4000)) := by decide

theorem witness_WriteWhileBusyFaults : ∃ s : State, s.inputs = .busWrite 0x3FFC 4 0 :: [] ∧ s.status.busy = true :=
  ⟨{ busyState with inputs := [.busWrite 0x3FFC 4 0] }, rfl, rfl⟩

/-! ### Witnesses: checksum and framing -/

/-- An hrp with the ends of the accepted range. -/
def edgeHrp : Bytes := [33, 64, 91, 126]

theorem witness_RegisterCommandsResult : (31 : Nat) ≤ 31 ∧ (0 : Nat) ≤ 31 := by decide

theorem witness_ChkHrpResult : (given edgeHrp []).hrp ≠ [] ∧ ∀ c ∈ (given edgeHrp []).hrp, hrpByteOk c := by decide +kernel

theorem witness_ChkHrpErrors : (given [] []).hrp = [] ∧
    ∀ c ∈ [(32 : Byte), 127, 0x41, 0x5A], (given (edgeHrp ++ c :: [97]) []).hrp = edgeHrp ++ c :: [97] ∧
      (∀ x ∈ edgeHrp, hrpByteOk x) ∧ ¬ hrpByteOk c := by decide +kernel

theorem witness_PolymodIsLinear : ∃ c : Chk,
    c = polymod 1 ([3, 0, 1] ++ [0, 0, 0, 0, 0, 0]) ^^^ constOf .bech32 := ⟨_, rfl⟩

theorem witness_OneSymbolChangesTheResidue : (0 : Sym) ≠ 31 := by decide

/-- A state of E4's shape, its text as long as MAX_LEN; it meets the hypotheses of B32EncodeResult and FramingRoundTrip. -/
def encodable : State := { given edgeHrp [0, 31] with maxLen := 13 }

theorem witness_B32EncodeResult : encodable.maxLen.toNat ≤ Config.bufBytes ∧ encodable.hrp ≠ [] ∧
    (∀ c ∈ encodable.hrp, hrpByteOk c) ∧ (∀ w ∈ encodable.input, w.toNat ≤ 31) ∧
    encodable.hrp.length + 1 + encodable.input.length + 6 ≤ encodable.maxLen.toNat := by decide +kernel

theorem witness_FramingRoundTrip : encodable.maxLen.toNat ≤ Config.bufBytes ∧ encodable.hrp ≠ [] ∧
    (∀ c ∈ encodable.hrp, hrpByteOk c) ∧ (∀ w ∈ encodable.input, w.toNat ≤ 31) ∧
    encodable.hrp.length + 1 + encodable.input.length + 6 ≤ encodable.maxLen.toNat := by decide +kernel

/-- A one-character hrp, a good word and a bad one. -/
def badWord : State := given [97] [0, 32]

theorem witness_B32EncodeErrors : (given [] [0]).hrp = [] ∧
    ((given [97, 0x41, 98] []).hrp = [97] ++ 0x41 :: [98] ∧ hrpByteOk 97 ∧ ¬ hrpByteOk 0x41) ∧
    (badWord.hrp ≠ [] ∧ ∀ c ∈ badWord.hrp, hrpByteOk c) ∧ badWord.hrp.length + 1 + badWord.input.length + 6 = 10 ∧
    ∃ w ∈ badWord.input, 31 < w.toNat := by decide +kernel

/-- D4's text. -/
def d4 : State := { given [] (ascii "abc1qpzlw0lmet") with maxLen := 14 }

theorem witness_B32DecodeResult : Splits d4.input (ascii "abc") (ascii "qpzlw0lmet") ∧ 8 ≤ d4.input.length ∧
    d4.input.length ≤ d4.maxLen.toNat ∧ ascii "abc" ≠ [] ∧ 6 ≤ (ascii "qpzlw0lmet").length ∧
    (∀ c ∈ ascii "abc", 33 ≤ c.toNat ∧ c.toNat ≤ 126) ∧
    (ascii "qpzlw0lmet").map symOf = [(0 : Sym), 1, 2, 31, 14, 15, 31, 27, 25, 11].map some ∧ ¬ mixed d4.input ∧
    polymod 1 (hrpExpand ((ascii "abc").map toLower) ++ [(0 : Sym), 1, 2, 31, 14, 15, 31, 27, 25, 11]) = constOf .bech32 := by
  decide +kernel

/-- A text for each clause: D12, D20's shape, D8, D9, D11, D16, D10, D7, D13. -/
theorem witness_B32DecodeErrors : (given [] (ascii "a12uel5")).input.length < 8 ∧
    (8 ≤ (given [] (ascii "a12uel5l")).input.length ∧ 7 < (given [] (ascii "a12uel5l")).input.length) ∧
    (0x31 ∉ (given [] (ascii "pzry9x0s0muk")).input) ∧
    Splits (given [] (ascii "1pzry9x0s0muk")).input [] (ascii "pzry9x0s0muk") ∧
    (Splits (given [] (ascii "li1dgmt3")).input (ascii "li") (ascii "dgmt3") ∧ (ascii "dgmt3").length < 6) ∧
    (Splits (given [] ([0x7F] ++ ascii "1axkwrx")).input [0x7F] (ascii "axkwrx") ∧ 126 < (0x7F : Byte).toNat) ∧
    (Splits (given [] (ascii "x1b4n0q5v")).input (ascii "x") (ascii "b4n0q5v") ∧ none ∈ (ascii "b4n0q5v").map symOf) ∧
    (Splits (given [] (ascii "a12uel5L")).input (ascii "a") (ascii "2uel5L") ∧
      (ascii "2uel5L").map symOf = [(10 : Sym), 28, 25, 31, 20, 31].map some ∧ mixed (given [] (ascii "a12uel5L")).input) ∧
    (Splits (given [] (ascii "a12uel5m")).input (ascii "a") (ascii "2uel5m") ∧
      (ascii "2uel5m").map symOf = [(10 : Sym), 28, 25, 31, 20, 27].map some ∧ ¬ mixed (given [] (ascii "a12uel5m")).input ∧
      polymod 1 (hrpExpand ((ascii "a").map toLower) ++ [(10 : Sym), 28, 25, 31, 20, 27]) = 0x00000005) := by decide +kernel

/-! ### Witnesses: the converter and segwit -/

/-- C3, and 320 bytes for the padded direction. -/
theorem witness_ConvertResult :
    ((given [] [31, 28]).input.length * inBits .to8 = 10 ∧ (∀ x ∈ (given [] [31, 28]).input, x.toNat ≤ 31) ∧
      10 % outBits .to8 < inBits .to8 ∧ (stream (inBits .to8) (given [] [31, 28]).input).drop 8 = [false, false]) ∧
    (given [] (List.replicate 320 0xFF)).input.length = 320 := by decide +kernel

/-- C12, C18, C5 and C4. -/
theorem witness_ConvertErrors : (∃ x ∈ (given [] [32]).input, 31 < x.toNat) ∧
    320 < (given [] (List.replicate 321 0xFF)).input.length ∧
    ((∀ x ∈ (given [] [31, 28, 0]).input, x.toNat ≤ 31) ∧ inBits .to8 ≤ 15 % outBits .to8) ∧
    (stream (inBits .to8) (given [] [31, 29]).input).getD 9 false = true := by decide +kernel

theorem witness_ConvertRoundTrip : (given [] (List.replicate 320 0xFF)).input.length ≤ 320 := by decide +kernel

/-- S3's shape: the longest program; and S1's and V1's lengths. -/
theorem witness_SegwitEncodeResult : (∀ n ∈ [20, 32, 40], (given (ascii "bc") (List.replicate n 0)).hrp ≠ [] ∧
      (∀ c ∈ (given (ascii "bc") (List.replicate n 0)).hrp, hrpByteOk c) ∧
      2 + 1 + ((convertBits .to5 .pad (given (ascii "bc") (List.replicate n 0)).input).out.length + 1) + 6 ≤ 90) ∧
    (16 : BitVec 5).toNat ≤ 16 := by decide +kernel

theorem witness_SegwitEncodeErrors : 16 < (17 : BitVec 5).toNat ∧ (given [] [0]).input.length < 2 ∧
    40 < (given [] (List.replicate 41 0)).input.length ∧
    ((given [] (List.replicate 21 0)).input.length ≠ 20 ∧ (given [] (List.replicate 21 0)).input.length ≠ 32) ∧
    (2 ≤ (given [] (List.replicate 40 0)).input.length ∧ (given [] (List.replicate 40 0)).hrp = []) ∧
    (given [0x42] (List.replicate 20 0)).hrp = [] ++ 0x42 :: [] ∧ ¬ hrpByteOk 0x42 ∧
    90 < (given (List.replicate 19 97) (List.replicate 40 0)).hrp.length + 1 + ((8 * 40 + 4) / 5 + 1) + 6 := by decide +kernel

/-- Every condition of SegwitDecodeResult on a text's decode: S12 in versioned mode, S21 in bare mode. -/
def decodesTo (m : SegwitMode) (s : State) (v : BitVec 5) : Bool :=
  match decodeText s.input 90 with
  | .error _ => false
  | .ok g =>
    let ws := match m with
      | .bare => g.words
      | .versioned => g.words.drop 1
    let c := convertBits .to8 .nopad (ws.map byteOfSym)
    g.hrp == s.hrp && (m == .bare || g.words.head? == some v) && v.toNat ≤ 16 && c.error.isNone && 2 ≤ c.out.length &&
      c.out.length ≤ 40 && (v != 0 || (g.enc == .bech32 && (c.out.length == 20 || c.out.length == 32))) &&
      (v == 0 || g.enc == .bech32m)

theorem witness_SegwitDecodeResult :
    decodesTo .versioned (given (ascii "bc") (ascii "bc1qw508d6qejxtdg4y5r3zarvary0c5xw7kv8f3t4")) 0 = true ∧
    decodesTo .versioned (given (ascii "bc") (ascii "bc1pqqqqqcnjqs")) 1 = true ∧
    decodesTo .bare (given (ascii "npub") (ascii "npub180cvv07tjdrrgpa0j7j7tmnyl2yr6yr7l8j4s3evf6u64th6gkwsyjh6w6")) 0 = true := by
  decide +kernel

/-- A property of a text that decodes. -/
def decoded (t : String) (p : DecodedText → Bool) : Bool :=
  match decodeText (given (ascii "bc") (ascii t)).input 90 with
  | .error _ => false
  | .ok g => p g

/-- A text for each clause: D8, S14's, S16's and S15's encodings, S18, S17, S20, S19. -/
theorem witness_SegwitDecodeErrors :
    (match decodeText (given [] (ascii "pzry9x0s0muk")).input 90 with
      | .error e => e.code == .missingSeparator
      | .ok _ => false) = true ∧
    decoded "a12uel5l" (fun g => g.hrp != ascii "bc") = true ∧
    decoded "bc1pqqqqqcnjqs" (fun g => g.enc == .bech32m) = true ∧
    decoded "bc1gmk9yu" (fun g => g.hrp == ascii "bc" && g.words == []) = true ∧
    decoded "bc13w508d6qejxtdg4y5r3zarvary0c5xw7kxflzvg" (fun g => g.words.head? == some 17) = true ∧
    decoded "bc1qw508d6qejxtdg4y5r3zarvary0c5xw7kemeawh" (fun g => g.words.head? == some 0 && g.enc == .bech32m) = true ∧
    decoded "bc1pqqqsyqcyq5rqwzqfpg9scrgwpugpzysnzs23v9ccrydpk8qarc0sagmhkq" (fun g =>
      g.words.head? == some 1 && g.enc == .bech32) = true ∧
    decoded "bc1pqqq9u48rn" (fun g => g.words.head? == some 1 && g.enc == .bech32m &&
      (convertBits .to8 .nopad ((g.words.drop 1).map byteOfSym)).error == some .nonCanonicalPadding) = true ∧
    decoded "bc1q9zpgru" (fun g => g.words == [0] && g.enc == .bech32 &&
      (convertBits .to8 .nopad ([] : Bytes)).error == none) = true := by decide +kernel

theorem witness_OnlySegwitDecodeSuccessWritesVersion : ∃ s w t, s.inputs = [] ∧ s.pending = some w ∧ step s = .next t ∧
    t.version ≠ s.version := by
  obtain ⟨t, h1, h2⟩ := next_of_endsWith
    (o := step ((given (ascii "bc") (ascii "bc1pqqqqqcnjqs")).withFetchWord 32 0x031)) (p := fun t => t.version == 1)
    (by decide +kernel)
  exact ⟨_, 0x00000031, t, rfl, rfl, h1, by rw [beq_iff_eq] at h2; rw [h2]; decide⟩

theorem witness_SegwitRoundTrip : ∃ t,
    exec (.segwitEncode .versioned) { given (ascii "bc") [0, 0] with version := 1 } = .next t ∧ t.status.err = false := by
  obtain ⟨t, h1, h2⟩ := next_of_endsWith
    (o := exec (.segwitEncode .versioned) { given (ascii "bc") [0, 0] with version := 1 }) (p := fun t => !t.status.err)
    (by decide +kernel)
  exact ⟨t, h1, by simpa using h2⟩

/-! ### Witnesses: TLV, XFER, the rest -/

/-- T1's stream, and T8's: sixteen records and two bytes more. -/
theorem witness_TlvParseResult :
    ((given [] (hex 2 0x0000)).input = tlvStream [((0 : Byte), ([] : Bytes))] ++ [] ∧ recordOk ((0 : Byte), ([] : Bytes))) ∧
    (given [] (List.replicate 17 [1, 0]).flatten).input =
      tlvStream (List.replicate 16 ((1 : Byte), ([] : Bytes))) ++ [1, 0] := by decide +kernel

/-- T7, T11, T5 after a record, T10's shape. -/
theorem witness_TlvParseErrors : (given [] []).input = tlvStream [] ++ [] ∧
    ∀ rest ∈ [[(4 : Byte)], [3], [3, 1]], (given [] ([0, 0] ++ rest)).input =
      tlvStream [((0 : Byte), ([] : Bytes))] ++ rest := by decide +kernel

theorem witness_TlvFindResult : (3 : Nat) ≤ 3 ∧
    (withTable 16 0x00022000 0x00240d01 0x00331501 State.reset).tlvCount.toNat ≤ 16 := by decide

/-- N1's table; its type is 3. -/
def n1 : State := withTable 1 0x00000403 0 0 (given [] (hex 4 0x00007547))

theorem witness_TlvEncodeResult : (∀ r ∈ n1.records, r.voff.toNat + r.length.toNat ≤ n1.input.length) ∧
    (n1.records.flatMap (fun r => r.type :: r.length ::
      (n1.input.drop r.voff.toNat).take r.length.toNat)).length ≤ Config.bufBytes := by decide +kernel

/-- N3 and N4. -/
theorem witness_TlvEncodeErrors :
    ((withTable 1 0x00020403 0 0 (given [] (hex 5 0x0000754700))).records = [] ++ Record.ofWord 0x00020403 :: [] ∧
      (given [] (hex 5 0x0000754700)).input.length < 2 + 4) ∧
    (withTable 2 0x0000FF00 0x0000FF00 0 (given [] (List.replicate 255 0))).records =
      [Record.ofWord 0x0000FF00] ++ Record.ofWord 0x0000FF00 :: [] ∧
    (given [] (List.replicate 255 0)).input.length = 255 ∧
    Config.bufBytes < ([Record.ofWord 0x0000FF00].map fun q => 2 + q.length.toNat).sum + 2 + 255 := by decide +kernel

theorem witness_ParseAfterEncode : 1 ≤ n1.tlvCount.toNat ∧ n1.tlvCount.toNat ≤ 16 ∧ (∀ r ∈ n1.records, r.type.toNat < 4) ∧
    ∃ t, exec .tlvEncode n1 = .next t ∧ t.status.err = false := by
  obtain ⟨t, h1, h2⟩ := next_of_endsWith (o := exec .tlvEncode n1) (p := fun t => !t.status.err) (by decide +kernel)
  exact ⟨by decide, by decide, by decide +kernel, t, h1, by simpa using h2⟩

theorem witness_ParserEndsIdle : ∃ t, exec .tlvParse State.reset = .next t := by
  obtain ⟨t, h, -⟩ := next_of_endsWith (o := exec .tlvParse State.reset) (p := fun _ => true) (by decide +kernel)
  exact ⟨t, h⟩

theorem witness_XferResult : (outputting (List.replicate 512 7)).outLen.toNat ≤ Config.bufBytes ∧
    (outputting (List.replicate 512 7)).outLen = 512 := by decide +kernel

/-- Two states that differ in an IBUF byte at IN_LEN. -/
theorem witness_BytesAboveTheLengthsAreNeverRead : ∃ (s : State) (m : Memory), m ≠ s.mem ∧ { s with mem := m }.hrp = s.hrp ∧
    { s with mem := m }.input = s.input ∧ { s with mem := m }.output = s.output :=
  ⟨given [97] [5], (given [97] [5]).mem.storeByte 0x2001 9, by decide +kernel, by decide +kernel, by decide +kernel,
    by decide +kernel⟩

theorem witness_MissingFieldBeforeAnyCommand : ∃ p : Payload, p.kind = .naddr ∧ p.hasAuthor = false ∧ p.hasKind = true :=
  ⟨⟨.naddr, [], [], false, [], true, 30023⟩, rfl, rfl, rfl⟩

end Sys2Proof.Tests
end

section
/-! SUPPORT. The step, the host's accesses and the commands' operands as later proofs use them: which case of the step it is, what an
access that is let through gives, and how long the operands are (R62, R63, R67, R270). -/

namespace Sys2Proof.Machine

/-! ### The step and its outcome -/

/-- An outcome has one next state. -/
theorem next_inj {s t : State} {o : Host.Outcome State Fault Refusal} (h : o = .next s) (h' : o = .next t) : t = s := by
  rw [h] at h'; cases h'; rfl

theorem step_nil {s : State} (h : s.inputs = []) : step s = blockStep s := by rw [step, nextStep, h]

theorem step_cons {s : State} {e : Event} {rest : List Event} (h : s.inputs = e :: rest) :
    step s = perform e { s with inputs := rest } := by rw [step, nextStep, h]

/-! ### Accesses that are let through -/

/-- An access that gives a next state is an admitted one, and a write comes with BUSY = 0 (R62, R296). -/
theorem busWrite_next {o n : Nat} {v : Word} {s t : State} (h : busWrite o n v s = .next t) :
    admitted o n = true ∧ s.status.busy = false ∧ t = writeValue o n v s := by
  unfold busWrite at h
  split at h
  · split at h
    · cases h
    · cases h
      exact ⟨‹_›, Bool.eq_false_iff.2 ‹_›, rfl⟩
  · cases h

theorem busRead_next {o n : Nat} {s t : State} (h : busRead o n s = .next t) :
    admitted o n = true ∧ t = { s with
      readLog := s.readLog ++ [readValue o n s], drawn := if s.status.busy then s.drawn + 1 else s.drawn } := by
  unfold busRead at h
  split at h
  · cases h
    exact ⟨‹_›, rfl⟩
  · cases h

/-! ### Operands -/

theorem State.length_input_le (s : State) : s.input.length ≤ Config.bufBytes := by simp [State.input]

theorem State.length_records_le (s : State) : s.records.length ≤ 16 := by simp [State.records]

/-- A text that the encoder gives is within its limit (R125). -/
theorem encodeText_length_le {e : Encoding} {h ws : Bytes} {limit : Nat} {p : Bytes × Chk}
    (he : encodeText e h ws limit = .ok p) : p.1.length ≤ limit := by
  rcases encodeText_cases e h ws limit with ⟨er, -, hc⟩ | ⟨-, -, hc⟩ | ⟨-, -, -, hc⟩ | ⟨-, hl, -, hc⟩
  · rw [hc] at he; cases he
  · rw [hc] at he; cases he
  · rw [hc] at he; cases he
  · rw [hc] at he; cases he
    rw [length_textOf]; exact hl

end Sys2Proof.Machine
end

section
/-! SUPPORT. The invariant (O13, O14): the ranges that hold whatever STATUS says are kept by each shared operation on the state,
so by every command; STATUS and `pending` are then right at each command's start and end. -/

namespace Sys2Proof.Machine

/-! ### The ranges that do not depend on STATUS -/

/-- The parts of the invariant that neither STATUS nor the pending command takes part in. -/
def State.InRanges (s : State) : Prop :=
  s.tlvFound.legal ∧ s.lengthsLegal ∧ s.hiddenLegal ∧ s.drawsLegal ∧ s.mem.wf

theorem State.inv_iff (s : State) : s.Inv ↔ s.status.legal ∧ s.pendingLegal ∧ s.InRanges := by
  simp only [State.Inv, State.InRanges]
  tauto

theorem State.Inv.inRanges {s : State} (h : s.Inv) : s.InRanges := ((State.inv_iff s).1 h).2.2

section
variable {s : State} (h : s.InRanges)
include h

theorem State.InRanges.outLen_le : s.outLen.toNat ≤ Config.bufBytes := by
  obtain ⟨-, ⟨-, -, hout, -⟩, -⟩ := h
  exact hout

theorem State.InRanges.maxLen_le : s.maxLen.toNat ≤ Config.bufBytes := by
  obtain ⟨-, ⟨-, -, -, hmax, -⟩, -⟩ := h
  exact hmax

/-! ### One rule for each shared operation -/

/-- CHK has no range. -/
theorem State.InRanges.withChk (c : Chk) : State.InRanges { s with chk := c } := h

/-- VERSION has no range. -/
theorem State.InRanges.withVersion (v : BitVec 5) : State.InRanges { s with version := v } := h

/-- The record table has no range: every bit of an entry is a field bit (R35). -/
theorem State.InRanges.withTlvRec (tab : Vector Record 16) : State.InRanges { s with tlvRec := tab } := h

theorem State.InRanges.withOutLen {n : Half} (hn : n.toNat ≤ Config.bufBytes) : State.InRanges { s with outLen := n } := by
  obtain ⟨hfound, ⟨hin, hhrp, -, hmax, hend, hcount⟩, hrest⟩ := h
  exact ⟨hfound, ⟨hin, hhrp, hn, hmax, hend, hcount⟩, hrest⟩

theorem State.InRanges.withInLen {n : Half} (hn : n.toNat ≤ Config.bufBytes) : State.InRanges { s with inLen := n } := by
  obtain ⟨hfound, ⟨-, hlens⟩, hrest⟩ := h
  exact ⟨hfound, ⟨hn, hlens⟩, hrest⟩

theorem State.InRanges.withHrpLen {n : Half} (hn : n.toNat ≤ Config.bufBytes) : State.InRanges { s with hrpLen := n } := by
  obtain ⟨hfound, ⟨hin, -, hlens⟩, hrest⟩ := h
  exact ⟨hfound, ⟨hin, hn, hlens⟩, hrest⟩

theorem State.InRanges.withMaxLen {n : Half} (hn : n.toNat ≤ Config.bufBytes) : State.InRanges { s with maxLen := n } := by
  obtain ⟨hfound, ⟨hin, hhrp, hout, -, hlens⟩, hrest⟩ := h
  exact ⟨hfound, ⟨hin, hhrp, hout, hn, hlens⟩, hrest⟩

theorem State.InRanges.withTlvCount {n : BitVec 5} (hn : n.toNat ≤ 16) : State.InRanges { s with tlvCount := n } := by
  obtain ⟨hfound, ⟨hin, hhrp, hout, hmax, hend, -⟩, hrest⟩ := h
  exact ⟨hfound, ⟨hin, hhrp, hout, hmax, hend, hn⟩, hrest⟩

theorem State.InRanges.withTlvFound {f : Found} (hf : f.legal) : State.InRanges { s with tlvFound := f } :=
  ⟨hf, h.2⟩

/-- A change of the buffers that keeps their draws and the canonical form. -/
theorem State.InRanges.withMem {m : Memory} (hd : ∀ b, m.drawOf b = s.mem.drawOf b) (hm : m.wf) :
    State.InRanges { s with mem := m } := by
  obtain ⟨hfound, hlens, hhidden, ⟨hh, hi, ho⟩, -⟩ := h
  exact ⟨hfound, hlens, hhidden, ⟨(hd .hbuf).trans_lt hh, (hd .ibuf).trans_lt hi, (hd .obuf).trans_lt ho⟩, hm⟩

theorem State.InRanges.wf : s.mem.wf := by
  obtain ⟨-, -, -, -, hm⟩ := h
  exact hm

theorem State.InRanges.withStoreBuffer (b : Buffer) (bs : Bytes) :
    State.InRanges { s with mem := s.mem.storeBuffer b bs } :=
  h.withMem (fun c => Memory.drawOf_store s.mem b.base _ c) (Memory.wf_storeBuffer h.wf b bs)

/-- A draw is used up; any of the buffers may take its bytes from it. -/
theorem State.InRanges.withFreshDraw {m : Memory} (hd : ∀ b, m.drawOf b = s.mem.drawOf b ∨ m.drawOf b = s.drawn)
    (hm : m.wf) : State.InRanges { s with mem := m, drawn := s.drawn + 1 } := by
  obtain ⟨hfound, hlens, hhidden, ⟨hh, hi, ho⟩, -⟩ := h
  have below : ∀ b, s.mem.drawOf b < s.drawn → m.drawOf b < s.drawn + 1 := fun b hb => by
    rcases hd b with e | e <;> omega
  exact ⟨hfound, hlens, hhidden, ⟨below .hbuf hh, below .ibuf hi, below .obuf ho⟩, hm⟩

theorem State.InRanges.succeed (enc : BitVec 2) : (s.succeed enc).InRanges := h

theorem State.InRanges.noOutput : s.noOutput.InRanges := h.withOutLen (by simp)

theorem State.InRanges.putOutput {bs : Bytes} (hbs : bs.length ≤ Config.bufBytes) : (s.putOutput bs).InRanges :=
  (h.withStoreBuffer .obuf bs).withOutLen (le_trans (by simp; omega) hbs)

theorem State.InRanges.raiseNoOutput (e : Err) : (s.raiseNoOutput e).InRanges := h.withOutLen (by simp)

theorem State.InRanges.raiseLosingOutput (e : Err) : (s.raiseLosingOutput e).InRanges := by
  refine State.InRanges.raiseNoOutput (h.withFreshDraw (fun b => ?_) (Memory.wf_forget h.wf .obuf _)) e
  rw [Memory.drawOf_forget]
  split
  · exact .inr rfl
  · exact .inl rfl

theorem State.InRanges.raiseLosingChk (e : Err) (r : Option Chk) : (s.raiseLosingChk e r).InRanges :=
  State.InRanges.raiseLosingOutput (s := { s with chk := r.getD (Config.freeChk s.drawn) }) h e

theorem State.InRanges.raiseLosingHrp (e : Err) (r : Option Chk) : (s.raiseLosingHrp e r).InRanges := by
  have hwf : ((s.mem.forget .hbuf s.drawn).forget .obuf s.drawn).wf := Memory.wf_forget (Memory.wf_forget h.wf _ _) _ _
  have hdraw : ∀ b, ((s.mem.forget .hbuf s.drawn).forget .obuf s.drawn).drawOf b = s.mem.drawOf b ∨
      ((s.mem.forget .hbuf s.drawn).forget .obuf s.drawn).drawOf b = s.drawn := fun b => by
    cases b
    · exact .inr rfl
    · exact .inl rfl
    · exact .inr rfl
  exact ((h.withFreshDraw hdraw hwf).withHrpLen (n := 0) (by simp)).withOutLen (n := 0) (by simp)

theorem State.InRanges.raiseLosingTable (e : Err) : (s.raiseLosingTable e).InRanges :=
  ((h.withFreshDraw (fun _ => .inl rfl) h.wf).withTlvCount (n := 0) (by simp)).withOutLen (n := 0) (by simp)

theorem State.InRanges.holdConverter {c : Conversion} (hc : c.bits ≤ 15) : (s.holdConverter c).InRanges := by
  obtain ⟨hfound, hlens, ⟨hp, -, hn, ho⟩, hrest⟩ := h
  exact ⟨hfound, hlens, ⟨hp, hc, hn, ho⟩, hrest⟩

theorem State.InRanges.holdScratch (d : DecodedText) : (s.holdScratch d).InRanges := h

theorem State.InRanges.holdParser {p : Parser} (hp : p.state = .idle) (hn : p.nrec ≤ 16) (ho : p.off ≤ Config.bufBytes) :
    (s.holdParser p).InRanges := by
  obtain ⟨hfound, ⟨hin, hhrp, hout, hmax, -, hcount⟩, ⟨-, hbits, -, -⟩, hrest⟩ := h
  have hoff : (BitVec.ofNat 16 p.off).toNat ≤ Config.bufBytes := le_trans (by simp; omega) ho
  exact ⟨hfound, ⟨hin, hhrp, hout, hmax, hoff, hcount⟩, ⟨hp, hbits, hn, hoff⟩, hrest⟩

end

theorem State.reset_inv : State.reset.Inv := by decide

theorem State.inRanges_resetNow (s : State) : s.resetNow.InRanges := by
  obtain ⟨hfound, hlens, hhidden, -, hm⟩ := State.reset_inv.inRanges
  have hdraw : s.drawn < s.drawn + 1 := Nat.lt_succ_self _
  exact ⟨hfound, hlens, hhidden, ⟨hdraw, hdraw, hdraw⟩, hm⟩

/-! ### The host's accesses -/

theorem Status.started_legal : Status.started.legal := by decide

theorem clampLength_le (v : Word) : (clampLength v).toNat ≤ Config.bufBytes := by
  simp only [clampLength, bufBytes_eq, BitVec.toNat_ofNat]
  omega

theorem clampCount_le (v : Word) : (clampCount v).toNat ≤ 16 := by
  simp only [clampCount, tlvMaxRecords, BitVec.toNat_ofNat]
  omega

/-- A host write to a register but CMD leaves CMD, STATUS and `pending` alone (R23 to R35). -/
theorem Reg.write_keeps_command (r : Reg) (v : Word) (s : State) (hr : r ≠ .cmd) :
    (r.write v s).cmd = s.cmd ∧ (r.write v s).status = s.status ∧ (r.write v s).pending = s.pending := by
  cases r with
  | cmd => exact absurd rfl hr
  | _ => exact ⟨rfl, rfl, rfl⟩

theorem Reg.write_inRanges (r : Reg) (v : Word) {s : State} (h : s.InRanges) : (r.write v s).InRanges := by
  cases r with
  | inLen => exact h.withInLen (clampLength_le v)
  | hrpLen => exact h.withHrpLen (clampLength_le v)
  | maxLen => exact h.withMaxLen (clampLength_le v)
  | tlvCount => exact h.withTlvCount (clampCount_le v)
  | cmd | status | outLen | chk | version | tlvFound | tlvEnd | tlvRec i => exact h

theorem Reg.write_inv (r : Reg) (v : Word) {s : State} (h : s.Inv) : (r.write v s).Inv := by
  rw [State.inv_iff] at h ⊢
  obtain ⟨hst, hp, hranges⟩ := h
  refine ⟨?_, ?_, r.write_inRanges v hranges⟩
  · by_cases hr : r = .cmd
    · subst hr; exact Status.started_legal
    · rw [(r.write_keeps_command v s hr).2.1]; exact hst
  · by_cases hr : r = .cmd
    · subst hr; rfl
    · obtain ⟨hcmd, hstatus, hpend⟩ := r.write_keeps_command v s hr
      rw [State.pendingLegal, hcmd, hstatus, hpend]
      exact hp

theorem State.InRanges.withBufferWrite {s : State} (h : s.InRanges) (o n : Nat) (v : Word) :
    State.InRanges { s with mem := bufferWrite o n v s.mem } :=
  h.withMem (Memory.drawOf_bufferWrite s.mem o n v) (Memory.wf_bufferWrite h.wf o n v)

theorem writeValue_inv (o n : Nat) (v : Word) {s : State} (h : s.Inv) : (writeValue o n v s).Inv := by
  unfold writeValue
  split
  · split
    · exact h
    · exact Reg.write_inv _ v h
  · obtain ⟨hst, hp, hranges⟩ := (State.inv_iff s).1 h
    exact (State.inv_iff _).2 ⟨hst, hp, hranges.withBufferWrite o n v⟩

theorem busWrite_inv {o n : Nat} {v : Word} {s t : State} (h : s.Inv) (hst : busWrite o n v s = .next t) : t.Inv := by
  obtain ⟨-, -, rfl⟩ := busWrite_next hst
  exact writeValue_inv o n v h

theorem busRead_inv {o n : Nat} {s t : State} (h : s.Inv) (hst : busRead o n s = .next t) : t.Inv := by
  obtain ⟨-, rfl⟩ := busRead_next hst
  obtain ⟨hstatus, hp, hranges⟩ := (State.inv_iff s).1 h
  refine (State.inv_iff _).2 ⟨hstatus, hp, ?_⟩
  cases s.status.busy with
  | true => exact hranges.withFreshDraw (fun _ => .inl rfl) hranges.wf
  | false => exact hranges

theorem State.resetNow_inv (s : State) : s.resetNow.Inv :=
  (State.inv_iff _).2 ⟨State.reset_inv.1, rfl, s.inRanges_resetNow⟩

/-! ### Every command -/

theorem Status.succeeded_legal {n : BitVec 2} (h : n ≠ 3) : (Status.succeeded n).legal :=
  ⟨by simp [Status.succeeded], by simp [Status.succeeded], by simp [Status.succeeded], h⟩

theorem Status.failed_legal (e : Err) : (Status.failed e).legal := by cases e <;> decide

theorem findFirst_legal (t : Nat) {rs : List Record} (h : rs.length ≤ 16) : (findFirst t rs).legal := by
  obtain ⟨hfound, hnone⟩ := findFirst_spec t rs h
  refine ⟨fun hf => (hnone hf).1, ?_⟩
  cases hf : (findFirst t rs).found with
  | true => exact (hfound hf).1.trans_le h
  | false => rw [(hnone hf).1]; decide

/-- Every command keeps the ranges. -/
theorem exec_inRanges {i : Instr} {s t : State} (hs : s.InRanges) (ht : exec i s = .next t) : t.InRanges := by
  have hb (d : Direction) (p : Padding) (xs : Bytes) := convertBits_bounds d p xs
  cases i with
  | nop =>
    obtain rfl := next_inj (exec_nop s) ht
    exact hs.noOutput.succeed _
  | chkInit =>
    obtain rfl := next_inj (exec_chkInit s) ht
    exact (hs.withChk _).noOutput.succeed _
  | chkStep v =>
    obtain rfl := next_inj (exec_chkStep v s) ht
    exact (hs.withChk _).noOutput.succeed _
  | chkHrp =>
    rcases exec_chkHrp_cases s with ⟨e, -, h⟩ | ⟨-, h⟩ <;> obtain rfl := next_inj h ht
    · exact hs.raiseNoOutput e
    · exact (hs.withChk _).noOutput.succeed _
  | chkFinal e =>
    obtain rfl := next_inj (exec_chkFinal e s) ht
    exact ((hs.withChk _).putOutput (by rw [length_chkChars]; decide)).succeed _
  | b32Encode e =>
    rcases exec_b32Encode_cases e s with ⟨er, -, h⟩ | ⟨p, hp, h⟩ <;> obtain rfl := next_inj h ht
    · exact hs.raiseLosingChk er none
    · exact ((hs.withChk _).putOutput ((encodeText_length_le hp).trans hs.maxLen_le)).succeed _
  | b32Decode =>
    rcases exec_b32Decode_cases s with ⟨er, -, h⟩ | ⟨g, hg, h⟩ <;> obtain rfl := next_inj h ht
    · exact hs.raiseLosingHrp er.code er.residue
    · have hlen := decodeText_lengths hg
      have hin := s.length_input_le
      have hhrp : (BitVec.ofNat 16 g.hrp.length).toNat ≤ Config.bufBytes := by
        rw [BitVec.toNat_ofNat]; exact (Nat.mod_le _ _).trans (by omega)
      have hwords : (g.words.map byteOfSym).length ≤ Config.bufBytes := by rw [List.length_map]; omega
      exact ((((hs.withChk _).withStoreBuffer .hbuf g.hrp).withHrpLen hhrp).putOutput hwords).succeed _
  | convert d p =>
    rcases exec_convert_cases d p s with ⟨e, -, h⟩ | ⟨-, h⟩ <;> obtain rfl := next_inj h ht
    · exact (hs.holdConverter (hb d p _).1).raiseLosingOutput e
    · exact ((hs.holdConverter (hb d p _).1).putOutput (hb d p _).2).succeed _
  | segwitEncode m =>
    rcases exec_segwitEncode_cases m s with ⟨e, -, h⟩ | ⟨-, ⟨e, -, h⟩ | ⟨-, ⟨e, -, h⟩ | ⟨p, hp, h⟩⟩⟩ <;>
      obtain rfl := next_inj h ht
    · exact hs.raiseLosingChk e none
    · exact (hs.holdConverter (hb _ _ _).1).raiseLosingChk e none
    · exact (hs.holdConverter (hb _ _ _).1).raiseLosingChk e none
    · exact (((hs.holdConverter (hb _ _ _).1).withChk _).putOutput
        ((encodeText_length_le hp).trans (by decide))).succeed _
  | segwitDecode m =>
    rcases exec_segwitDecode_cases m s with
      ⟨te, -, h⟩ | ⟨g, -, ⟨-, h⟩ | ⟨-, ⟨e, -, h⟩ | ⟨v, ws, c, -, rfl, ⟨e, -, h⟩ | ⟨-, ⟨-, h⟩ | ⟨-, h⟩⟩⟩⟩⟩ <;>
      obtain rfl := next_inj h ht
    · exact hs.raiseLosingChk te.code te.residue
    · exact (hs.holdScratch g).raiseLosingChk _ none
    · exact (hs.holdScratch g).raiseLosingChk e none
    · exact ((hs.holdScratch g).holdConverter (hb _ _ _).1).raiseLosingChk e none
    · exact ((hs.holdScratch g).holdConverter (hb _ _ _).1).raiseLosingChk _ none
    · exact (((((hs.holdScratch g).holdConverter (hb _ _ _).1).withVersion v).withChk g.residue).putOutput (hb _ _ _).2).succeed _
  | tlvParse =>
    obtain ⟨hidle, hn, hoff⟩ := parseAll_ends s.input s.tlvRec
    have hparser := hs.holdParser hidle hn (hoff.trans s.length_input_le)
    rcases exec_tlvParse_cases s with ⟨e, -, h⟩ | ⟨-, h⟩ <;> obtain rfl := next_inj h ht
    · exact hparser.raiseLosingTable e
    · have hcount : (BitVec.ofNat 5 (parseAll s.input s.tlvRec).nrec).toNat ≤ 16 := by
        rw [BitVec.toNat_ofNat]; exact (Nat.mod_le _ _).trans hn
      exact ((hparser.withTlvCount hcount).withTlvRec _).noOutput.succeed _
  | tlvFind k =>
    obtain rfl := next_inj (exec_tlvFind k s) ht
    exact (hs.withTlvFound (findFirst_legal k s.length_records_le)).noOutput.succeed _
  | tlvEncode =>
    rcases exec_tlvEncode_cases s with ⟨e, -, h⟩ | ⟨out, ho, h⟩ <;> obtain rfl := next_inj h ht
    · exact hs.raiseLosingOutput e
    · obtain ⟨-, -, hlen⟩ := concatRecords_ok _ _ _ _ ho (by simp)
      exact (hs.putOutput hlen).succeed _
  | xfer =>
    obtain rfl := next_inj (exec_xfer s) ht
    exact ((hs.withStoreBuffer .ibuf s.output).withInLen hs.outLen_le).succeed _

theorem exec_inv {i : Instr} {s t : State} (hs : s.InRanges) (ht : exec i s = .next t) : t.Inv := by
  obtain ⟨u, hu, hp, hst⟩ := exec_ends i s
  obtain rfl := next_inj hu ht
  refine (State.inv_iff t).2 ⟨?_, ?_, exec_inRanges hs ht⟩
  · rcases hst with ⟨n, hn, h3⟩ | ⟨e, he⟩
    · exact hn ▸ Status.succeeded_legal h3
    · exact he ▸ Status.failed_legal e
  · have hbusy : t.status.busy = false := by
      rcases hst with ⟨n, hn, -⟩ | ⟨e, he⟩
      · rw [hn]; rfl
      · rw [he]; rfl
    rw [State.pendingLegal, hp, hbusy]; rfl

/-! ### The block's turn and the step -/

theorem runCommand_inv {w : Word} {s t : State} (hs : s.InRanges) (ht : runCommand w s = .next t) : t.Inv := by
  unfold runCommand at ht
  split at ht
  · exact exec_inv hs ht
  · cases ht
    exact (State.inv_iff _).2 ⟨Status.failed_legal _, rfl, hs⟩

theorem blockStep_inv {s t : State} (hs : s.Inv) (ht : blockStep s = .next t) : t.Inv := by
  unfold blockStep at ht
  split at ht
  · cases ht; exact hs
  · exact runCommand_inv hs.inRanges ht

theorem perform_inv {e : Event} {s t : State} (hs : s.Inv) (ht : perform e s = .next t) : t.Inv := by
  cases e with
  | busRead o n => exact busRead_inv hs ht
  | busWrite o n v => exact busWrite_inv hs ht
  | blockTurn => exact blockStep_inv hs ht
  | reset => cases ht; exact s.resetNow_inv

theorem step_inv {s t : State} (hs : s.Inv) (ht : step s = .next t) : t.Inv := by
  cases h : s.inputs with
  | nil => exact blockStep_inv hs (step_nil h ▸ ht)
  | cons e rest => exact perform_inv (s := { s with inputs := rest }) hs (step_cons h ▸ ht)

end Sys2Proof.Machine

namespace Sys2Proof.Proofs

open Sys2Proof.Machine

/-- Settles O13: every clause is a fact about the literal reset state. -/
theorem resetMeetsTheInvariant : Obligations.ResetMeetsTheInvariant := State.reset_inv

/-- Settles O14: the ranges are kept by each shared operation, and STATUS and `pending` are right at a command's start and
end. -/
theorem everyStepKeepsTheInvariant : Obligations.EveryStepKeepsTheInvariant :=
  fun _ _ hs ht => step_inv hs ht

end Sys2Proof.Proofs
end

section
/-! SUPPORT. Noninterference (O57): two states that differ in buffer bytes at or above the length registers only stay so under each
shared operation, and every command takes the same way through both. -/

namespace Sys2Proof.Machine

/-! ### Bytes that a write fixes -/

/-- A run of bytes that covers `BUF[0 .. n)` decides what is read there, whatever the buffers held. -/
theorem Memory.readBuffer_storeBuffer_congr (m m' : Memory) (b : Buffer) (bs : Bytes) {n : Nat}
    (hn : min n Config.bufBytes ≤ bs.length) :
    (m'.storeBuffer b bs).readBuffer b n = (m.storeBuffer b bs).readBuffer b n := by
  apply Memory.readBuffer_congr
  intro k hk
  rw [Memory.read_storeBuffer_inside m' b bs k (by omega) (by omega),
    Memory.read_storeBuffer_inside m b bs k (by omega) (by omega)]

theorem Memory.readBuffer_forget_ne (m : Memory) {b c : Buffer} (h : b ≠ c) (d n : Nat) :
    (m.forget b d).readBuffer c n = m.readBuffer c n := by
  apply Memory.readBuffer_congr
  intro k hk
  exact Memory.read_forget_other m b d (holds_base_add_ne h (by omega))

@[simp] theorem Memory.readBuffer_zero (m : Memory) (b : Buffer) : m.readBuffer b 0 = [] := by simp [Memory.readBuffer]

/-! ### States with the same registers, hrp, input and output -/

/-- The two states agree in everything but buffer bytes, and in the hrp, the input and the output (R26 to R28). -/
structure SameView (s s' : State) : Prop where
  eq_but_mem : s' = { s with mem := s'.mem }
  hrp_eq : s'.hrp = s.hrp
  input_eq : s'.input = s.input
  output_eq : s'.output = s.output

theorem sameView_of_mem {s : State} {m : Memory}
    (hh : m.readBuffer .hbuf s.hrpLen.toNat = s.mem.readBuffer .hbuf s.hrpLen.toNat)
    (hi : m.readBuffer .ibuf s.inLen.toNat = s.mem.readBuffer .ibuf s.inLen.toNat)
    (ho : m.readBuffer .obuf s.outLen.toNat = s.mem.readBuffer .obuf s.outLen.toNat) : SameView s { s with mem := m } :=
  ⟨rfl, hh, hi, ho⟩

/-- The second state of a pair is the first with other buffers. -/
theorem SameView.exists_mem {s s' : State} (h : SameView s s') : ∃ m, s' = { s with mem := m } ∧
    m.readBuffer .hbuf s.hrpLen.toNat = s.mem.readBuffer .hbuf s.hrpLen.toNat ∧
    m.readBuffer .ibuf s.inLen.toNat = s.mem.readBuffer .ibuf s.inLen.toNat ∧
    m.readBuffer .obuf s.outLen.toNat = s.mem.readBuffer .obuf s.outLen.toNat := by
  obtain ⟨he, hh, hi, ho⟩ := h
  rw [he] at hh hi ho
  exact ⟨s'.mem, he, hh, hi, ho⟩

section
variable {s s' : State} (h : SameView s s')
include h

theorem SameView.records_eq : s'.records = s.records := by rw [h.eq_but_mem]; rfl
theorem SameView.textLimit_eq : s'.textLimit = s.textLimit := by rw [h.eq_but_mem]; rfl
theorem SameView.version_eq : s'.version = s.version := by rw [h.eq_but_mem]
theorem SameView.tlvRec_eq : s'.tlvRec = s.tlvRec := by rw [h.eq_but_mem]
theorem SameView.chk_eq : s'.chk = s.chk := by rw [h.eq_but_mem]
theorem SameView.outLen_eq : s'.outLen = s.outLen := by rw [h.eq_but_mem]
theorem SameView.scratchHrp_eq : s'.scratchHrp = s.scratchHrp := by rw [h.eq_but_mem]
theorem SameView.scratchWords_eq : s'.scratchWords = s.scratchWords := by rw [h.eq_but_mem]

theorem SameView.withChk (c : Chk) : SameView { s with chk := c } { s' with chk := c } := by
  obtain ⟨m, rfl, hh, hi, ho⟩ := h.exists_mem
  exact sameView_of_mem hh hi ho

theorem SameView.withVersion (v : BitVec 5) : SameView { s with version := v } { s' with version := v } := by
  obtain ⟨m, rfl, hh, hi, ho⟩ := h.exists_mem
  exact sameView_of_mem hh hi ho

theorem SameView.withTlvFound (f : Found) : SameView { s with tlvFound := f } { s' with tlvFound := f } := by
  obtain ⟨m, rfl, hh, hi, ho⟩ := h.exists_mem
  exact sameView_of_mem hh hi ho

theorem SameView.withTable (n : BitVec 5) (tab : Vector Record 16) :
    SameView { s with tlvCount := n, tlvRec := tab } { s' with tlvCount := n, tlvRec := tab } := by
  obtain ⟨m, rfl, hh, hi, ho⟩ := h.exists_mem
  exact sameView_of_mem hh hi ho

theorem SameView.succeed (enc : BitVec 2) : SameView (s.succeed enc) (s'.succeed enc) := by
  obtain ⟨m, rfl, hh, hi, ho⟩ := h.exists_mem
  exact sameView_of_mem hh hi ho

theorem SameView.noOutput : SameView s.noOutput s'.noOutput := by
  obtain ⟨m, rfl, hh, hi, -⟩ := h.exists_mem
  exact sameView_of_mem hh hi (by simp)

theorem SameView.putOutput (bs : Bytes) : SameView (s.putOutput bs) (s'.putOutput bs) := by
  obtain ⟨m, rfl, hh, hi, -⟩ := h.exists_mem
  refine sameView_of_mem (s := s.putOutput bs) (m := m.storeBuffer .obuf bs) ?_ ?_ ?_
  · simpa [Memory.readBuffer_storeBuffer_ne] using hh
  · simpa [Memory.readBuffer_storeBuffer_ne] using hi
  · exact Memory.readBuffer_storeBuffer_congr _ _ _ _ (by simp; omega)

theorem SameView.raiseNoOutput (e : Err) : SameView (s.raiseNoOutput e) (s'.raiseNoOutput e) := by
  obtain ⟨m, rfl, hh, hi, -⟩ := h.exists_mem
  exact sameView_of_mem hh hi (by simp)

theorem SameView.raiseLosingOutput (e : Err) : SameView (s.raiseLosingOutput e) (s'.raiseLosingOutput e) := by
  obtain ⟨m, rfl, hh, hi, -⟩ := h.exists_mem
  refine sameView_of_mem (s := s.raiseLosingOutput e) (m := m.forget .obuf s.drawn) ?_ ?_ (by simp)
  · simpa [Memory.readBuffer_forget_ne] using hh
  · simpa [Memory.readBuffer_forget_ne] using hi

theorem SameView.raiseLosingChk (e : Err) (r : Option Chk) : SameView (s.raiseLosingChk e r) (s'.raiseLosingChk e r) := by
  obtain ⟨m, rfl, -⟩ := h.exists_mem
  exact (h.withChk _).raiseLosingOutput e

theorem SameView.raiseLosingHrp (e : Err) (r : Option Chk) : SameView (s.raiseLosingHrp e r) (s'.raiseLosingHrp e r) := by
  have hlost : SameView { s with hrpLen := 0, mem := s.mem.forget .hbuf s.drawn }
      { s' with hrpLen := 0, mem := s'.mem.forget .hbuf s'.drawn } := by
    obtain ⟨m, rfl, -, hi, ho⟩ := h.exists_mem
    refine sameView_of_mem (s := { s with hrpLen := 0, mem := s.mem.forget .hbuf s.drawn }) (by simp) ?_ ?_
    · simpa [Memory.readBuffer_forget_ne] using hi
    · simpa [Memory.readBuffer_forget_ne] using ho
  exact hlost.raiseLosingChk e r

theorem SameView.raiseLosingTable (e : Err) : SameView (s.raiseLosingTable e) (s'.raiseLosingTable e) := by
  obtain ⟨m, rfl, hh, hi, -⟩ := h.exists_mem
  exact sameView_of_mem (s := s.raiseLosingTable e) hh hi (by simp)

theorem SameView.holdConverter (c : Conversion) : SameView (s.holdConverter c) (s'.holdConverter c) := by
  obtain ⟨m, rfl, hh, hi, ho⟩ := h.exists_mem
  exact sameView_of_mem hh hi ho

theorem SameView.holdScratch (d : DecodedText) : SameView (s.holdScratch d) (s'.holdScratch d) := by
  obtain ⟨m, rfl, hh, hi, ho⟩ := h.exists_mem
  exact sameView_of_mem hh hi ho

theorem SameView.holdParser (p : Parser) : SameView (s.holdParser p) (s'.holdParser p) := by
  obtain ⟨m, rfl, hh, hi, ho⟩ := h.exists_mem
  exact sameView_of_mem hh hi ho

theorem SameView.withHrp (bs : Bytes) :
    SameView { s with mem := s.mem.storeBuffer .hbuf bs, hrpLen := BitVec.ofNat 16 bs.length }
      { s' with mem := s'.mem.storeBuffer .hbuf bs, hrpLen := BitVec.ofNat 16 bs.length } := by
  obtain ⟨m, rfl, -, hi, ho⟩ := h.exists_mem
  refine sameView_of_mem (s := { s with mem := s.mem.storeBuffer .hbuf bs, hrpLen := BitVec.ofNat 16 bs.length }) ?_ ?_ ?_
  · exact Memory.readBuffer_storeBuffer_congr _ _ _ _ (by simp; omega)
  · simpa [Memory.readBuffer_storeBuffer_ne] using hi
  · simpa [Memory.readBuffer_storeBuffer_ne] using ho

/-- XFER's copy (R222): `BUF[0 .. n)` of both states is what they read there. -/
theorem SameView.withInput :
    SameView { s with mem := s.mem.storeBuffer .ibuf s.output, inLen := s.outLen }
      { s' with mem := s'.mem.storeBuffer .ibuf s'.output, inLen := s'.outLen } := by
  rw [h.output_eq, h.outLen_eq]
  obtain ⟨m, rfl, hh, -, ho⟩ := h.exists_mem
  refine sameView_of_mem (s := { s with mem := s.mem.storeBuffer .ibuf s.output, inLen := s.outLen }) ?_ ?_ ?_
  · simpa [Memory.readBuffer_storeBuffer_ne] using hh
  · exact Memory.readBuffer_storeBuffer_congr _ _ _ _ (by simp [State.output])
  · simpa [Memory.readBuffer_storeBuffer_ne] using ho

theorem SameView.encodeInto (e : Encoding) (hrp ws : Bytes) (limit : Nat) :
    SameView (s.encodeInto e hrp ws limit) (s'.encodeInto e hrp ws limit) := by
  unfold State.encodeInto
  cases encodeText e hrp ws limit with
  | error er => exact h.raiseLosingChk er none
  | ok p => exact ((h.withChk p.2).putOutput p.1).succeed _

theorem SameView.segwitDecodeScratch (m : SegwitMode) (enc : Encoding) (r : Chk) :
    SameView (segwitDecodeScratch m enc r s) (segwitDecodeScratch m enc r s') := by
  simp only [Machine.segwitDecodeScratch, h.scratchHrp_eq, h.scratchWords_eq, h.hrp_eq]
  by_cases hh : s.scratchHrp ≠ s.hrp
  · rw [if_pos hh, if_pos hh]
    exact h.raiseLosingChk _ none
  · rw [if_neg hh, if_neg hh]
    cases segwitVersion m enc s.scratchWords with
    | error e => exact h.raiseLosingChk e none
    | ok p =>
      have hc := h.holdConverter (convertBits .to8 .nopad (p.2.map byteOfSym))
      cases he : (convertBits .to8 .nopad (p.2.map byteOfSym)).error with
      | some e =>
        simp only [he]
        exact hc.raiseLosingChk e none
      | none =>
        simp only [he]
        by_cases hb : badProgramLength m p.1 (convertBits .to8 .nopad (p.2.map byteOfSym)).out.length = true
        · rw [if_pos hb, if_pos hb]
          exact hc.raiseLosingChk _ none
        · rw [if_neg hb, if_neg hb]
          exact (((hc.withVersion p.1).withChk r).putOutput _).succeed _

end

/-! ### Every command -/

/-- The two outcomes are next states that agree. -/
def SameEnd (o o' : Host.Outcome State Fault Refusal) : Prop := ∃ t t', o = .next t ∧ o' = .next t' ∧ SameView t t'

theorem SameView.next {t t' : State} (h : SameView t t') : SameEnd (.next t) (.next t') := ⟨t, t', rfl, rfl, h⟩

/-- Every command makes its choices on the hrp, the input, the output and the registers alone. -/
theorem exec_sameEnd (i : Instr) {s s' : State} (h : SameView s s') : SameEnd (exec i s) (exec i s') := by
  cases i with
  | nop => exact (h.noOutput.succeed _).next
  | chkInit => exact ((h.withChk _).noOutput.succeed _).next
  | chkStep v =>
    rw [exec_chkStep, exec_chkStep, h.chk_eq]
    exact ((h.withChk _).noOutput.succeed _).next
  | chkHrp =>
    simp only [exec, execChkHrp, h.hrp_eq, h.chk_eq]
    cases checkHrpForEncode s.hrp with
    | some e => exact (h.raiseNoOutput e).next
    | none => exact ((h.withChk _).noOutput.succeed _).next
  | chkFinal e =>
    rw [exec_chkFinal, exec_chkFinal, h.chk_eq]
    exact (((h.withChk _).putOutput _).succeed _).next
  | b32Encode e =>
    simp only [exec, execB32Encode, h.hrp_eq, h.input_eq, h.textLimit_eq]
    exact (h.encodeInto e s.hrp s.input s.textLimit).next
  | b32Decode =>
    simp only [exec, execB32Decode, h.input_eq, h.textLimit_eq]
    cases decodeText s.input s.textLimit with
    | error t => exact (h.raiseLosingHrp t.code t.residue).next
    | ok d => exact ((((h.withChk d.residue).withHrp d.hrp).putOutput _).succeed _).next
  | convert d p =>
    simp only [exec, execConvert, h.input_eq]
    have hc := h.holdConverter (convertBits d p s.input)
    cases (convertBits d p s.input).error with
    | some e => exact (hc.raiseLosingOutput e).next
    | none => exact ((hc.putOutput _).succeed _).next
  | segwitEncode m =>
    simp only [exec, execSegwitEncode, h.input_eq, h.version_eq, h.hrp_eq]
    have hc := h.holdConverter (convertBits .to5 .pad s.input)
    cases segwitEncodeFault m s.version s.input.length with
    | some e => exact (h.raiseLosingChk e none).next
    | none =>
      cases (convertBits .to5 .pad s.input).error with
      | some e => exact (hc.raiseLosingChk e none).next
      | none => exact (hc.encodeInto _ _ _ _).next
  | segwitDecode m =>
    simp only [exec, execSegwitDecode, h.input_eq]
    cases decodeText s.input segwitMaxLen with
    | error t => exact (h.raiseLosingChk t.code t.residue).next
    | ok d => exact ((h.holdScratch d).segwitDecodeScratch m d.enc d.residue).next
  | tlvParse =>
    simp only [exec, execTlvParse, h.input_eq, h.tlvRec_eq]
    have hp := h.holdParser (parseAll s.input s.tlvRec)
    cases (parseAll s.input s.tlvRec).code with
    | some e => exact (hp.raiseLosingTable e).next
    | none => exact ((hp.withTable _ _).noOutput.succeed _).next
  | tlvFind k =>
    rw [exec_tlvFind, exec_tlvFind, h.records_eq]
    exact ((h.withTlvFound _).noOutput.succeed _).next
  | tlvEncode =>
    simp only [exec, execTlvEncode, h.input_eq, h.records_eq]
    cases concatRecords s.input s.records [] with
    | error e => exact (h.raiseLosingOutput e).next
    | ok out => exact ((h.putOutput out).succeed _).next
  | xfer => exact (h.withInput.succeed _).next

end Sys2Proof.Machine

namespace Sys2Proof.Proofs

open Sys2Proof.Machine

/-- Settles O57: agreement up to the lengths is kept by each shared operation, and every command chooses its way by the bytes
below the lengths and the registers. -/
theorem bytesAboveTheLengthsAreNeverRead : Obligations.BytesAboveTheLengthsAreNeverRead := by
  unfold Obligations.BytesAboveTheLengthsAreNeverRead
  rintro i s m s' rfl hh hi ho
  obtain ⟨t, t', ht, ht', hsame⟩ := exec_sameEnd i (s := s) ⟨rfl, hh, hi, ho⟩
  exact ⟨t, t', ht, ht', hsame.eq_but_mem, hsame.hrp_eq, hsame.input_eq, hsame.output_eq⟩

end Sys2Proof.Proofs
end

section
/-! SUPPORT. The frame of every command (O11): the registers and the hidden state that it may write, and the buffers (R23, R38, R39,
R41, R60). -/

namespace Sys2Proof.Machine

/-! ### Commands with several ends: the fields they may write -/

section
variable {s t : State}

theorem chkHrp_frame (ht : exec .chkHrp s = .next t) :
    t = { s with chk := t.chk, outLen := t.outLen, pending := t.pending, status := t.status } := by
  rcases exec_chkHrp_cases s with ⟨e, -, h⟩ | ⟨-, h⟩ <;> obtain rfl := next_inj h ht <;> rfl

theorem b32Encode_frame {e : Encoding} (ht : exec (.b32Encode e) s = .next t) :
    t = { s with
      chk := t.chk, outLen := t.outLen, mem := t.mem, pending := t.pending, status := t.status, drawn := t.drawn } := by
  rcases exec_b32Encode_cases e s with ⟨er, -, h⟩ | ⟨p, -, h⟩ <;> obtain rfl := next_inj h ht <;> rfl

theorem b32Decode_frame (ht : exec .b32Decode s = .next t) :
    t = { s with
      hrpLen := t.hrpLen, chk := t.chk, outLen := t.outLen, mem := t.mem
      pending := t.pending, status := t.status, drawn := t.drawn } := by
  rcases exec_b32Decode_cases s with ⟨er, -, h⟩ | ⟨g, -, h⟩ <;> obtain rfl := next_inj h ht <;> rfl

theorem convert_frame {d : Direction} {p : Padding} (ht : exec (.convert d p) s = .next t) :
    t = { s with
      acc := t.acc, bits := t.bits, outLen := t.outLen, mem := t.mem
      pending := t.pending, status := t.status, drawn := t.drawn } := by
  rcases exec_convert_cases d p s with ⟨e, -, h⟩ | ⟨-, h⟩ <;> obtain rfl := next_inj h ht <;> rfl

theorem segwitEncode_frame {m : SegwitMode} (ht : exec (.segwitEncode m) s = .next t) :
    t = { s with
      chk := t.chk, acc := t.acc, bits := t.bits, outLen := t.outLen, mem := t.mem
      pending := t.pending, status := t.status, drawn := t.drawn } := by
  rcases exec_segwitEncode_cases m s with ⟨e, -, h⟩ | ⟨-, ⟨e, -, h⟩ | ⟨-, ⟨e, -, h⟩ | ⟨p, -, h⟩⟩⟩ <;>
    obtain rfl := next_inj h ht <;> rfl

theorem segwitDecode_frame {m : SegwitMode} (ht : exec (.segwitDecode m) s = .next t) :
    t = { s with
      version := t.version, chk := t.chk, acc := t.acc, bits := t.bits, outLen := t.outLen, mem := t.mem
      scratchHrp := t.scratchHrp, scratchWords := t.scratchWords
      pending := t.pending, status := t.status, drawn := t.drawn } := by
  rcases exec_segwitDecode_cases m s with
    ⟨te, -, h⟩ | ⟨g, -, ⟨-, h⟩ | ⟨-, ⟨e, -, h⟩ | ⟨v, ws, c, -, -, ⟨e, -, h⟩ | ⟨-, ⟨-, h⟩ | ⟨-, h⟩⟩⟩⟩⟩ <;>
    obtain rfl := next_inj h ht <;> rfl

theorem tlvParse_frame (ht : exec .tlvParse s = .next t) :
    t = { s with
      tlvCount := t.tlvCount, tlvEnd := t.tlvEnd, tlvRec := t.tlvRec, off := t.off, nrec := t.nrec, pstate := t.pstate
      outLen := t.outLen, pending := t.pending, status := t.status, drawn := t.drawn } := by
  rcases exec_tlvParse_cases s with ⟨e, -, h⟩ | ⟨-, h⟩ <;> obtain rfl := next_inj h ht <;> rfl

theorem tlvEncode_frame (ht : exec .tlvEncode s = .next t) :
    t = { s with outLen := t.outLen, mem := t.mem, pending := t.pending, status := t.status, drawn := t.drawn } := by
  rcases exec_tlvEncode_cases s with ⟨e, -, h⟩ | ⟨out, -, h⟩ <;> obtain rfl := next_inj h ht <;> rfl

end

/-! ### The registers and the hidden state -/

/-- What a command leaves alone outside the buffers (R23, last column; R38, R39, R41). -/
structure RegisterFrame (i : Instr) (s t : State) : Prop where
  cmd : t.cmd = s.cmd
  maxLen : t.maxLen = s.maxLen
  inputs : t.inputs = s.inputs
  readLog : t.readLog = s.readLog
  inLen : i ≠ .xfer → t.inLen = s.inLen
  hrpLen : i ≠ .b32Decode → t.hrpLen = s.hrpLen
  version : (∀ m, i ≠ .segwitDecode m) → t.version = s.version
  table : i ≠ .tlvParse → t.tlvCount = s.tlvCount ∧ t.tlvEnd = s.tlvEnd ∧ t.tlvRec = s.tlvRec
  found : (∀ k, i ≠ .tlvFind k) → t.tlvFound = s.tlvFound
  chk : i = .nop ∨ i = .xfer ∨ i = .tlvParse ∨ i = .tlvEncode ∨ (∃ k, i = .tlvFind k) ∨ (∃ d p, i = .convert d p) →
    t.chk = s.chk
  converter : (∀ d p, i ≠ .convert d p) → (∀ m, i ≠ .segwitEncode m) → (∀ m, i ≠ .segwitDecode m) →
    t.acc = s.acc ∧ t.bits = s.bits
  parser : i ≠ .tlvParse → t.off = s.off ∧ t.nrec = s.nrec ∧ t.pstate = s.pstate
  scratch : (∀ m, i ≠ .segwitDecode m) → t.scratchHrp = s.scratchHrp ∧ t.scratchWords = s.scratchWords

theorem exec_registerFrame {i : Instr} {s t : State} (ht : exec i s = .next t) : RegisterFrame i s t := by
  cases i with
  | nop => rw [next_inj (exec_nop s) ht]; constructor <;> simp
  | chkInit => rw [next_inj (exec_chkInit s) ht]; constructor <;> simp
  | chkStep v => rw [next_inj (exec_chkStep v s) ht]; constructor <;> simp
  | chkHrp => rw [chkHrp_frame ht]; constructor <;> simp
  | chkFinal e => rw [next_inj (exec_chkFinal e s) ht]; constructor <;> simp
  | b32Encode e => rw [b32Encode_frame ht]; constructor <;> simp
  | b32Decode => rw [b32Decode_frame ht]; constructor <;> simp
  | convert d p => rw [convert_frame ht]; constructor <;> simp
  | segwitEncode m => rw [segwitEncode_frame ht]; constructor <;> simp
  | segwitDecode m => rw [segwitDecode_frame ht]; constructor <;> simp
  | tlvParse => rw [tlvParse_frame ht]; constructor <;> simp
  | tlvFind k => rw [next_inj (exec_tlvFind k s) ht]; constructor <;> simp
  | tlvEncode => rw [tlvEncode_frame ht]; constructor <;> simp
  | xfer => rw [next_inj (exec_xfer s) ht]; constructor <;> simp

/-! ### The buffers -/

/-- The buffers a command may write: HBUF in B32_DECODE, IBUF in XFER, OBUF in the commands with an output (R60). -/
def mayWrite : Instr → Buffer → Bool
  | .b32Decode, .hbuf => true
  | .xfer, .ibuf => true
  | .chkFinal _, .obuf => true
  | .b32Encode _, .obuf => true
  | .b32Decode, .obuf => true
  | .convert _ _, .obuf => true
  | .segwitEncode _, .obuf => true
  | .segwitDecode _, .obuf => true
  | .tlvEncode, .obuf => true
  | _, _ => false

/-- An offset in no buffer that the command may write keeps its byte. -/
theorem exec_read_frame {i : Instr} {s t : State} (ht : exec i s = .next t) {a : Nat}
    (ha : ∀ b, mayWrite i b = true → b.holds a = false) : t.mem.read a = s.mem.read a := by
  cases i with
  | nop => rw [next_inj (exec_nop s) ht]; rfl
  | chkInit => rw [next_inj (exec_chkInit s) ht]; rfl
  | chkStep v => rw [next_inj (exec_chkStep v s) ht]; rfl
  | chkHrp => rw [chkHrp_frame ht]
  | chkFinal e =>
    rw [next_inj (exec_chkFinal e s) ht]
    exact Memory.read_storeBuffer_other _ _ _ (ha .obuf rfl)
  | b32Encode e =>
    rcases exec_b32Encode_cases e s with ⟨er, -, h⟩ | ⟨p, -, h⟩ <;> rw [next_inj h ht]
    · exact Memory.read_forget_other _ _ _ (ha .obuf rfl)
    · exact Memory.read_storeBuffer_other _ _ _ (ha .obuf rfl)
  | b32Decode =>
    rcases exec_b32Decode_cases s with ⟨er, -, h⟩ | ⟨g, -, h⟩ <;> rw [next_inj h ht]
    · exact (Memory.read_forget_other _ _ _ (ha .obuf rfl)).trans (Memory.read_forget_other _ _ _ (ha .hbuf rfl))
    · exact (Memory.read_storeBuffer_other _ _ _ (ha .obuf rfl)).trans
        (Memory.read_storeBuffer_other _ _ _ (ha .hbuf rfl))
  | convert d p =>
    rcases exec_convert_cases d p s with ⟨e, -, h⟩ | ⟨-, h⟩ <;> rw [next_inj h ht]
    · exact Memory.read_forget_other _ _ _ (ha .obuf rfl)
    · exact Memory.read_storeBuffer_other _ _ _ (ha .obuf rfl)
  | segwitEncode m =>
    rcases exec_segwitEncode_cases m s with ⟨e, -, h⟩ | ⟨-, ⟨e, -, h⟩ | ⟨-, ⟨e, -, h⟩ | ⟨p, -, h⟩⟩⟩ <;>
      rw [next_inj h ht]
    · exact Memory.read_forget_other _ _ _ (ha .obuf rfl)
    · exact Memory.read_forget_other _ _ _ (ha .obuf rfl)
    · exact Memory.read_forget_other _ _ _ (ha .obuf rfl)
    · exact Memory.read_storeBuffer_other _ _ _ (ha .obuf rfl)
  | segwitDecode m =>
    rcases exec_segwitDecode_cases m s with
      ⟨te, -, h⟩ | ⟨g, -, ⟨-, h⟩ | ⟨-, ⟨e, -, h⟩ | ⟨v, ws, c, -, -, ⟨e, -, h⟩ | ⟨-, ⟨-, h⟩ | ⟨-, h⟩⟩⟩⟩⟩ <;>
      rw [next_inj h ht]
    · exact Memory.read_forget_other _ _ _ (ha .obuf rfl)
    · exact Memory.read_forget_other _ _ _ (ha .obuf rfl)
    · exact Memory.read_forget_other _ _ _ (ha .obuf rfl)
    · exact Memory.read_forget_other _ _ _ (ha .obuf rfl)
    · exact Memory.read_forget_other _ _ _ (ha .obuf rfl)
    · exact Memory.read_storeBuffer_other _ _ _ (ha .obuf rfl)
  | tlvParse => rw [tlvParse_frame ht]
  | tlvFind k => rw [next_inj (exec_tlvFind k s) ht]; rfl
  | tlvEncode =>
    rcases exec_tlvEncode_cases s with ⟨e, -, h⟩ | ⟨out, -, h⟩ <;> rw [next_inj h ht]
    · exact Memory.read_forget_other _ _ _ (ha .obuf rfl)
    · exact Memory.read_storeBuffer_other _ _ _ (ha .obuf rfl)
  | xfer =>
    rw [next_inj (exec_xfer s) ht]
    exact Memory.read_storeBuffer_other _ _ _ (ha .ibuf rfl)

/-- A buffer that the command may not write keeps its bytes. -/
theorem exec_keeps_buffer {i : Instr} {s t : State} (ht : exec i s = .next t) {b : Buffer} (hb : mayWrite i b = false) :
    ∀ k < Config.bufBytes, t.mem.read (b.base + k) = s.mem.read (b.base + k) := by
  intro k hk
  refine exec_read_frame ht fun c hc => holds_base_add_ne ?_ hk
  rintro rfl
  rw [hb] at hc; cases hc

theorem mayWrite_ibuf {i : Instr} (h : i ≠ .xfer) : mayWrite i .ibuf = false := by
  cases i with
  | xfer => exact absurd rfl h
  | _ => rfl

theorem mayWrite_hbuf {i : Instr} (h : i ≠ .b32Decode) : mayWrite i .hbuf = false := by
  cases i with
  | b32Decode => exact absurd rfl h
  | _ => rfl

end Sys2Proof.Machine

namespace Sys2Proof.Proofs

open Sys2Proof.Machine

/-- Settles O11: the register frame and the buffer frame of every command. -/
theorem commandsWriteOnlyTheirRegisters : Obligations.CommandsWriteOnlyTheirRegisters := by
  unfold Obligations.CommandsWriteOnlyTheirRegisters
  intro i s t ht
  have f := exec_registerFrame ht
  refine ⟨f.cmd, f.maxLen, f.inputs, f.readLog, f.inLen, f.hrpLen, f.version, f.table, f.found, f.chk, f.converter,
    f.parser, f.scratch, ?outside, ?ibuf, ?hbuf, ?obuf⟩
  case outside => exact fun a ha => exec_read_frame ht fun b _ => holds_of_bufferAt_eq_none ha b
  case ibuf => exact fun hi => exec_keeps_buffer ht (mayWrite_ibuf hi)
  case hbuf => exact fun hi => exec_keeps_buffer ht (mayWrite_hbuf hi)
  case obuf =>
    rintro (rfl | rfl | ⟨v, rfl⟩ | rfl | rfl | ⟨k, rfl⟩ | rfl) <;> exact exec_keeps_buffer ht rfl

end Sys2Proof.Proofs
end

section
/-! SUPPORT. What the host's register accesses store and return (O18 to O21, O24): the clamps and the bits of the words (10_state.md
R24 to R35, 20_memory.md R61, R63). -/

namespace Sys2Proof.Machine

/-! ### Words and their fields (R25, R33, R35) -/

theorem Record.word_eq_append (r : Record) : r.word = r.voff ++ r.length ++ r.type := by
  apply BitVec.eq_of_getLsbD_eq
  intro i hi
  simp only [Record.word, BitVec.getLsbD_or, BitVec.getLsbD_shiftLeft, BitVec.getLsbD_setWidth, BitVec.getLsbD_append]
  by_cases h8 : i < 8
  · simp [hi, h8, show i < 16 by omega]
  · have htype : r.type.getLsbD i = false := BitVec.getLsbD_of_ge _ _ (by omega)
    by_cases h16 : i < 16
    · simp [hi, h8, h16, htype, show i - 8 < 8 by omega, show i - 8 < 32 by omega]
    · have hlength : r.length.getLsbD (i - 8) = false := BitVec.getLsbD_of_ge _ _ (by omega)
      simp [hi, h8, h16, htype, hlength, show ¬ i - 8 < 8 by omega, show i - 16 < 32 by omega, show i - 8 - 8 = i - 16 by omega]

/-- The fields of a record stand at the bits R35 gives. -/
theorem Record.ofWord_word (r : Record) : Record.ofWord r.word = r := by
  rw [Record.word_eq_append, Record.ofWord, BitVec.extractLsb'_append_eq_right,
    BitVec.extractLsb'_append_eq_of_le (by decide), BitVec.extractLsb'_append_eq_right,
    BitVec.extractLsb'_append_eq_of_le (by decide), BitVec.extractLsb'_append_eq_left]

theorem Record.word_ofWord (w : Word) : (Record.ofWord w).word = w := by
  rw [Record.word_eq_append, Record.ofWord]
  have h : w.extractLsb' 16 16 ++ w.extractLsb' 8 8 = w.extractLsb' 8 24 :=
    BitVec.extractLsb'_append_extractLsb'_eq_extractLsb' rfl
  simp only [h]
  exact BitVec.extractLsb'_append_extractLsb' (w := 24) (len := 8)

/-- The fields of STATUS stand at the bits R25 gives, and its reserved bits read 0. -/
theorem Status.word_fields (t : Status) : t.word.getLsbD 0 = t.busy ∧ t.word.getLsbD 1 = t.done ∧
    t.word.getLsbD 2 = t.err ∧ t.word.extractLsb' 8 5 = t.errcode ∧ t.word.extractLsb' 16 2 = t.enc ∧
    t.word &&& 0xFFFCE0F8 = 0 := by
  have hcode : ∀ c : BitVec 5, (c.setWidth 32 <<< 8).extractLsb' 8 5 = c ∧ (c.setWidth 32 <<< 8).extractLsb' 16 2 = 0#2 ∧
      (c.setWidth 32 <<< 8) &&& 0xFFFCE0F8#32 = 0 ∧ ∀ j < 3, (c.setWidth 32 <<< 8).getLsbD j = false := by decide
  have henc : ∀ n : BitVec 2, (n.setWidth 32 <<< 16).extractLsb' 8 5 = 0#5 ∧ (n.setWidth 32 <<< 16).extractLsb' 16 2 = n ∧
      (n.setWidth 32 <<< 16) &&& 0xFFFCE0F8#32 = 0 ∧ ∀ j < 3, (n.setWidth 32 <<< 16).getLsbD j = false := by decide
  have hflag : ∀ b, ∀ i < 3, (flagBit b i).extractLsb' 8 5 = 0#5 ∧ (flagBit b i).extractLsb' 16 2 = 0#2 ∧
      flagBit b i &&& 0xFFFCE0F8#32 = 0 ∧ ∀ j < 3, (flagBit b i).getLsbD j = (b && decide (j = i)) := by decide
  have hbit : ∀ j < 3, t.word.getLsbD j =
      ((t.busy && decide (j = 0)) || (t.done && decide (j = 1)) || (t.err && decide (j = 2))) := fun j hj => by
    obtain ⟨-, -, -, hc⟩ := hcode t.errcode
    obtain ⟨-, -, -, hn⟩ := henc t.enc
    obtain ⟨-, -, -, h0⟩ := hflag t.busy 0 (by decide)
    obtain ⟨-, -, -, h1⟩ := hflag t.done 1 (by decide)
    obtain ⟨-, -, -, h2⟩ := hflag t.err 2 (by decide)
    simp only [Status.word, BitVec.getLsbD_or, h0 j hj, h1 j hj, h2 j hj, hc j hj, hn j hj, Bool.or_false]
  refine ⟨?_, ?_, ?_, ?_, ?_, ?_⟩
  · rw [hbit 0 (by decide)]; simp
  · rw [hbit 1 (by decide)]; simp
  · rw [hbit 2 (by decide)]; simp
  · simp [Status.word, BitVec.extractLsb'_or, hcode, henc, hflag]
  · simp [Status.word, BitVec.extractLsb'_or, hcode, henc, hflag]
  · simp [Status.word, BitVec.and_or_distrib_right, hcode, henc, hflag]

/-- The fields of TLV_FOUND stand at the bits R33 gives, and its reserved bits read 0. -/
theorem Found.word_fields (f : Found) : f.word.extractLsb' 0 5 = f.index ∧ f.word.getLsbD 8 = f.found ∧
    f.word &&& 0xFFFFFEE0 = 0 := by
  have key : ∀ (i : BitVec 5) (b : Bool), (Found.word ⟨i, b⟩).extractLsb' 0 5 = i ∧ (Found.word ⟨i, b⟩).getLsbD 8 = b ∧
      Found.word ⟨i, b⟩ &&& 0xFFFFFEE0 = 0 := by decide
  exact key f.index f.found

/-! ### What a host write stores and a host read returns while BUSY = 0 -/

theorem readValue_idle (r : Reg) {s : State} (h : s.status.busy = false) : readValue r.offset 4 s = r.value s := by
  rw [readValue_offset, h]; rfl

/-- Reading a register back that a host write has just written. -/
theorem readValue_write {r : Reg} (hr : r ≠ .cmd) (v : Word) {s : State} (h : s.status.busy = false) :
    readValue r.offset 4 (r.write v s) = r.value (r.write v s) := by
  obtain ⟨-, hstatus, -⟩ := r.write_keeps_command v s hr
  exact readValue_idle r (hstatus ▸ h)

/-- The value a length register stores, as R26, R27 and R29 say it. -/
theorem clampLength_eq (v : Word) : clampLength v = BitVec.ofNat 16 (min (v.toNat % 65536) 512) := by
  simp [clampLength, bufBytes_eq, BitVec.extractLsb'_toNat]

/-- A length register's number is what a read returns. -/
theorem toNat_value_length (v : Word) : ((clampLength v).setWidth 32).toNat = min (v.toNat % 65536) 512 := by
  simp only [clampLength_eq, BitVec.toNat_setWidth, BitVec.toNat_ofNat]
  omega

/-- The value TLV_COUNT stores, as R32 says it. -/
theorem toNat_clampCount (v : Word) : (clampCount v).toNat = min (v.toNat % 32) 16 := by
  simp only [clampCount, tlvMaxRecords, BitVec.toNat_ofNat, BitVec.extractLsb'_toNat, Nat.shiftRight_zero]
  omega

/-- The registers that ignore host writes (R25, R28, R33, R34). -/
theorem Reg.write_readOnly {r : Reg} (hr : r ∈ [Reg.status, .outLen, .tlvFound, .tlvEnd]) (v : Word) (s : State) :
    r.write v s = s := by
  simp only [List.mem_cons, List.not_mem_nil, or_false] at hr
  rcases hr with rfl | rfl | rfl | rfl <;> rfl

/-! ### Reserved offsets (R23, R61) -/

/-- An offset with no storage behind it: in the register window or past the end of a buffer. -/
def Reserved (o : Nat) : Prop :=
  (0x02C ≤ o ∧ o < 0x040) ∨ (0x080 ≤ o ∧ o < 0x1000) ∨ (0x1200 ≤ o ∧ o < 0x2000) ∨ (0x2200 ≤ o ∧ o < 0x3000) ∨ 0x3200 ≤ o

/-- An admitted access of a reserved offset of a buffer window touches no buffer byte: a word does not reach the next one. -/
theorem Reserved.bufferAt_eq_none {o n : Nat} (h : Reserved o) (ho : 0x1000 ≤ o) (ha : admitted o n = true) :
    bufferAt o = none ∧
      (n ≠ 1 → bufferAt (o + 1) = none ∧ bufferAt (o + 2) = none ∧ bufferAt (o + 3) = none) := by
  rw [admitted_iff] at ha
  unfold Reserved at h
  exact ⟨bufferAt_reserved (by omega), fun hn => ⟨bufferAt_reserved (by omega), bufferAt_reserved (by omega),
    bufferAt_reserved (by omega)⟩⟩

theorem writeValue_reserved {o n : Nat} (h : Reserved o) (ha : admitted o n = true) (v : Word) (s : State) :
    writeValue o n v s = s := by
  unfold writeValue
  by_cases hw : o < windowSize
  · rw [if_pos hw, regAt_eq_none (by unfold Reserved at h; unfold windowSize at hw; omega)]
  · obtain ⟨h0, hrest⟩ := h.bufferAt_eq_none (Nat.not_lt.1 hw) ha
    rw [if_neg hw, bufferWrite]
    by_cases hn : n = 1
    · rw [if_pos hn, Memory.storeByte_of_none _ _ h0]
    · obtain ⟨h1, h2, h3⟩ := hrest hn
      rw [if_neg hn, Memory.storeByte_of_none _ _ h0, Memory.storeByte_of_none _ _ h1, Memory.storeByte_of_none _ _ h2,
        Memory.storeByte_of_none _ _ h3]

theorem byteRead_of_none {o : Nat} (h : bufferAt o = none) (s : State) : byteRead o s = 0 := by
  rw [byteRead, h, Option.isSome_none, Bool.and_false, if_neg (by decide), Memory.read_of_none _ h]

theorem readValue_reserved {o n : Nat} (h : Reserved o) (ha : admitted o n = true) (s : State) : readValue o n s = 0 := by
  unfold readValue
  by_cases hw : o < windowSize
  · rw [if_pos hw, registerRead, regAt_eq_none (by unfold Reserved at h; unfold windowSize at hw; omega)]
  · obtain ⟨h0, hrest⟩ := h.bufferAt_eq_none (Nat.not_lt.1 hw) ha
    rw [if_neg hw]
    by_cases hn : n = 1
    · rw [if_pos hn, byteRead_of_none h0]; rfl
    · obtain ⟨h1, h2, h3⟩ := hrest hn
      rw [if_neg hn, wordRead, byteRead_of_none h0, byteRead_of_none h1, byteRead_of_none h2, byteRead_of_none h3]; rfl

theorem busWrite_of_idle {o n : Nat} (ha : admitted o n = true) (v : Word) {s : State} (h : s.status.busy = false) :
    busWrite o n v s = .next (writeValue o n v s) := by
  rw [busWrite, if_pos ha, if_neg (by simp [h])]

end Sys2Proof.Machine

namespace Sys2Proof.Proofs

open Sys2Proof.Machine

/-- Settles O18: the three writes are the register writes of R63, and the clamped value fits the register. -/
theorem lengthRegistersClampHostWrites : Obligations.LengthRegistersClampHostWrites := by
  unfold Obligations.LengthRegistersClampHostWrites
  rintro s v h x rfl
  refine ⟨⟨_, busWrite_offset .inLen v s h, ?_, ?_⟩, ⟨_, busWrite_offset .hrpLen v s h, ?_, ?_⟩,
    ⟨_, busWrite_offset .maxLen v s h, ?_, ?_⟩⟩
  · rw [Reg.write, clampLength_eq]
  · exact (congrArg BitVec.toNat (readValue_write (r := .inLen) (by decide) v h)).trans (toNat_value_length v)
  · rw [Reg.write, clampLength_eq]
  · exact (congrArg BitVec.toNat (readValue_write (r := .hrpLen) (by decide) v h)).trans (toNat_value_length v)
  · rw [Reg.write, clampLength_eq]
  · exact (congrArg BitVec.toNat (readValue_write (r := .maxLen) (by decide) v h)).trans (toNat_value_length v)

/-- Settles O19: each write is the register write of R63, and a read gives the stored field's number or all 32 bits. -/
theorem hostWritesReadBack : Obligations.HostWritesReadBack := by
  unfold Obligations.HostWritesReadBack
  intro s v i h
  refine ⟨⟨_, busWrite_offset .chk v s h, rfl, ?_⟩, ⟨_, busWrite_offset .version v s h, rfl, ?_⟩,
    ⟨_, busWrite_offset .tlvCount v s h, rfl, ?_⟩, ⟨_, busWrite_offset (.tlvRec i) v s h, rfl, ?_, fun j hj => ?_⟩⟩
  · refine (congrArg BitVec.toNat (readValue_write (r := .chk) (by decide) v h)).trans ?_
    simp only [Reg.value, Reg.write, BitVec.toNat_setWidth, BitVec.extractLsb'_toNat, Nat.shiftRight_zero]
    omega
  · refine (congrArg BitVec.toNat (readValue_write (r := .version) (by decide) v h)).trans ?_
    simp only [Reg.value, Reg.write, BitVec.toNat_setWidth, BitVec.extractLsb'_toNat, Nat.shiftRight_zero]
    omega
  · refine (congrArg BitVec.toNat (readValue_write (r := .tlvCount) (by decide) v h)).trans ?_
    simp only [Reg.value, Reg.write, BitVec.toNat_setWidth, toNat_clampCount]
    omega
  · refine (readValue_write (r := .tlvRec i) (by simp) v h).trans ?_
    simp [Reg.value, Reg.write, Record.word_ofWord]
  · have hne : i.val ≠ j.val := fun e => hj (Fin.ext e.symm)
    simp [Reg.write, hne]

/-- Settles O20: read-only registers by their own rule, reserved offsets because no register and no buffer byte is there. -/
theorem readOnlyAndReservedIgnoreWrites : Obligations.ReadOnlyAndReservedIgnoreWrites := by
  unfold Obligations.ReadOnlyAndReservedIgnoreWrites
  intro s v o n h ha
  refine ⟨fun ho => ?_, fun ho => ?_⟩
  · have hn : n = 4 := by
      rw [admitted_iff] at ha
      simp only [List.mem_cons, List.not_mem_nil, or_false] at ho
      omega
    subst hn
    have hreg : ∃ r ∈ [Reg.status, .outLen, .tlvFound, .tlvEnd], o = r.offset := by
      simpa [Reg.offset] using ho
    obtain ⟨r, hr, rfl⟩ := hreg
    rw [busWrite_offset r v s h, Reg.write_readOnly hr]
  · rw [busWrite_of_idle ha v h, writeValue_reserved ho ha]
    exact ⟨rfl, readValue_reserved ho ha s⟩

/-- Settles O21: the words of STATUS, TLV_FOUND and a record by their fields, the other registers by their numbers. -/
theorem statusAndFoundWords : Obligations.StatusAndFoundWords := by
  unfold Obligations.StatusAndFoundWords
  rintro s x y rfl rfl
  have hstatus : readValue 0x004 4 s = s.status.word := (readValue_offset .status s).trans (by simp [Reg.value])
  have hcmd : readValue 0x000 4 s = s.cmd := (readValue_offset .cmd s).trans (by simp [Reg.value])
  refine ⟨hstatus ▸ s.status.word_fields, hcmd, fun h => ?_⟩
  have hfound : readValue 0x024 4 s = s.tlvFound.word := readValue_idle .tlvFound h
  have number (r : Reg) {w : Nat} (x : BitVec w) (hw : w ≤ 32) (hx : r.value s = x.setWidth 32) :
      (readValue r.offset 4 s).toNat = x.toNat := by
    rw [readValue_idle r h, hx, BitVec.toNat_setWidth_of_le hw]
  refine ⟨hfound ▸ s.tlvFound.word_fields, number .inLen s.inLen (by decide) rfl, number .hrpLen s.hrpLen (by decide) rfl,
    number .outLen s.outLen (by decide) rfl, number .maxLen s.maxLen (by decide) rfl, number .chk s.chk (by decide) rfl,
    number .version s.version (by decide) rfl, number .tlvCount s.tlvCount (by decide) rfl,
    number .tlvEnd s.tlvEnd (by decide) rfl, ?_⟩
  rintro i z rfl
  have hrec : readValue (0x040 + 4 * i.val) 4 s = s.tlvRec[i].word := readValue_idle (.tlvRec i) h
  have hfields := Record.ofWord_word s.tlvRec[i]
  rw [hrec]
  exact ⟨congrArg Record.type hfields, congrArg Record.length hfields, congrArg Record.voff hfields⟩

/-- Settles O24: the step is the read, and only a read while BUSY uses up a draw. -/
theorem busReadsChangeNothing : Obligations.BusReadsChangeNothing := by
  unfold Obligations.BusReadsChangeNothing
  intro s o n rest hin ha
  refine ⟨_, (step_cons hin).trans (if_pos ha), rfl, fun h => ?_⟩
  simp only [h]
  rfl

end Sys2Proof.Proofs
end

section
/-! SUPPORT. Every word the decoder accepts is a legal one (30_encoding.md R82), and what a host write to CMD starts (R24, R270). -/

namespace Sys2Proof.Machine

open Sys2Proof.Claims

/-! ### The decoder accepts legal words only -/

/-- A word that a mask selects agrees with the pattern above bit `k`, where the mask keeps every bit. -/
theorem ushiftRight_eq_of_and_eq {w m p : Word} (k : Nat) (h : w &&& m = p) (hm : m >>> k = 0xFFFFFFFF#32 >>> k) :
    w.toNat / 2 ^ k = p.toNat / 2 ^ k := by
  have hs : w >>> k = p >>> k := by
    rw [← h, BitVec.ushiftRight_and_distrib, hm, ← BitVec.ushiftRight_and_distrib,
      show 0xFFFFFFFF#32 = BitVec.allOnes 32 from rfl, BitVec.and_allOnes]
  simpa [Nat.shiftRight_eq_div_pow] using congrArg BitVec.toNat hs

/-- A word that a mask selects agrees with the pattern in the low byte, where the mask keeps every bit. -/
theorem low_byte_eq_of_and_eq {w m p : Word} (h : w &&& m = p) (hm : m &&& 0xFF#32 = 0xFF#32) :
    w.toNat % 256 = p.toNat % 256 := by
  have hb : w &&& 0xFF#32 = p &&& 0xFF#32 := by rw [← h, BitVec.and_assoc, hm]
  simpa [Nat.and_two_pow_sub_one_eq_mod _ 8] using congrArg BitVec.toNat hb

/-- The rows of the opcode map by the bits above the opcode that their masks leave free: none, one, two or five (R80). -/
theorem opcodeMap_masks : ∀ r ∈ opcodeMap, r.mask &&& 0xFF#32 = 0xFF#32 ∧ r.pattern.toNat < 256 ∧
    ((r.mask >>> 0 = 0xFFFFFFFF#32 >>> 0 ∧ r.pattern.toNat ∈ [0x00, 0x01, 0x03, 0x11, 0x40, 0x42, 0x50]) ∨
     (r.mask >>> 9 = 0xFFFFFFFF#32 >>> 9 ∧ r.pattern.toNat ∈ [0x04, 0x10, 0x30, 0x31]) ∨
     (r.mask >>> 10 = 0xFFFFFFFF#32 >>> 10 ∧ r.pattern.toNat ∈ [0x20, 0x41]) ∨
     (r.mask >>> 13 = 0xFFFFFFFF#32 >>> 13 ∧ r.pattern.toNat = 0x02)) := by decide

theorem legalWord_of_selects {w : Word} {r : OpcodeRow} (hr : r ∈ opcodeMap) (h : r.selects w = true) : legalWord w := by
  have hand : w &&& r.mask = r.pattern := by simpa [OpcodeRow.selects] using h
  obtain ⟨hlow, hlt, hrow⟩ := opcodeMap_masks r hr
  have hop : w.toNat % 256 = r.pattern.toNat := (low_byte_eq_of_and_eq hand hlow).trans (Nat.mod_eq_of_lt hlt)
  rcases hrow with ⟨hm, hp⟩ | ⟨hm, hp⟩ | ⟨hm, hp⟩ | ⟨hm, hp⟩ <;>
    have hhigh := ushiftRight_eq_of_and_eq _ hand hm
  · have hw : w.toNat = r.pattern.toNat := by omega
    exact .inl (hw ▸ hp)
  · exact .inr (.inr (.inl ⟨hop ▸ hp, by omega⟩))
  · exact .inr (.inr (.inr ⟨hop ▸ hp, by omega⟩))
  · exact .inr (.inl ⟨hop.trans hp, by omega⟩)

theorem legalWord_of_decode {w : Word} {i : Instr} (h : decode w = .ok i) : legalWord w := by
  unfold decode at h
  split at h
  next r hr =>
    have hsel := List.find?_some hr
    exact legalWord_of_selects (List.mem_of_find?_eq_some hr) hsel
  next => cases h

/-! ### The block's turn -/

theorem blockStep_legal {s : State} {w : Word} {i : Instr} (hp : s.pending = some w) (hd : decode w = .ok i) :
    blockStep s = exec i s := by rw [blockStep, hp]; simp only [runCommand, hd]

theorem blockStep_illegal {s : State} {w : Word} (hp : s.pending = some w) (hw : ¬ legalWord w) :
    blockStep s = .next (s.raise .illegalCommand) := by
  rw [blockStep, hp]
  cases hd : decode w with
  | ok i => exact absurd (legalWord_of_decode hd) hw
  | error e => simp only [runCommand, hd]; rfl

end Sys2Proof.Machine

namespace Sys2Proof.Proofs

open Sys2Proof.Machine

/-- Settles O6: with no event left the step is the block's turn, and the turn runs the decoded command. -/
theorem stepRunsThePendingCommand : Obligations.StepRunsThePendingCommand := by
  unfold Obligations.StepRunsThePendingCommand
  intro s w i hin hp hd
  rw [step_nil hin, blockStep_legal hp hd]

/-- Settles O7: the write is a register write of CMD, and the turn after it is the block's. -/
theorem cmdWriteStartsTheCommand : Obligations.CmdWriteStartsTheCommand := by
  unfold Obligations.CmdWriteStartsTheCommand
  intro s w rest h hin
  have hstep : step s = .next (State.start w { s with inputs := .blockTurn :: rest }) :=
    (step_cons hin).trans (busWrite_offset .cmd w { s with inputs := .blockTurn :: rest } h)
  have hturn : step (State.start w { s with inputs := .blockTurn :: rest }) =
      blockStep (State.start w { s with inputs := rest }) :=
    step_cons (s := State.start w { s with inputs := .blockTurn :: rest }) rfl
  refine ⟨_, hstep, rfl, ?_, fun i hd => ?_, fun hw => ?_⟩
  · exact show Status.started.word = 0x00000001 by decide
  · exact hturn.trans (blockStep_legal rfl hd)
  · exact hturn.trans (blockStep_illegal rfl hw)

/-- Settles O55: the parser ends idle and in its ranges, and its cursor fits OFF. -/
theorem parserEndsIdle : Obligations.ParserEndsIdle := by
  unfold Obligations.ParserEndsIdle
  intro s t ht
  obtain ⟨hidle, hn, hoff⟩ := parseAll_ends s.input s.tlvRec
  have hoff' : (BitVec.ofNat 16 (parseAll s.input s.tlvRec).off).toNat ≤ s.input.length := by
    rw [BitVec.toNat_ofNat]; exact (Nat.mod_le _ _).trans hoff
  rcases exec_tlvParse_cases s with ⟨e, -, h⟩ | ⟨-, h⟩ <;> obtain rfl := next_inj h ht <;> exact ⟨hidle, hn, hoff'⟩

end Sys2Proof.Proofs
end

section
/-! SUPPORT. CHARSET and REV (O31; 10_state.md R42, R43). -/

namespace Sys2Proof.Machine

theorem length_charset : charset.length = 32 := by decide

theorem nodup_charset : charset.Nodup := by decide

theorem getElem_charset (v : Sym) : charset[v.toNat]'(by rw [length_charset]; exact v.isLt) = charOf v := by
  rw [charOf, List.getD_eq_getElem]

/-- The character of a symbol stands nowhere else in CHARSET, so the search for it ends at the symbol. -/
theorem findIdx?_charset (c : Byte) (v : Sym) :
    charset.findIdx? (fun x => x == c) = some v.toNat ↔ charOf v = c := by
  have hv : v.toNat < charset.length := by rw [length_charset]; exact v.isLt
  rw [List.findIdx?_eq_some_iff_getElem]
  constructor
  · rintro ⟨_, hc, -⟩
    rw [getElem_charset] at hc
    exact eq_of_beq hc
  · rintro rfl
    refine ⟨hv, by rw [getElem_charset]; exact beq_self_eq_true _, fun j hj => ?_⟩
    rw [← getElem_charset, beq_eq_false_iff_ne.2]
    · exact Bool.false_ne_true
    · exact fun he => absurd (nodup_charset.getElem_inj_iff.1 he) (by omega)

theorem symOf_eq_some (b : Byte) (v : Sym) : symOf b = some v ↔ charOf v = toLower b := by
  rw [← findIdx?_charset, symOf]
  cases h : charset.findIdx? (fun x => x == toLower b) with
  | none => simp
  | some i =>
    have hi : i < 32 := by
      rw [List.findIdx?_eq_some_iff_getElem] at h
      exact length_charset ▸ h.1
    simp only [Option.map_some, Option.some.injEq, ← BitVec.toNat_inj, BitVec.toNat_ofNat]
    omega

end Sys2Proof.Machine

namespace Sys2Proof.Proofs

open Sys2Proof.Machine

/-- Settles O31: CHARSET has no character twice, so the search REV makes ends at the symbol of the character. -/
theorem reverseLookupInvertsTheCharset : Obligations.ReverseLookupInvertsTheCharset := by
  unfold Obligations.ReverseLookupInvertsTheCharset
  exact ⟨by decide, symOf_eq_some⟩

end Sys2Proof.Proofs
end

section
/-! SUPPORT. When the machine stops (O15, O16, O26, O27): no command and no turn of the block does, and a host access does for the two
reasons of R62 and R296 only; so a host that keeps its duties never sees a stop. -/

namespace Sys2Proof.Machine

/-! ### Host accesses that stop the machine (R62, R296) -/

theorem busRead_ne_fault (o n : Nat) (s : State) (f : Fault) : busRead o n s ≠ .fault f := by
  unfold busRead
  split <;> simp

theorem busRead_eq_refused_iff {o n : Nat} {s : State} {r : Refusal} :
    busRead o n s = .refused r ↔ admitted o n = false ∧ r = .unadmittedAccess := by
  unfold busRead
  split
  next ha => simp [ha]
  next ha => simp [ha, eq_comm]

theorem busWrite_eq_fault_iff {o n : Nat} {v : Word} {s : State} {f : Fault} :
    busWrite o n v s = .fault f ↔ admitted o n = true ∧ s.status.busy = true ∧ f = .hostWriteWhileBusy := by
  unfold busWrite
  split
  next ha =>
    split
    next hb => simp [ha, hb]
    next hb => simp [hb]
  next ha => simp [ha]

theorem busWrite_eq_refused_iff {o n : Nat} {v : Word} {s : State} {r : Refusal} :
    busWrite o n v s = .refused r ↔ admitted o n = false ∧ r = .unadmittedAccess := by
  unfold busWrite
  split
  next ha => split <;> simp [ha]
  next ha => simp [ha, eq_comm]

/-! ### The block's turn never stops the machine (R271) -/

/-- Every command word, legal or not, ends in a state with BUSY = 0 and the same events to come. -/
theorem runCommand_completes (w : Word) (s : State) :
    ∃ t, runCommand w s = .next t ∧ t.inputs = s.inputs ∧ t.status.busy = false := by
  unfold runCommand
  split
  next i _ =>
    obtain ⟨t, ht, -, hst⟩ := exec_ends i s
    refine ⟨t, ht, (exec_registerFrame ht).inputs, ?_⟩
    rcases hst with ⟨n, hn, -⟩ | ⟨e, he⟩
    · rw [hn]; rfl
    · rw [he]; rfl
  next => exact ⟨_, rfl, rfl, rfl⟩

/-- After the block's turn BUSY = 0: the pending command has run, or there was none and BUSY was 0 already (R40). -/
theorem blockStep_completes (s : State) :
    ∃ t, blockStep s = .next t ∧ t.inputs = s.inputs ∧ (s.pendingLegal → t.status.busy = false) := by
  unfold blockStep
  cases hp : s.pending with
  | none =>
    refine ⟨s, rfl, rfl, fun h => ?_⟩
    simpa [State.pendingLegal, hp] using h
  | some w =>
    obtain ⟨t, ht, hin, hbusy⟩ := runCommand_completes w s
    exact ⟨t, ht, hin, fun _ => hbusy⟩

/-! ### A dutiful host (R62, R296) -/

theorem Reg.write_inputs (r : Reg) (v : Word) (s : State) : (r.write v s).inputs = s.inputs := by cases r <;> rfl

theorem writeValue_inputs (o n : Nat) (v : Word) (s : State) : (writeValue o n v s).inputs = s.inputs := by
  unfold writeValue
  split
  · split
    · rfl
    · exact Reg.write_inputs _ v s
  · rfl

/-- A host write starts a command exactly when it is a write of CMD, at offset 0 (R24, R270). -/
theorem writeValue_busy (o n : Nat) (v : Word) {s : State} (h : s.status.busy = false) :
    (writeValue o n v s).status.busy = (o == 0) := by
  unfold writeValue
  split
  next =>
    split
    next hr =>
      have ho : o ≠ 0 := by rintro rfl; cases hr
      simp [h, ho]
    next r hr =>
      obtain rfl := offset_of_regAt hr
      by_cases hc : r = .cmd
      · subst hc; rfl
      · have ho : r.offset ≠ 0 := fun he => hc (Reg.offset_inj (q := .cmd) he)
        rw [(r.write_keeps_command v s hc).2.1, h, beq_eq_false_iff_ne.2 ho]
  next hw =>
    have ho : o ≠ 0 := by rintro rfl; exact hw (by decide)
    simp [h, ho]

/-- A dutiful host's next event does not stop the machine and leaves a host that is dutiful from there on. -/
theorem perform_dutiful {e : Event} {rest : List Event} {s : State} (hp : s.pendingLegal)
    (hd : dutiful s.status.busy (e :: rest) = true) :
    ∃ t, perform e s = .next t ∧ t.inputs = s.inputs ∧ dutiful t.status.busy rest = true := by
  cases e with
  | busRead o n =>
    obtain ⟨ha, hrest⟩ : admitted o n = true ∧ dutiful s.status.busy rest = true := by simpa [dutiful] using hd
    exact ⟨_, if_pos ha, rfl, hrest⟩
  | busWrite o n v =>
    obtain ⟨⟨ha, hb⟩, hrest⟩ : (admitted o n = true ∧ s.status.busy = false) ∧ dutiful (o == 0) rest = true := by
      simpa [dutiful] using hd
    exact ⟨_, busWrite_of_idle ha v hb, writeValue_inputs o n v s, by rw [writeValue_busy o n v hb]; exact hrest⟩
  | blockTurn =>
    obtain ⟨t, ht, hin, hbusy⟩ := blockStep_completes s
    exact ⟨t, ht, hin, by rw [hbusy hp]; exact hd⟩
  | reset => exact ⟨s.resetNow, rfl, rfl, hd⟩

/-- The invariant of a run that never stops: the machine's own, and a host that is dutiful from here on. -/
def State.Dutiful (s : State) : Prop := s.Inv ∧ dutiful s.status.busy s.inputs = true

theorem step_dutiful {s : State} (h : s.Dutiful) : ∃ t, step s = .next t ∧ t.Dutiful := by
  obtain ⟨hinv, hd⟩ := h
  obtain ⟨-, hp, -⟩ := (State.inv_iff s).1 hinv
  cases hin : s.inputs with
  | nil =>
    obtain ⟨t, ht, htin, -⟩ := blockStep_completes s
    have hst : step s = .next t := (step_nil hin).trans ht
    exact ⟨t, hst, step_inv hinv hst, by rw [htin, hin]; rfl⟩
  | cons e rest =>
    rw [hin] at hd
    obtain ⟨t, ht, htin, htd⟩ := perform_dutiful (s := { s with inputs := rest }) hp hd
    have hst : step s = .next t := (step_cons hin).trans ht
    exact ⟨t, hst, step_inv hinv hst, by rw [htin]; exact htd⟩

/-- A run of one step more goes on from the state that its first step gives. -/
theorem run_succ_of_step (M : Host.Core) (n : Nat) {s t : M.State} (h : M.step s = .next t) :
    M.run (n + 1) s = M.run n t := by rw [Host.Core.run, h]

/-- A predicate that every step keeps while it gives a next state holds along a run without a stop. -/
theorem neverStops_of_step {P : State → Prop} (hstep : ∀ s, P s → ∃ t, step s = .next t ∧ P t) {s : State} (hs : P s) :
    neverStops s := by
  intro n
  induction n generalizing s with
  | zero => exact ⟨s, rfl⟩
  | succ n ih =>
    obtain ⟨t, ht, hPt⟩ := hstep s hs
    obtain ⟨u, hu⟩ := ih hPt
    exact ⟨u, (run_succ_of_step core n ht).trans hu⟩

end Sys2Proof.Machine

namespace Sys2Proof.Proofs

open Sys2Proof.Machine

/-- Settles O15: the invariant together with the host's duties is kept by every step, and a step from there gives a next
state. -/
theorem dutifulHostNeverStops : Obligations.DutifulHostNeverStops := by
  unfold Obligations.DutifulHostNeverStops
  intro s hinv hd
  exact neverStops_of_step (P := State.Dutiful) (fun _ => step_dutiful) ⟨hinv, hd⟩

/-- Settles O16: the block's turn and a reset give a next state, and an access stops only as `busWrite_eq_fault_iff` and the two
refusal lemmas say. -/
theorem onlyHostAccessesStopTheMachine : Obligations.OnlyHostAccessesStopTheMachine := by
  unfold Obligations.OnlyHostAccessesStopTheMachine
  intro s
  cases hin : s.inputs with
  | nil =>
    obtain ⟨t, ht, -⟩ := blockStep_completes s
    simp [step_nil hin, ht]
  | cons e rest =>
    rw [step_cons hin]
    cases e with
    | busRead o n =>
      refine ⟨fun f hf => absurd hf (busRead_ne_fault _ _ _ f), fun r hr => ?_⟩
      obtain ⟨ha, rfl⟩ := busRead_eq_refused_iff.1 hr
      exact ⟨rfl, o, n, rest, ha, .inl rfl⟩
    | busWrite o n v =>
      refine ⟨fun f hf => ?_, fun r hr => ?_⟩
      · obtain ⟨ha, hb, rfl⟩ := busWrite_eq_fault_iff.1 hf
        exact ⟨rfl, hb, o, n, v, rest, rfl, ha⟩
      · obtain ⟨ha, rfl⟩ := busWrite_eq_refused_iff.1 hr
        exact ⟨rfl, o, n, rest, ha, .inr ⟨v, rfl⟩⟩
    | blockTurn =>
      obtain ⟨t, ht, -⟩ := blockStep_completes { s with inputs := rest }
      simp [perform, ht]
    | reset => simp [perform]

/-- Settles O26: R62's list is what `admitted` accepts, and it is looked at before BUSY. -/
theorem unadmittedAccessesAreRefused : Obligations.UnadmittedAccessesAreRefused := by
  unfold Obligations.UnadmittedAccessesAreRefused
  intro s o n v h
  have ha : admitted o n = false := by rw [← Bool.not_eq_true, admitted_iff]; exact h
  exact ⟨busRead_eq_refused_iff.2 ⟨ha, rfl⟩, busWrite_eq_refused_iff.2 ⟨ha, rfl⟩⟩

/-- Settles O27: the step is the write, and an admitted write while BUSY = 1 is the fault. -/
theorem writeWhileBusyFaults : Obligations.WriteWhileBusyFaults := by
  unfold Obligations.WriteWhileBusyFaults
  intro s o n v rest hin hb ha
  exact (step_cons hin).trans (busWrite_eq_fault_iff.2 ⟨(admitted_iff o n).2 ha, hb, rfl⟩)

end Sys2Proof.Proofs
end

section
/-! SUPPORT. What the host's accesses to the buffers do (O22, O23) and what its reads give while BUSY (O25): 20_memory.md R61, R63,
R68. -/

namespace Sys2Proof.Machine

/-! ### Offsets of buffer bytes (R61, R62) -/

theorem Buffer.base_bounds (b : Buffer) : windowSize ≤ b.base ∧ b.base + 0x1000 ≤ blockSize ∧ b.base % 4 = 0 := by
  cases b <;> decide

theorem admitted_bufferByte (b : Buffer) {k : Nat} (hk : k < Config.bufBytes) : admitted (b.base + k) 1 = true := by
  obtain ⟨hlow, hhigh, -⟩ := b.base_bounds
  unfold windowSize at hlow
  unfold blockSize at hhigh
  rw [bufBytes_eq] at hk
  rw [admitted_iff]; omega

theorem admitted_bufferWord (b : Buffer) {k : Nat} (hk : k + 3 < Config.bufBytes) (h4 : k % 4 = 0) :
    admitted (b.base + k) 4 = true := by
  obtain ⟨hlow, hhigh, hbase⟩ := b.base_bounds
  unfold blockSize at hhigh
  rw [bufBytes_eq] at hk
  rw [admitted_iff]; omega

theorem Buffer.not_lt_windowSize (b : Buffer) (k : Nat) : ¬ b.base + k < windowSize := by
  have := b.base_bounds.1
  omega

/-! ### Accesses to the buffers (R63) -/

theorem busWrite_buffer {b : Buffer} {k n : Nat} (ha : admitted (b.base + k) n = true) (v : Word) {s : State}
    (h : s.status.busy = false) :
    busWrite (b.base + k) n v s = .next { s with mem := bufferWrite (b.base + k) n v s.mem } := by
  rw [busWrite_of_idle ha v h, writeValue, if_neg (b.not_lt_windowSize k)]

/-- While BUSY = 0 a byte reads as the buffers hold it. -/
theorem byteRead_withMem (o : Nat) (m : Memory) {s : State} (h : s.status.busy = false) :
    byteRead o { s with mem := m } = m.read o := by
  rw [byteRead, h, Bool.false_and, if_neg Bool.false_ne_true]

theorem readValue_bufferByte (b : Buffer) (k : Nat) (s : State) :
    readValue (b.base + k) 1 s = (byteRead (b.base + k) s).setWidth 32 := by
  rw [readValue, if_neg (b.not_lt_windowSize k), if_pos rfl]

theorem readValue_bufferWord (b : Buffer) (k : Nat) (s : State) : readValue (b.base + k) 4 s = wordRead (b.base + k) s := by
  rw [readValue, if_neg (b.not_lt_windowSize k), if_neg (by decide)]

/-- A word reads as the value whose four bytes stand in it, the byte of bits [7:0] first (R63). -/
theorem wordRead_eq {o : Nat} {s : State} {v : Word} (h : ∀ j < 4, byteRead (o + j) s = v.extractLsb' (8 * j) 8) :
    wordRead o s = v := by
  have h0 : byteRead o s = v.extractLsb' 0 8 := h 0 (by decide)
  have hhigh : v.extractLsb' 24 8 ++ v.extractLsb' 16 8 = v.extractLsb' 16 16 :=
    BitVec.extractLsb'_append_extractLsb'_eq_extractLsb' rfl
  have hupper : v.extractLsb' 16 16 ++ v.extractLsb' 8 8 = v.extractLsb' 8 24 :=
    BitVec.extractLsb'_append_extractLsb'_eq_extractLsb' rfl
  rw [wordRead, h 3 (by decide), h 2 (by decide), h 1 (by decide), h0, hhigh, hupper]
  exact BitVec.extractLsb'_append_extractLsb' (w := 24) (len := 8)

/-- The number of byte `j` of a word. -/
theorem toNat_wordByte (v : Word) (j : Nat) : (v.extractLsb' (8 * j) 8).toNat = v.toNat / 256 ^ j % 256 := by
  rw [BitVec.extractLsb'_toNat, Nat.shiftRight_eq_div_pow, Nat.pow_mul]

/-- A 32-bit write puts byte `j` of the value at offset `j` of the word (R63). -/
theorem read_bufferWord (m : Memory) (b : Buffer) {k : Nat} (hk : k + 3 < Config.bufBytes) (v : Word) {j : Nat} (hj : j < 4) :
    (bufferWrite (b.base + k) 4 v m).read (b.base + k + j) = v.extractLsb' (8 * j) 8 := by
  rw [read_bufferWrite4 _ _ _ _ fun i hi => by rw [Nat.add_assoc, bufferAt_base_add b _ (by omega)]; rfl]
  interval_cases j <;> simp

theorem read_bufferWord_outside (m : Memory) (b : Buffer) {k : Nat} (hk : k + 3 < Config.bufBytes) (v : Word) {a : Nat}
    (ha : ¬ (b.base + k ≤ a ∧ a < b.base + k + 4)) : (bufferWrite (b.base + k) 4 v m).read a = m.read a := by
  rw [read_bufferWrite4 _ _ _ _ fun i hi => by rw [Nat.add_assoc, bufferAt_base_add b _ (by omega)]; rfl]
  rw [if_neg (by omega), if_neg (by omega), if_neg (by omega), if_neg (by omega)]

/-! ### Reads while BUSY = 1 (R68) -/

theorem byteRead_busy (o : Nat) {s : State} (h : s.status.busy = true) :
    byteRead o s = if (bufferAt o).isSome then Config.freeByte s.drawn o else 0 := by
  unfold byteRead
  cases hb : bufferAt o with
  | none => simp [Memory.read_of_none _ hb]
  | some b => simp [h]

theorem registerRead_busy {o : Nat} {s : State} (h : s.status.busy = true) (h0 : o ≠ 0x000) (h4 : o ≠ 0x004) :
    registerRead o s = if (regAt o).isSome then Config.freeWord s.drawn else 0 := by
  unfold registerRead
  cases hr : regAt o with
  | none => rfl
  | some r =>
    obtain rfl := offset_of_regAt hr
    have hcmd : r ≠ .cmd := by rintro rfl; exact h0 rfl
    have hstatus : r ≠ .status := by rintro rfl; exact h4 rfl
    simp [h, hcmd, hstatus]

/-- Two busy states at the same draw read alike everywhere but at CMD and STATUS. -/
theorem readValue_busy_congr {s u : State} (hs : s.status.busy = true) (hu : u.status.busy = true) (hd : u.drawn = s.drawn)
    {o : Nat} (n : Nat) (h0 : o ≠ 0x000) (h4 : o ≠ 0x004) : readValue o n u = readValue o n s := by
  have hbyte (a : Nat) : byteRead a u = byteRead a s := by rw [byteRead_busy a hu, byteRead_busy a hs, hd]
  have hreg : registerRead o u = registerRead o s := by rw [registerRead_busy hu h0 h4, registerRead_busy hs h0 h4, hd]
  simp only [readValue, wordRead, hbyte, hreg]

end Sys2Proof.Machine

namespace Sys2Proof.Proofs

open Sys2Proof.Machine

/-- Settles O22: the write stores the low byte of the value at its own offset and nowhere else. -/
theorem bufferByteReadsBack : Obligations.BufferByteReadsBack := by
  unfold Obligations.BufferByteReadsBack
  intro s b k v h hk
  have hread (a : Nat) : (bufferWrite (b.base + k) 1 v s.mem).read a =
      if a = b.base + k then v.extractLsb' 0 8 else s.mem.read a := by
    rw [bufferWrite, if_pos rfl, Memory.read_storeByte, bufferAt_base_add b k hk, Option.isSome_some]
    simp only [and_true]
  refine ⟨_, busWrite_buffer (admitted_bufferByte b hk) v h, rfl, ?_, fun a ha => (hread a).trans (if_neg ha)⟩
  rw [readValue_bufferByte, byteRead_withMem _ _ h, hread, if_pos rfl, BitVec.toNat_setWidth_of_le (by decide)]
  exact (toNat_wordByte v 0).trans (by rw [Nat.pow_zero, Nat.div_one])

/-- Settles O23: byte `j` of the value stands at offset `j`, so the word that is read is the value's own four bytes. -/
theorem bufferWordsAreLittleEndian : Obligations.BufferWordsAreLittleEndian := by
  unfold Obligations.BufferWordsAreLittleEndian
  intro s b k v h hk h4
  have hread {j : Nat} (hj : j < 4) := read_bufferWord s.mem b hk v hj
  refine ⟨_, busWrite_buffer (admitted_bufferWord b hk h4) v h, rfl, fun j hj => ?_, ?_,
    fun a ha => read_bufferWord_outside s.mem b hk v ha⟩
  · rw [hread hj, toNat_wordByte]
  · rw [readValue_bufferWord]
    exact wordRead_eq fun j hj => (byteRead_withMem _ _ h).trans (hread hj)

/-- Settles O25: CMD and STATUS are the two registers that give their value while BUSY, and every other read depends on the offset
and the draw alone. -/
theorem readsWhileBusy : Obligations.ReadsWhileBusy := by
  unfold Obligations.ReadsWhileBusy
  intro s hs
  have hcmd : readValue 0x000 4 s = s.cmd := (readValue_offset .cmd s).trans (by simp [Reg.value])
  have hstatus : readValue 0x004 4 s = s.status.word := (readValue_offset .status s).trans (by simp [Reg.value])
  exact ⟨hcmd, hstatus, fun u hu hd o n _ h0 h4 => readValue_busy_congr hs hu hd n h0 h4⟩

end Sys2Proof.Proofs
end

section
/-! SUPPORT. CONVERT's success (O40; 42_convert.md R151 to R154): which inputs fit, what the leftover is, and what the output in OBUF
reads as. -/

namespace Sys2Proof.Machine

open Sys2Proof.Claims

/-! ### An output in OBUF (R28, R67) -/

theorem holds_putOutput {s : State} {bs : Bytes} (h : bs.length ≤ Config.bufBytes) : Claims.Holds .obuf bs (s.putOutput bs) :=
  fun k hk => Memory.read_storeBuffer_inside s.mem .obuf bs k hk (by omega)

theorem sameBytesBut_putOutput {s : State} {bs : Bytes} : SameBytesBut .obuf bs.length s (s.putOutput bs) :=
  fun a ha => Memory.read_storeBuffer_outside s.mem .obuf bs a (by omega)

/-! ### Inputs that fit (R154) -/

/-- The input words are accepted: bytes to 5 bits always, and 5-bit words to bytes when no word is above 31. -/
theorem accepts_of_le {d : Direction} {xs : Bytes} (h : d = .to8 → ∀ x ∈ xs, x.toNat ≤ 31) : ∀ x ∈ xs, Accepts d x := by
  intro x hx
  cases d with
  | to5 => exact x.isLt
  | to8 => exact Nat.lt_succ_of_le (h rfl x hx)

/-- The output fits BUF_BYTES: bytes to 5 bits up to 320 of them, and 5-bit words to bytes whatever IBUF holds. -/
theorem ceil_le_bufBytes {d : Direction} {m : Nat} (hm : m ≤ Config.bufBytes) (h : d = .to5 → m ≤ 320) :
    (m * inBits d + outBits d - 1) / outBits d ≤ Config.bufBytes := by
  rw [bufBytes_eq] at hm ⊢
  cases d with
  | to5 =>
    have := h rfl
    simp only [inBits, outBits]; omega
  | to8 => simp only [inBits, outBits]; omega

/-! ### The leftover (R152) -/

theorem drop_eq_replicate {l : List Bool} {n r : Nat} (hl : l.length = n) (hr : r ≤ n)
    (h : ∀ i, n - r ≤ i → l.getD i false = false) : l.drop (n - r) = List.replicate r false := by
  rw [List.eq_replicate_iff]
  refine ⟨by rw [List.length_drop]; omega, fun b hb => ?_⟩
  obtain ⟨i, hi, rfl⟩ := List.getElem_of_mem hb
  rw [List.getElem_drop, ← List.getD_eq_getElem _ false]
  exact h _ (by omega)

/-- A conversion without padding that no check fails: whole words of the stream, and zeros left over. -/
theorem convertBits_nopad_ok {d : Direction} {xs : Bytes} (hx : ∀ x ∈ xs, Accepts d x)
    (hfit : xs.length * inBits d / outBits d ≤ Config.bufBytes) (hshort : xs.length * inBits d % outBits d < inBits d)
    (hzero : ∀ i, xs.length * inBits d - xs.length * inBits d % outBits d ≤ i → (stream (inBits d) xs).getD i false = false) :
    let c := convertBits d .nopad xs
    c.error = none ∧ c.out.length = xs.length * inBits d / outBits d ∧ (∀ w ∈ c.out, w.toNat < 2 ^ outBits d) ∧
      stream (inBits d) xs =
        stream (outBits d) c.out ++ List.replicate (xs.length * inBits d % outBits d) false := by
  obtain ⟨hlen, hlt, hstream, herr⟩ := convertBits_nopad d xs hx hfit
  have hdrop := drop_eq_replicate (length_stream (inBits d) xs) (Nat.mod_le _ (outBits d)) hzero
  rw [hdrop] at hstream
  rw [if_pos ⟨hshort, hdrop⟩] at herr
  exact ⟨herr, hlen, hlt, hstream⟩

end Sys2Proof.Machine

namespace Sys2Proof.Proofs

open Sys2Proof.Machine Sys2Proof.Claims

/-- Settles O40: the checks that do not fail make the conversion one without an error, whose stream equation is the converter's own;
CONVERT then writes its output to OBUF. -/
theorem convertResult : Obligations.ConvertResult := by
  unfold Obligations.ConvertResult
  rintro d p s n rfl hwords hlen hleft
  have hx := accepts_of_le hwords
  have hceil := ceil_le_bufBytes s.length_input_le hlen
  have hfloor : s.input.length * inBits d / outBits d ≤ Config.bufBytes :=
    (Nat.div_le_div_right (by have := outBits_pos d; omega)).trans hceil
  have hout := (convertBits_bounds d p s.input).2
  have success (herr : (convertBits d p s.input).error = none) :
      ∃ t, exec (.convert d p) s = .next t ∧
        t = { s with
          outLen := BitVec.ofNat 16 (convertBits d p s.input).out.length, mem := t.mem, pending := none, status := okStatus 0
          acc := t.acc, bits := t.bits } ∧
        Claims.Holds .obuf (convertBits d p s.input).out t ∧
        SameBytesBut .obuf (convertBits d p s.input).out.length s t := by
    rcases exec_convert_cases d p s with ⟨e, he, -⟩ | ⟨-, h⟩
    · rw [herr] at he; cases he
    · exact ⟨_, h, rfl, holds_putOutput hout, sameBytesBut_putOutput (s := s)⟩
  cases p with
  | pad =>
    obtain ⟨herr, hlength, hlt, hstream⟩ := convertBits_pad d s.input hx hceil
    obtain ⟨t, ht, hframe, hholds, hsame⟩ := success herr
    exact ⟨t, _, ht, hframe, hholds, hsame, hout, hlt, fun _ => ⟨hlength, hstream⟩, fun h => nomatch h⟩
  | nopad =>
    obtain ⟨hshort, hzero⟩ := hleft rfl
    obtain ⟨herr, hlength, hlt, hstream⟩ := convertBits_nopad_ok hx hfloor hshort hzero
    obtain ⟨t, ht, hframe, hholds, hsame⟩ := success herr
    exact ⟨t, _, ht, hframe, hholds, hsame, hout, hlt, fun h => (nomatch h), fun _ => ⟨hlength, hstream⟩⟩

end Sys2Proof.Proofs
end

section
/-! SUPPORT. Decoder and encoder as inverses (30_encoding.md R80 to R86): the bits a row's mask leaves free are its fields, so a
command's word is its row's pattern with those bits put back. -/

namespace Sys2Proof

open Sys2Proof.Machine Sys2Proof.Claims

/-! ### Rows and the decoder (R82, R84) -/

theorem OpcodeRow.selects_iff {r : OpcodeRow} {w : Word} : r.selects w = true ↔ w &&& r.mask = r.pattern := by
  simp [OpcodeRow.selects]

/-- R82: no two rows share an OP. -/
theorem opcodeMap_patterns_nodup : (opcodeMap.map OpcodeRow.pattern).Nodup := by decide

/-- A row's pattern is 0 where its mask leaves the word free. -/
theorem opcodeMap_pattern_and_mask : ∀ r ∈ opcodeMap, r.pattern &&& r.mask = r.pattern := by decide

/-- A word selects a row when it is the row's pattern with the word's own bits where the mask has none. -/
theorem selects_iff_pattern_or {w : Word} {r : OpcodeRow} (hr : r ∈ opcodeMap) :
    r.selects w = true ↔ r.pattern ||| (w &&& ~~~ r.mask) = w := by
  rw [OpcodeRow.selects_iff]
  constructor <;> intro h
  · rw [← h, ← BitVec.and_or_distrib_left, BitVec.or_not_self, BitVec.and_allOnes]
  · rw [← h, BitVec.and_or_distrib_right, opcodeMap_pattern_and_mask r hr, BitVec.and_assoc, BitVec.and_comm (~~~ r.mask),
      BitVec.and_not_self]
    simp

theorem toNat_pattern_of_selects {w : Word} {r : OpcodeRow} (hr : r ∈ opcodeMap) (h : r.selects w = true) :
    r.pattern.toNat = w.toNat % 256 := by
  obtain ⟨hlow, hlt, -⟩ := opcodeMap_masks r hr
  exact ((low_byte_eq_of_and_eq (OpcodeRow.selects_iff.1 h) hlow).trans (Nat.mod_eq_of_lt hlt)).symm

theorem opcodeMap_row_unique {w : Word} {r q : OpcodeRow} (hr : r ∈ opcodeMap) (hq : q ∈ opcodeMap)
    (hrw : r.selects w = true) (hqw : q.selects w = true) : r = q :=
  List.inj_on_of_nodup_map opcodeMap_patterns_nodup hr hq <| BitVec.eq_of_toNat_eq <|
    (toNat_pattern_of_selects hr hrw).trans (toNat_pattern_of_selects hq hqw).symm

theorem decode_eq_ok_iff {w : Word} {i : Instr} :
    decode w = .ok i ↔ ∃ r ∈ opcodeMap, r.selects w = true ∧ r.command w = i := by
  unfold decode
  cases hfind : opcodeMap.find? (fun r => r.selects w) with
  | none =>
    have hnone := List.find?_eq_none.1 hfind
    exact ⟨fun h => (nomatch h), fun ⟨r, hr, hsel, _⟩ => absurd hsel (hnone r hr)⟩
  | some q =>
    have hq := List.mem_of_find?_eq_some hfind
    have hqw : q.selects w = true := List.find?_some (p := fun r => OpcodeRow.selects r w) hfind
    refine ⟨fun h => ⟨q, hq, hqw, Except.ok.inj h⟩, ?_⟩
    rintro ⟨r, hr, hrw, rfl⟩
    rw [opcodeMap_row_unique hr hq hrw hqw]

/-! ### Operand fields (R80, R81) -/

/-- The bits of a field of `k` bits just above the opcode. -/
def fieldMask (k : Nat) : Word := BitVec.ofNat 32 (2 ^ k - 1) <<< 8

theorem getLsbD_fieldMask {k i : Nat} (hk : k ≤ 24) : (fieldMask k).getLsbD i = (decide (8 ≤ i) && decide (i < k + 8)) := by
  simp only [fieldMask, BitVec.getLsbD_shiftLeft, BitVec.getLsbD_ofNat, Nat.testBit_two_pow_sub_one]
  grind

/-- A field moved back to its place is the word's own bits there. -/
theorem shiftLeft_field (w : Word) {k : Nat} (hk : k ≤ 24) :
    BitVec.ofNat 32 (w.extractLsb' 8 k).toNat <<< 8 = w &&& fieldMask k := by
  refine BitVec.eq_of_getLsbD_eq fun i hi => ?_
  simp only [BitVec.getLsbD_and, getLsbD_fieldMask hk, BitVec.getLsbD_shiftLeft, BitVec.getLsbD_ofNat, BitVec.testBit_toNat,
    BitVec.getLsbD_extractLsb']
  by_cases h8 : 8 ≤ i
  · rw [show 8 + (i - 8) = i by omega]
    grind
  · simp [h8]

/-- A number no longer than the field reads back from it. -/
theorem toNat_extractLsb'_field {p : Word} (hp : p.toNat < 256) {k v : Nat} (hv : v < 2 ^ k) (hk : k ≤ 24) :
    ((p ||| BitVec.ofNat 32 v <<< 8).extractLsb' 8 k).toNat = v := by
  have hv24 : v < 2 ^ 24 := hv.trans_le (Nat.pow_le_pow_right (by decide) hk)
  have hshift : (BitVec.ofNat 32 v <<< 8).toNat >>> 8 = v := by
    rw [BitVec.toNat_shiftLeft, BitVec.toNat_ofNat, Nat.shiftLeft_eq, Nat.shiftRight_eq_div_pow]; omega
  rw [BitVec.extractLsb'_toNat, BitVec.toNat_or, Nat.shiftRight_or_distrib, hshift, Nat.shiftRight_eq_div_pow,
    Nat.div_eq_of_lt hp, Nat.zero_or, Nat.mod_eq_of_lt hv]

/-- A word with a row's opcode and a number that fits the field the row's mask leaves free selects the row. -/
theorem selects_of_toNat {w : Word} {r : OpcodeRow} (hr : r ∈ opcodeMap) {k : Nat} (hk : k ≤ 24)
    (hm : r.mask = ~~~ fieldMask k) (hop : w.toNat % 256 = r.pattern.toNat) (hnum : w.toNat / 256 < 2 ^ k) :
    r.selects w = true := by
  have hfield : BitVec.ofNat 32 (w.toNat / 256) <<< 8 = w &&& fieldMask k := by
    rw [← shiftLeft_field w hk, BitVec.extractLsb'_toNat, Nat.shiftRight_eq_div_pow, Nat.mod_eq_of_lt hnum]
  have hhigh : (BitVec.ofNat 32 (w.toNat / 256) <<< 8).toNat = 2 ^ 8 * (w.toNat / 256) := by
    rw [BitVec.toNat_shiftLeft, BitVec.toNat_ofNat, Nat.shiftLeft_eq]; omega
  rw [selects_iff_pattern_or hr, hm, BitVec.not_not, ← hfield]
  refine BitVec.eq_of_toNat_eq ?_
  rw [BitVec.toNat_or, hhigh, ← hop, Nat.or_comm, ← Nat.two_pow_add_eq_or_of_lt (Nat.mod_lt w.toNat (by decide))]
  exact Nat.div_add_mod _ _

/-! ### Rows and the encoder (R82, R86) -/

/-- A row's command is one the assembler accepts, and its word is the row's pattern with the free bits of the word it was read
from. -/
def OpcodeRow.Faithful (r : OpcodeRow) : Prop :=
  ∀ w, (r.command w).wellFormed = true ∧ encode (r.command w) = r.pattern ||| (w &&& ~~~ r.mask)

/-- Format N: no field. -/
theorem OpcodeRow.faithful_fixed {name : String} {i : Instr} (h : i.wellFormed = true) :
    OpcodeRow.Faithful ⟨name, encode i, 0xFFFFFFFF#32, fun _ => i⟩ :=
  fun w => ⟨h, by simp⟩

/-- Formats E and S: the field is bit 8. -/
theorem OpcodeRow.faithful_bit {name : String} {p : Word} {c : Bool → Instr} (h : ∀ b, (c b).wellFormed = true)
    (he : ∀ b, encode (c b) = p ||| if b then BitVec.twoPow 32 8 else 0#32) :
    OpcodeRow.Faithful ⟨name, p, 0xFFFFFEFF#32, fun w => c (w.getLsbD 8)⟩ := by
  have hmask : ~~~ 0xFFFFFEFF#32 = BitVec.twoPow 32 8 := rfl
  exact fun w => ⟨h _, by rw [he, hmask, BitVec.and_twoPow]⟩

/-- Format C: the fields are bits 8 and 9. -/
theorem OpcodeRow.faithful_convert {name : String} : OpcodeRow.Faithful
    ⟨name, 0x20#32, 0xFFFFFCFF#32, fun w => .convert (.ofBit (w.getLsbD 8)) (.ofBit (w.getLsbD 9))⟩ := by
  refine fun w => ⟨rfl, ?_⟩
  have hdir (b : Bool) : (Direction.ofBit b).bit <<< 8 = if b then BitVec.twoPow 32 8 else 0 := by cases b <;> rfl
  have hpad (b : Bool) : (Padding.ofBit b).bit <<< 9 = if b then BitVec.twoPow 32 9 else 0 := by cases b <;> rfl
  have hmask : ~~~ 0xFFFFFCFF#32 = BitVec.twoPow 32 8 ||| BitVec.twoPow 32 9 := rfl
  rw [encode, hdir, hpad, hmask, BitVec.and_or_distrib_left, BitVec.and_twoPow, BitVec.and_twoPow, BitVec.or_assoc]
  rfl

/-- Formats V and T: the field is a number of `k` bits. -/
theorem OpcodeRow.faithful_number {name : String} {p m : Word} {c : Nat → Instr} {k : Nat} (hk : k ≤ 24)
    (hm : m = ~~~ fieldMask k) (h : ∀ v < 2 ^ k, (c v).wellFormed = true)
    (he : ∀ v, encode (c v) = p ||| BitVec.ofNat 32 v <<< 8) :
    OpcodeRow.Faithful ⟨name, p, m, fun w => c (w.extractLsb' 8 k).toNat⟩ :=
  fun w => ⟨h _ (BitVec.isLt _), by rw [he, shiftLeft_field w hk, hm, BitVec.not_not]⟩

theorem opcodeMap_faithful : ∀ r ∈ opcodeMap, r.Faithful := by
  simp only [opcodeMap, List.cons_append, List.nil_append, List.forall_mem_cons, List.not_mem_nil, false_imp_iff, implies_true,
    and_true]
  refine ⟨?nop, ?chkInit, ?chkStep, ?chkHrp, ?chkFinal, ?b32Encode, ?b32Decode, ?convert, ?segwitEncode, ?segwitDecode,
    ?tlvParse, ?tlvFind, ?tlvEncode, ?xfer⟩
  case chkStep =>
    exact OpcodeRow.faithful_number (c := .chkStep) (k := 5) (by decide) rfl
      (fun _ hv => decide_eq_true (Nat.le_of_lt_succ hv)) fun _ => rfl
  case tlvFind =>
    exact OpcodeRow.faithful_number (c := .tlvFind) (k := 2) (by decide) rfl
      (fun _ hv => decide_eq_true (Nat.le_of_lt_succ hv)) fun _ => rfl
  case chkFinal =>
    exact OpcodeRow.faithful_bit (c := fun b => .chkFinal (.ofBit b)) (fun _ => rfl) fun b => by cases b <;> rfl
  case b32Encode =>
    exact OpcodeRow.faithful_bit (c := fun b => .b32Encode (.ofBit b)) (fun _ => rfl) fun b => by cases b <;> rfl
  case segwitEncode =>
    exact OpcodeRow.faithful_bit (c := fun b => .segwitEncode (.ofBit b)) (fun _ => rfl) fun b => by cases b <;> rfl
  case segwitDecode =>
    exact OpcodeRow.faithful_bit (c := fun b => .segwitDecode (.ofBit b)) (fun _ => rfl) fun b => by cases b <;> rfl
  case convert => exact OpcodeRow.faithful_convert
  all_goals exact OpcodeRow.faithful_fixed rfl

/-- Every command the assembler accepts is read from its own word by some row. -/
theorem exists_row_command_encode {i : Instr} (h : i.wellFormed = true) : ∃ r ∈ opcodeMap, r.command (encode i) = i := by
  cases i with
  | chkStep v =>
    have hv : ((encode (.chkStep v)).extractLsb' 8 5).toNat = v :=
      toNat_extractLsb'_field (by decide) (Nat.lt_succ_of_le (of_decide_eq_true h)) (by decide)
    simp [opcodeMap, hv, -BitVec.extractLsb'_toNat]
  | tlvFind t =>
    have ht : ((encode (.tlvFind t)).extractLsb' 8 2).toNat = t :=
      toNat_extractLsb'_field (by decide) (Nat.lt_succ_of_le (of_decide_eq_true h)) (by decide)
    simp [opcodeMap, ht, -BitVec.extractLsb'_toNat]
  | chkFinal e => cases e <;> decide
  | b32Encode e => cases e <;> decide
  | convert d p => cases d <;> cases p <;> decide
  | segwitEncode m => cases m <;> decide
  | segwitDecode m => cases m <;> decide
  | nop | chkInit | chkHrp | b32Decode | tlvParse | tlvEncode | xfer => decide

theorem decode_encode {i : Instr} (h : i.wellFormed = true) : decode (encode i) = .ok i := by
  obtain ⟨r, hr, hcommand⟩ := exists_row_command_encode h
  obtain ⟨-, hword⟩ := opcodeMap_faithful r hr (encode i)
  rw [hcommand] at hword
  exact decode_eq_ok_iff.2 ⟨r, hr, (selects_iff_pattern_or hr).2 hword.symm, hcommand⟩

theorem encode_of_decode {w : Word} {i : Instr} (h : decode w = .ok i) : i.wellFormed = true ∧ encode i = w := by
  obtain ⟨r, hr, hsel, rfl⟩ := decode_eq_ok_iff.1 h
  obtain ⟨hwf, hword⟩ := opcodeMap_faithful r hr w
  exact ⟨hwf, hword.trans ((selects_iff_pattern_or hr).1 hsel)⟩

/-! ### Legal words (R80, R82) -/

/-- Rows with a field of the same size: their opcodes, each with a number that fits the field. -/
theorem exists_selects_of_opcode {w : Word} {ops : List Nat} {k : Nat} (hk : k ≤ 24)
    (hrows : ∀ p ∈ ops, ∃ r ∈ opcodeMap, r.mask = ~~~ fieldMask k ∧ p = r.pattern.toNat) (hop : w.toNat % 256 ∈ ops)
    (hnum : w.toNat / 256 < 2 ^ k) : ∃ r ∈ opcodeMap, r.selects w = true := by
  obtain ⟨r, hr, hm, hp⟩ := hrows _ hop
  exact ⟨r, hr, selects_of_toNat hr hk hm hp hnum⟩

theorem exists_selects_of_legalWord {w : Word} (h : legalWord w) : ∃ r ∈ opcodeMap, r.selects w = true := by
  rcases h with hw | ⟨hop, hnum⟩ | ⟨hop, hnum⟩ | ⟨hop, hnum⟩
  · have hlt : w.toNat < 256 := by
      simp only [List.mem_cons, List.not_mem_nil, or_false] at hw
      omega
    exact exists_selects_of_opcode (k := 0) (by decide) (by decide) ((Nat.mod_eq_of_lt hlt).symm ▸ hw) (by omega)
  · exact exists_selects_of_opcode (k := 5) (by decide) (by decide) (List.mem_singleton.2 hop) hnum
  · exact exists_selects_of_opcode (k := 1) (by decide) (by decide) hop hnum
  · exact exists_selects_of_opcode (k := 2) (by decide) (by decide) hop hnum

theorem decode_isOk_iff (w : Word) : (∃ i, decode w = .ok i) ↔ legalWord w := by
  refine ⟨fun ⟨i, h⟩ => legalWord_of_decode h, fun h => ?_⟩
  obtain ⟨r, hr, hsel⟩ := exists_selects_of_legalWord h
  exact ⟨r.command w, decode_eq_ok_iff.2 ⟨r, hr, hsel, rfl⟩⟩

end Sys2Proof

namespace Sys2Proof.Proofs

open Sys2Proof.Machine Sys2Proof.Claims

/-- Settles O1: the row that reads the command from its own word selects that word, and no other row does. -/
theorem decodeOfEncodeIsTheCommand : Obligations.DecodeOfEncodeIsTheCommand := fun _ => decode_encode

/-- Settles O2: the word is its row's pattern under the mask and the command's fields elsewhere. -/
theorem encodeOfDecodeIsTheWord : Obligations.EncodeOfDecodeIsTheWord := fun _ _ => encode_of_decode

/-- Settles O3: a legal word has a row's opcode and a number that fits the row's field. -/
theorem decodeAcceptsExactlyTheLegalWords : Obligations.DecodeAcceptsExactlyTheLegalWords := decode_isOk_iff

/-- Settles O4: the rows' opcodes differ, and every row's mask keeps the opcode. -/
theorem noWordSelectsTwoRows : Obligations.NoWordSelectsTwoRows :=
  fun _ _ hr _ hq hrw hqw => congrArg OpcodeRow.mnemonic (opcodeMap_row_unique hr hq hrw hqw)

/-- Settles O5, by running the decoder on the ten words. -/
theorem spelledWordsDecode : Obligations.SpelledWordsDecode := by
  unfold Obligations.SpelledWordsDecode
  decide

end Sys2Proof.Proofs
end

section
/-! SUPPORT. The polymod (O28 to O30; 40_checksum.md R101, R108, R110): the step is a shift of CHK by one symbol and a sum of generator
constants, both linear, and no CHK but zero is sent to zero. -/

namespace Sys2Proof.Machine

/-! ### The step (R101) -/

/-- `g` if the bit is set, else zero: what one bit of the symbol shifted out adds to CHK (R101). -/
def genIf (b : Bool) (g : Chk) : Chk := if b then g else 0#30

theorem genIf_xor (a b : Bool) (g : Chk) : genIf (a ^^ b) g = genIf a g ^^^ genIf b g := by
  cases a <;> cases b <;> simp [genIf]

/-- What the symbol shifted out adds to CHK: the sum of GEN[i] over its set bits i (R101). -/
def genSum (b : Sym) : Chk :=
  genIf (b.getLsbD 0) 0x3b6a57b2 ^^^ genIf (b.getLsbD 1) 0x26508e6d ^^^ genIf (b.getLsbD 2) 0x1ea119fa ^^^
    genIf (b.getLsbD 3) 0x3d4233dd ^^^ genIf (b.getLsbD 4) 0x2a1462b3

theorem genSum_zero : genSum 0#5 = 0#30 := by decide

theorem genSum_xor (a b : Sym) : genSum (a ^^^ b) = genSum a ^^^ genSum b := by
  simp only [genSum, BitVec.getLsbD_xor, genIf_xor]
  ac_rfl

/-- GEN's lowest symbols are independent: no symbol but zero adds a zero lowest symbol (g(0) is not zero, R111). -/
theorem eq_zero_of_genSum_low : ∀ b : Sym, (genSum b).extractLsb' 0 5 = 0#5 → b = 0#5 := by decide

/-- The low 25 bits moved up by one symbol are CHK shifted, for the top symbol falls out. -/
theorem shiftLeft_low25 (c : Chk) : (c.extractLsb' 0 25).setWidth 30 <<< 5 = c <<< 5 := by
  ext i hi
  by_cases h : i < 5
  · simp [h]
  · simp [h, show i - 5 < 25 by omega, show i - 5 < 30 by omega]

theorem ite_xor_eq (b : Bool) (r g : Chk) : (if b = true then r ^^^ g else r) = r ^^^ genIf b g := by
  cases b <;> simp [genIf]

theorem polyStep_eq (c : Chk) : polyStep c = c <<< 5 ^^^ genSum (c.extractLsb' 25 5) := by
  have hfold (b : Sym) (r : Chk) :
      (List.range 5).foldl (fun r i => if b.getLsbD i then r ^^^ gen.getD i 0 else r) r = r ^^^ genSum b := by
    simp only [ite_xor_eq, genSum, ← BitVec.xor_assoc]; rfl
  rw [← shiftLeft_low25]
  exact hfold _ _

theorem polyStep_xor (a b : Chk) : polyStep (a ^^^ b) = polyStep a ^^^ polyStep b := by
  simp only [polyStep_eq, BitVec.shiftLeft_xor_distrib, BitVec.extractLsb'_xor, genSum_xor]
  ac_rfl

/-- With a zero top symbol the step is the shift alone. -/
theorem polyStep_of_top_zero {c : Chk} (h : c.extractLsb' 25 5 = 0#5) : polyStep c = c <<< 5 := by
  rw [polyStep_eq, h, genSum_zero, BitVec.xor_zero]

/-- CHK is zero when its top symbol and its low 25 bits are. -/
theorem eq_zero_of_top_of_shiftLeft {c : Chk} (ht : c.extractLsb' 25 5 = 0#5) (hs : c <<< 5 = 0#30) : c = 0#30 := by
  ext i hi
  by_cases h : i < 25
  · simpa [h, show i + 5 < 30 by omega] using congrArg (BitVec.getLsbD · (i + 5)) hs
  · simpa [show i - 25 < 5 by omega, show 25 + (i - 25) = i by omega, hi] using congrArg (BitVec.getLsbD · (i - 25)) ht

theorem polyStep_eq_zero {c : Chk} (h : polyStep c = 0#30) : c = 0#30 := by
  have hshift : (c <<< 5).extractLsb' 0 5 = 0#5 := by
    ext i hi
    simp [hi]
  have ht : c.extractLsb' 25 5 = 0#5 := by
    refine eq_zero_of_genSum_low _ ?_
    have hlow := congrArg (BitVec.extractLsb' 0 5) h
    rwa [polyStep_eq, BitVec.extractLsb'_xor, hshift, BitVec.zero_xor] at hlow
  exact eq_zero_of_top_of_shiftLeft ht (polyStep_of_top_zero ht ▸ h)

/-- The step is linear (R110) and sends nothing but zero to zero. -/
theorem polyStep_inj {a b : Chk} (h : polyStep a = polyStep b) : a = b := by
  have hk : polyStep (a ^^^ b) = 0#30 := by rw [polyStep_xor, h, BitVec.xor_self]
  exact BitVec.xor_eq_zero_iff.1 (polyStep_eq_zero hk)

/-! ### The polymod (R108) -/

@[simp] theorem polymod_nil (c : Chk) : polymod c [] = c := rfl

@[simp] theorem polymod_cons (c : Chk) (v : Sym) (vs : List Sym) : polymod c (v :: vs) = polymod (absorb c v) vs := rfl

theorem polymod_append (c : Chk) (us vs : List Sym) : polymod c (us ++ vs) = polymod (polymod c us) vs := List.foldl_append

theorem absorb_xor (a b : Chk) (u v : Sym) : absorb (a ^^^ b) (u ^^^ v) = absorb a u ^^^ absorb b v := by
  simp only [absorb, polyStep_xor, BitVec.setWidth_xor]
  ac_rfl

/-- R110, with a symbol string on either side. -/
theorem polymod_xor (a b : Chk) {us vs : List Sym} (h : us.length = vs.length) :
    polymod a us ^^^ polymod b vs = polymod (a ^^^ b) (us.zipWith (· ^^^ ·) vs) := by
  induction us generalizing a b vs with
  | nil => cases vs with
    | nil => rfl
    | cons v vs => cases h
  | cons u us ih => cases vs with
    | nil => cases h
    | cons v vs =>
      rw [List.zipWith_cons_cons, polymod_cons, polymod_cons, polymod_cons, absorb_xor]
      exact ih _ _ (Nat.succ.inj h)

theorem zipWith_xor_self (vs : List Sym) : vs.zipWith (· ^^^ ·) vs = List.replicate vs.length 0 := by
  simp [List.zipWith_self]

theorem zipWith_zeros_xor (vs : List Sym) : (List.replicate vs.length 0#5).zipWith (· ^^^ ·) vs = vs := by
  induction vs with
  | nil => rfl
  | cons v vs ih => rw [List.length_cons, List.replicate_succ, List.zipWith_cons_cons, ih, BitVec.zero_xor]

theorem absorb_chk_inj {a b : Chk} {v : Sym} (h : absorb a v = absorb b v) : a = b :=
  polyStep_inj ((BitVec.xor_left_inj _).1 h)

theorem absorb_sym_inj {c : Chk} {u v : Sym} (h : absorb c u = absorb c v) : u = v := by
  have hw : u.setWidth 30 = v.setWidth 30 := (BitVec.xor_right_inj _).1 h
  have hn := congrArg BitVec.toNat hw
  exact BitVec.eq_of_toNat_eq (by simp only [BitVec.toNat_setWidth] at hn; omega)

theorem polymod_chk_inj {a b : Chk} {vs : List Sym} (h : polymod a vs = polymod b vs) : a = b := by
  induction vs generalizing a b with
  | nil => exact h
  | cons v vs ih => exact absorb_chk_inj (ih h)

/-! ### The six symbols of a checksum value (R106) -/

/-- The symbols whose characters CHK_FINAL emits, most significant first. -/
def chkSyms (x : Chk) : List Sym := (List.range chkSymbols).map (chkSym x)

theorem chkChars_eq_map (x : Chk) : chkChars x = (chkSyms x).map charOf := by simp [chkChars, chkSyms]

/-- Absorbing a value's next symbol after the symbols above it: what stands above never reaches the top symbol, so nothing is
added. -/
theorem absorb_ushiftRight (x : Chk) (k : Nat) : absorb (x >>> (k + 5)) (x.extractLsb' k 5) = x >>> k := by
  have ht : (x >>> (k + 5)).extractLsb' 25 5 = 0#5 := by
    ext i hi
    simp only [BitVec.getElem_extractLsb', BitVec.getLsbD_ushiftRight]
    simp [BitVec.getLsbD_of_ge x _ (by omega : 30 ≤ k + 5 + (25 + i))]
  rw [absorb, polyStep_of_top_zero ht]
  ext i hi
  by_cases h : i < 5
  · simp [h]
  · simp [h, show k + 5 + (i - 5) = k + i by omega]

/-- The first `n` symbols of a value, absorbed from zero, are the value without the symbols still to come. -/
theorem polymod_zero_map_chkSym (x : Chk) {n : Nat} (hn : n ≤ 6) :
    polymod 0#30 ((List.range n).map (chkSym x)) = x >>> (5 * (6 - n)) := by
  induction n with
  | zero => exact (BitVec.ushiftRight_eq_zero (Nat.le_refl 30)).symm
  | succ n ih =>
    rw [List.range_succ, List.map_append, polymod_append, ih (by omega), show 5 * (6 - n) = 5 * (5 - n) + 5 by omega,
      Nat.add_sub_add_right 5 1 n]
    exact absorb_ushiftRight x (5 * (5 - n))

theorem polymod_zero_chkSyms (x : Chk) : polymod 0#30 (chkSyms x) = x :=
  polymod_zero_map_chkSym x (Nat.le_refl 6)

theorem polymod_chkSyms (c x : Chk) : polymod c (chkSyms x) = polymod c sixZeros ^^^ x := by
  have h := polymod_xor c 0#30 (us := List.replicate (chkSyms x).length 0#5) (vs := chkSyms x) rfl
  rw [polymod_zero_chkSyms, BitVec.xor_zero, zipWith_zeros_xor] at h
  exact h.symm

/-- The polymod over a string with the symbols of its checksum value is the encoding constant (R110, R134). -/
theorem polymod_chkSyms_finalChk (e : Encoding) (c : Chk) : polymod c (chkSyms (finalChk e c)) = constOf e := by
  rw [polymod_chkSyms, finalChk, ← BitVec.xor_assoc, BitVec.xor_self, BitVec.zero_xor]

end Sys2Proof.Machine

namespace Sys2Proof.Proofs

open Sys2Proof.Machine

/-- Settles O30: the two symbols give two values of CHK, and no later symbol brings them together, for absorbing it is injective. -/
theorem oneSymbolChangesTheResidue : Obligations.OneSymbolChangesTheResidue := by
  unfold Obligations.OneSymbolChangesTheResidue
  intro c pre post v v' hne h
  rw [polymod_append, polymod_append, polymod_cons, polymod_cons] at h
  exact hne (absorb_sym_inj (polymod_chk_inj h))

/-- Settles O29: the laws of the step and of the polymod, and six symbols as their value added to six zeros. -/
theorem polymodIsLinear : Obligations.PolymodIsLinear := by
  unfold Obligations.PolymodIsLinear
  refine ⟨polyStep_xor, fun a b vs => ?_, polymod_chkSyms, fun e vs c hc => ?_⟩
  · rw [polymod_xor a b rfl, zipWith_xor_self]
  · have hfinal : c = finalChk e (polymod 1 vs) := by rw [hc, polymod_append]; rfl
    rw [polymod_append, hfinal]
    exact polymod_chkSyms_finalChk e (polymod 1 vs)

end Sys2Proof.Proofs
end

section
/-! SUPPORT. What NOP and the CHK commands leave (O28, O32 to O34; 40_checksum.md R101 to R107): the step by CHK's own bits, the hrp
expansion by division, and CHK_HRP by its check's result. -/

namespace Sys2Proof.Machine

open Sys2Proof.Claims

/-! ### The step by CHK's bits (R101, R103) -/

theorem polyStep_eq_bits (c : Chk) :
    polyStep c = c <<< 5 ^^^ genIf (c.getLsbD 25) 0x3b6a57b2 ^^^ genIf (c.getLsbD 26) 0x26508e6d ^^^
      genIf (c.getLsbD 27) 0x1ea119fa ^^^ genIf (c.getLsbD 28) 0x3d4233dd ^^^ genIf (c.getLsbD 29) 0x2a1462b3 := by
  have hbit (i : Nat) (hi : i < 5) : (c.extractLsb' 25 5).getLsbD i = c.getLsbD (25 + i) := by
    simp [hi]
  rw [polyStep_eq, genSum, hbit 0 (by decide), hbit 1 (by decide), hbit 2 (by decide), hbit 3 (by decide), hbit 4 (by decide)]
  ac_rfl

theorem setWidth_ofNat_sym {v : Nat} (h : v ≤ 31) : (BitVec.ofNat 5 v).setWidth 30 = BitVec.ofNat 30 v :=
  BitVec.eq_of_toNat_eq (by simp only [BitVec.toNat_setWidth, BitVec.toNat_ofNat]; omega)

/-! ### CHK_HRP (R104, R105) -/

theorem hrpExpand_eq (h : Bytes) :
    hrpExpand h = (h.map fun c => BitVec.ofNat 5 (c.toNat / 32)) ++ [0] ++ h.map fun c => BitVec.ofNat 5 (c.toNat % 32) := by
  have hhigh (c : Byte) : symOfByte (c >>> 5) = BitVec.ofNat 5 (c.toNat / 32) :=
    BitVec.eq_of_toNat_eq (by simp [symOfByte, Nat.shiftRight_eq_div_pow])
  have hlow (c : Byte) : symOfByte (c &&& 31) = BitVec.ofNat 5 (c.toNat % 32) := by
    have hmask : symOfByte (c &&& 31) = c.setWidth 5 := BitVec.setWidth_and.trans BitVec.and_allOnes
    exact hmask.trans (BitVec.eq_of_toNat_eq (by simp))
  simp only [hrpExpand, hhigh, hlow]

theorem exec_chkHrp_of_none {s : State} (h : checkHrpForEncode s.hrp = none) :
    exec .chkHrp s = .next ({ s with chk := polymod s.chk (hrpExpand s.hrp) }.noOutput.succeed encNone) := by
  rcases exec_chkHrp_cases s with ⟨e, he, -⟩ | ⟨-, hx⟩
  · rw [h] at he; cases he
  · exact hx

theorem exec_chkHrp_failsClean {s : State} {e : Err} (h : checkHrpForEncode s.hrp = some e) :
    FailsClean (exec .chkHrp s) s e.code := by
  rcases exec_chkHrp_cases s with ⟨e', he, hx⟩ | ⟨hn, -⟩
  · rw [h] at he; cases he
    exact hx
  · rw [h] at hn; cases hn

/-! ### CHK_FINAL (R106, R107) -/

theorem chkChars_eq_checkText (c : Chk) : chkChars c = checkText c := rfl

theorem constOf_eq_ite (e : Encoding) : constOf e = if e = .bech32 then 0x00000001 else 0x2bc830a3 := by cases e <;> rfl

theorem encField_eq_ite (e : Encoding) : encField e = if e = .bech32 then 1 else 2 := by cases e <;> rfl

theorem encode_chkFinal (e : Encoding) : encode (.chkFinal e) = if e = .bech32 then 0x00000004 else 0x00000104 := by
  cases e <;> rfl

end Sys2Proof.Machine

namespace Sys2Proof.Proofs

open Sys2Proof.Machine Sys2Proof.Claims

/-- Settles O28: the words are the encoder's own, and each command's meaning is one state update. -/
theorem registerCommandsResult : Obligations.RegisterCommandsResult := by
  unfold Obligations.RegisterCommandsResult
  intro s v hv
  refine ⟨decode_encode (i := .nop) rfl, decode_encode (i := .chkInit) rfl,
    decode_encode (i := .chkStep v) (decide_eq_true hv), exec_nop s, exec_chkInit s, ?_⟩
  rw [exec_chkStep, absorb, polyStep_eq_bits, setWidth_ofNat_sym hv]
  rfl

/-- Settles O32: the hrp passes the check, and the expansion's shifts and masks are division and remainder by 32. -/
theorem chkHrpResult : Obligations.ChkHrpResult := by
  unfold Obligations.ChkHrpResult
  intro s hne hok
  rw [exec_chkHrp_of_none ((checkHrp_eq_none s.hrp).2 ⟨hne, hok⟩), hrpExpand_eq]
  rfl

/-- Settles O33: the check's result is TooShort for no bytes and the error of the first bad byte otherwise. -/
theorem chkHrpErrors : Obligations.ChkHrpErrors := by
  unfold Obligations.ChkHrpErrors
  intro s
  refine ⟨fun hnil => ?_, fun pre c post hhrp hpre hc => ?_⟩
  · exact exec_chkHrp_failsClean (e := .tooShort) (by rw [hnil, checkHrp_nil])
  · rw [← code_hrpByteErr]
    exact exec_chkHrp_failsClean (by rw [hhrp, checkHrp_eq_some pre post c hpre hc])

/-- Settles O34: CHK_FINAL puts the six characters of the new CHK in OBUF as its output. -/
theorem chkFinalResult : Obligations.ChkFinalResult := by
  unfold Obligations.ChkFinalResult
  intro e s
  have hlen := length_chkChars (finalChk e s.chk)
  rw [← encode_chkFinal, ← constOf_eq_ite, ← encField_eq_ite]
  refine ⟨decode_encode rfl, _, exec_chkFinal e s, ?frame, ?holds, ?same⟩
  case frame => rfl
  case holds =>
    rw [← chkChars_eq_checkText]
    exact holds_putOutput (by rw [State.succeed_chk, State.putOutput_chk, hlen, bufBytes_eq]; decide)
  case same =>
    have hsame := sameBytesBut_putOutput (s := { s with chk := finalChk e s.chk }) (bs := chkChars (finalChk e s.chk))
    rwa [hlen] at hsame

end Sys2Proof.Proofs
end

section
/-! SUPPORT. The framing commands (O35 to O39; 41_bech32_framing.md R125, R131, R136): what each error exit leaves (60_exceptions.md
R273), an equation for each way the encoder and the decoder of texts can end, and decoding as the inverse of encoding. -/

namespace Sys2Proof.Machine

open Sys2Proof.Claims

/-! ### What the error exits leave (R273) -/

theorem holds_eq_false_of_outside {b : Buffer} {a : Nat} (h : ¬ (b.base ≤ a ∧ a < b.base + Config.bufBytes)) :
    b.holds a = false := by rwa [← Bool.not_eq_true, Buffer.holds_iff]

/-- The error exit of the encoders and of SEGWIT_DECODE, raised when no more than the converter and the scratch has changed. -/
theorem failsLosingChk_of_raise {o : Host.Outcome State Fault Refusal} {s u : State} {er : Err} {r : Option Chk}
    (h : o = .next (u.raiseLosingChk er r))
    (hu : u = { s with
      acc := u.acc, bits := u.bits, scratchHrp := u.scratchHrp, scratchWords := u.scratchWords }) :
    FailsLosingChk o s er.code := by
  rw [hu] at h
  exact ⟨_, h, rfl, fun a ha => Memory.read_forget_other s.mem .obuf s.drawn (holds_eq_false_of_outside ha)⟩

theorem failsDecode_of_raise {o : Host.Outcome State Fault Refusal} {s : State} {er : Err} {r : Option Chk}
    (h : o = .next (s.raiseLosingHrp er r)) : FailsDecode o s er.code r := by
  refine ⟨_, h, rfl, ?residue, fun a hh ho => ?bytes⟩
  case residue =>
    rintro c rfl
    rfl
  case bytes =>
    rw [State.raiseLosingHrp_mem, Memory.read_forget_other _ _ _ ho, Memory.read_forget_other _ _ _ hh]

/-! ### The ways `encodeText` ends (R125) -/

section
variable {h ws : Bytes} {limit : Nat} (e : Encoding)

theorem encodeText_of_badHrp {er : Err} (hc : checkHrpForEncode h = some er) : encodeText e h ws limit = .error er := by
  rw [encodeText, hc]

variable (hc : checkHrpForEncode h = none)
include hc

theorem encodeText_of_tooLong (hl : limit < h.length + 1 + ws.length + 6) :
    encodeText e h ws limit = .error .lengthExceeded := by
  rw [encodeText, hc]
  exact if_pos hl

theorem encodeText_of_badWord (hl : h.length + 1 + ws.length + 6 ≤ limit) (hw : ∃ w ∈ ws, 31 < w.toNat) :
    encodeText e h ws limit = .error .invalidWord := by
  rcases encodeText_cases e h ws limit with ⟨er, he, -⟩ | ⟨-, hlt, -⟩ | ⟨-, -, -, hx⟩ | ⟨-, -, hall, -⟩
  · rw [hc] at he; cases he
  · omega
  · exact hx
  · obtain ⟨w, hw, hlt⟩ := hw
    exact absurd (hall w hw) (by omega)

theorem encodeText_of_valid (hl : h.length + 1 + ws.length + 6 ≤ limit) (hw : ∀ w ∈ ws, w.toNat ≤ 31) :
    encodeText e h ws limit = .ok (textOf h ws (checksumOf e h ws), checksumOf e h ws) := by
  rcases encodeText_cases e h ws limit with ⟨er, he, -⟩ | ⟨-, hlt, -⟩ | ⟨-, -, ⟨w, hmem, hlt⟩, -⟩ | ⟨-, -, -, hx⟩
  · rw [hc] at he; cases he
  · omega
  · exact absurd (hw w hmem) (by omega)
  · exact hx

end

/-! ### B32_ENCODE (R125) -/

theorem exec_b32Encode_of_ok {e : Encoding} {s : State} {p : Bytes × Chk}
    (h : encodeText e s.hrp s.input s.textLimit = .ok p) :
    exec (.b32Encode e) s = .next (({ s with chk := p.2 }.putOutput p.1).succeed (encField e)) :=
  congrArg Host.Outcome.next (encodeInto_ok s h)

theorem exec_b32Encode_failsLosingChk {e : Encoding} {s : State} {er : Err}
    (h : encodeText e s.hrp s.input s.textLimit = .error er) : FailsLosingChk (exec (.b32Encode e) s) s er.code :=
  failsLosingChk_of_raise (congrArg Host.Outcome.next (encodeInto_error s h)) rfl

/-! ### The ways `decodeText` ends after the separator (R131) -/

theorem inHrpRange_eq_false_iff (c : Byte) : inHrpRange c = false ↔ c.toNat < 33 ∨ 126 < c.toNat := by
  rw [← Bool.not_eq_true, inHrpRange_iff]; omega

section
variable {text pre post : Bytes} {limit : Nat} (hs : Splits text pre post) (h8 : 8 ≤ text.length) (hl : text.length ≤ limit)
include hs h8 hl

theorem decodeText_of_shortPart (h : pre = [] ∨ post.length < 6) : decodeText text limit = .error ⟨.tooShort, none⟩ := by
  rw [decodeText_split text pre post limit hs h8 hl, if_pos h]

variable (hpre : pre ≠ []) (hpost : 6 ≤ post.length)
include hpre hpost

theorem decodeText_eq_decodeParts : decodeText text limit = decodeParts pre post := by
  rw [decodeText_split text pre post limit hs h8 hl, if_neg (not_or.2 ⟨hpre, Nat.not_lt.2 hpost⟩)]

theorem decodeText_of_badCharacter (h : (∃ c ∈ pre, inHrpRange c = false) ∨ none ∈ post.map symOf) :
    decodeText text limit = .error ⟨.invalidCharacter, none⟩ := by
  rw [decodeText_eq_decodeParts hs h8 hl hpre hpost]
  rcases decodeParts_cases pre post with ⟨-, hx⟩ | ⟨d, hrange, hd, -⟩
  · exact hx
  · rcases h with ⟨c, hc, hout⟩ | hnone
    · rw [hrange c hc] at hout; cases hout
    · rw [hd] at hnone; simp at hnone

variable {d : List Sym} (hrange : ∀ c ∈ pre, inHrpRange c = true) (hd : post.map symOf = d.map some)
include hrange hd

theorem decodeText_of_mixed (hm : mixed text) : decodeText text limit = .error ⟨.mixedCase, none⟩ := by
  rw [decodeText_eq_decodeParts hs h8 hl hpre hpost, decodeParts, if_neg (by simpa using hrange),
    (mapM_symOf_eq_some post d).2 hd]
  exact if_pos ((mixed_split hs).2 hm)

/-- With every other check passed, the residue decides between ChecksumInvalid and success. -/
theorem decodeText_of_symbols (hm : ¬ mixed text) :
    decodeText text limit =
      (encodingOfResidue (polymod 1 (hrpExpand (pre.map toLower) ++ d))).elim
        (.error ⟨.checksumInvalid, some (polymod 1 (hrpExpand (pre.map toLower) ++ d))⟩)
        fun enc => .ok ⟨pre.map toLower, d.take (post.length - 6), enc,
          polymod 1 (hrpExpand (pre.map toLower) ++ d)⟩ := by
  have hlen : d.length = post.length := by simpa using (congrArg List.length hd).symm
  rw [decodeText_eq_decodeParts hs h8 hl hpre hpost, decodeParts, if_neg (by simpa using hrange),
    (mapM_symOf_eq_some post d).2 hd, ← hlen]
  refine (if_neg (mt (mixed_split hs).1 hm)).trans ?_
  cases hr : encodingOfResidue (polymod 1 (hrpExpand (pre.map toLower) ++ d)) <;> simp only [hr] <;> rfl

theorem decodeText_of_badResidue (hm : ¬ mixed text) {r : Chk}
    (hr : r = polymod 1 (hrpExpand (pre.map toLower) ++ d)) (hnone : encodingOfResidue r = none) :
    decodeText text limit = .error ⟨.checksumInvalid, some r⟩ := by
  rw [decodeText_of_symbols hs h8 hl hpre hpost hrange hd hm, ← hr, hnone, Option.elim_none]

theorem decodeText_of_valid (hm : ¬ mixed text) {enc : Encoding}
    (hr : polymod 1 (hrpExpand (pre.map toLower) ++ d) = constOf enc) :
    decodeText text limit = .ok ⟨pre.map toLower, d.take (post.length - 6), enc, constOf enc⟩ := by
  rw [decodeText_of_symbols hs h8 hl hpre hpost hrange hd hm, hr, encodingOfResidue_constOf, Option.elim_some]

end

/-! ### B32_DECODE (R131) -/

theorem exec_b32Decode_of_ok {s : State} {g : DecodedText} (h : decodeText s.input s.textLimit = .ok g) :
    exec .b32Decode s =
      .next (({ s with
        chk := g.residue, mem := s.mem.storeBuffer .hbuf g.hrp
        hrpLen := BitVec.ofNat 16 g.hrp.length }.putOutput (g.words.map byteOfSym)).succeed (encField g.enc)) := by
  rcases exec_b32Decode_cases s with ⟨te, he, -⟩ | ⟨g', hg, hx⟩
  · rw [h] at he; cases he
  · rw [h] at hg; cases hg
    exact hx

theorem exec_b32Decode_failsDecode {s : State} {er : Err} {r : Option Chk}
    (h : decodeText s.input s.textLimit = .error ⟨er, r⟩) : FailsDecode (exec .b32Decode s) s er.code r := by
  rcases exec_b32Decode_cases s with ⟨te, he, hx⟩ | ⟨g, hg, -⟩
  · rw [h] at he; cases he
    exact failsDecode_of_raise hx
  · rw [h] at hg; cases hg

/-- The hrp in HBUF and the words in OBUF: each reads as written, and every other byte is as before. -/
theorem Memory.read_storeHrpAndWords {m m' : Memory} {h ws : Bytes} (hm : m' = (m.storeBuffer .hbuf h).storeBuffer .obuf ws)
    (hh : h.length ≤ Config.bufBytes) (hw : ws.length ≤ Config.bufBytes) :
    (∀ k < h.length, m'.read (Buffer.hbuf.base + k) = h.getD k 0) ∧
    (∀ k < ws.length, m'.read (Buffer.obuf.base + k) = ws.getD k 0) ∧
    ∀ a, ¬ (Buffer.hbuf.base ≤ a ∧ a < Buffer.hbuf.base + h.length) →
      ¬ (Buffer.obuf.base ≤ a ∧ a < Buffer.obuf.base + ws.length) → m'.read a = m.read a := by
  subst hm
  refine ⟨fun k hk => ?_, fun k hk => ?_, fun a ha ho => ?_⟩
  · rw [Memory.read_storeBuffer_other _ _ _ (holds_base_add_ne (by decide) (by omega)),
      Memory.read_storeBuffer_inside m .hbuf h k hk (by omega)]
  · exact Memory.read_storeBuffer_inside _ .obuf ws k hk (by omega)
  · rw [Memory.read_storeBuffer_outside _ .obuf ws a (by omega), Memory.read_storeBuffer_outside m .hbuf h a (by omega)]

/-! ### The text of an encoding taken apart (R125, R136) -/

/-- The symbols after the separator: the words and the checksum (R125). -/
def dataSyms (ws : Bytes) (c : Chk) : List Sym := ws.map symOfByte ++ chkSyms c

theorem length_dataSyms (ws : Bytes) (c : Chk) : (dataSyms ws c).length = ws.length + 6 := by
  simp [dataSyms, chkSyms, chkSymbols]

theorem take_dataSyms (ws : Bytes) (c : Chk) : (dataSyms ws c).take ws.length = ws.map symOfByte :=
  List.take_left' (by simp)

theorem textOf_eq (h ws : Bytes) (c : Chk) : textOf h ws c = h ++ 0x31 :: (dataSyms ws c).map charOf := by
  rw [textOf, ← chkChars_eq_checkText, chkChars_eq_map, dataSyms, List.map_append, List.map_map, List.append_assoc,
    List.append_assoc]
  rfl

/-- `1` is no charset character (R42). -/
theorem charOf_ne_sep : ∀ v : Sym, charOf v ≠ 0x31 := by decide

/-- The charset has no upper-case letter (R42). -/
theorem isUpper_charOf : ∀ v : Sym, isUpper (charOf v) = false := by decide

theorem toLower_of_not_upper {c : Byte} (h : isUpper c = false) : toLower c = c := by
  rw [toLower, if_neg (by simp [h])]

theorem symOf_charOf (v : Sym) : symOf (charOf v) = some v :=
  (symOf_eq_some _ v).2 (toLower_of_not_upper (isUpper_charOf v)).symm

theorem map_symOf_charOf (vs : List Sym) : (vs.map charOf).map symOf = vs.map some := by
  rw [List.map_map]
  exact List.map_congr_left fun v _ => symOf_charOf v

theorem splits_textOf (h ws : Bytes) (c : Chk) : Splits (textOf h ws c) h ((dataSyms ws c).map charOf) := by
  refine ⟨textOf_eq h ws c, fun hmem => ?_⟩
  obtain ⟨v, -, hv⟩ := List.mem_map.1 hmem
  exact charOf_ne_sep v hv

theorem map_toLower_of_ok {h : Bytes} (hok : ∀ c ∈ h, hrpByteOk c) : h.map toLower = h :=
  (List.map_congr_left fun c hc => toLower_of_not_upper ((hrpByteOk_iff c).1 (hok c hc)).2).trans (List.map_id h)

/-- An encoded text is lower case throughout, as its hrp is. -/
theorem not_mixed_textOf {h : Bytes} (hok : ∀ c ∈ h, hrpByteOk c) (ws : Bytes) (c : Chk) : ¬ mixed (textOf h ws c) := by
  rintro ⟨-, b, hb, hup⟩
  rw [textOf_eq, List.mem_append, List.mem_cons] at hb
  rcases hb with hb | rfl | hb
  · rw [((hrpByteOk_iff b).1 (hok b hb)).2] at hup; cases hup
  · exact absurd hup (by decide)
  · obtain ⟨v, -, rfl⟩ := List.mem_map.1 hb
    rw [isUpper_charOf] at hup; cases hup

/-- The residue of an encoded text is its encoding's constant (R110, R134). -/
theorem polymod_dataSyms (e : Encoding) (h ws : Bytes) :
    polymod 1 (hrpExpand h ++ dataSyms ws (checksumOf e h ws)) = constOf e := by
  have hfinal : checksumOf e h ws = finalChk e (polymod 1 (hrpExpand h ++ ws.map symOfByte)) := by
    rw [checksumOf, polymod_append]; rfl
  rw [dataSyms, ← List.append_assoc, polymod_append, hfinal, polymod_chkSyms_finalChk]

theorem byteOfSym_symOfByte {w : Byte} (hw : w.toNat ≤ 31) : byteOfSym (symOfByte w) = w := by
  refine BitVec.eq_of_toNat_eq ?_
  simp only [byteOfSym, symOfByte, BitVec.toNat_setWidth]
  omega

theorem map_byteOfSym_symOfByte {ws : Bytes} (hw : ∀ w ∈ ws, w.toNat ≤ 31) : (ws.map symOfByte).map byteOfSym = ws := by
  rw [List.map_map]
  exact (List.map_congr_left fun w hmem => byteOfSym_symOfByte (hw w hmem)).trans (List.map_id ws)

/-- R136 as a fact about texts: the decoder gives back what the encoder was given. -/
theorem decodeText_textOf (e : Encoding) {h ws : Bytes} {limit : Nat} (hne : h ≠ []) (hok : ∀ c ∈ h, hrpByteOk c)
    (hl : h.length + 1 + ws.length + 6 ≤ limit) :
    decodeText (textOf h ws (checksumOf e h ws)) limit = .ok ⟨h, ws.map symOfByte, e, constOf e⟩ := by
  have hlower := map_toLower_of_ok hok
  have hpos := List.length_pos_of_ne_nil hne
  have hlen := length_dataSyms ws (checksumOf e h ws)
  have hdec := decodeText_of_valid (splits_textOf h ws (checksumOf e h ws)) (limit := limit)
    (by rw [length_textOf]; omega) (by rw [length_textOf]; omega) hne (by rw [List.length_map]; omega)
    (fun c hc => ((hrpByteOk_iff c).1 (hok c hc)).1) (map_symOf_charOf _) (not_mixed_textOf hok ws _)
    (by rw [hlower]; exact polymod_dataSyms e h ws)
  rwa [hlower, List.length_map, hlen, Nat.add_sub_cancel, take_dataSyms] at hdec

/-! ### Outputs and their way through the three commands (R125, R131, R222) -/

theorem toNat_ofNat_length {bs : Bytes} (h : bs.length ≤ Config.bufBytes) : (BitVec.ofNat 16 bs.length).toNat = bs.length := by
  rw [bufBytes_eq] at h
  rw [BitVec.toNat_ofNat]; omega

theorem output_putOutput {bs : Bytes} (s : State) (h : bs.length ≤ Config.bufBytes) : (s.putOutput bs).output = bs := by
  rw [State.output, State.putOutput_outLen, toNat_ofNat_length h]
  exact Memory.readBuffer_storeBuffer s.mem .obuf bs h

theorem exec_b32Encode_output {e : Encoding} {s : State} {p : Bytes × Chk} (hmax : s.maxLen.toNat ≤ Config.bufBytes)
    (h : encodeText e s.hrp s.input s.textLimit = .ok p) :
    ∃ t, exec (.b32Encode e) s = .next t ∧ t.output = p.1 ∧ t.outLen.toNat ≤ Config.bufBytes ∧ t.maxLen = s.maxLen := by
  have hfit := (encodeText_length_le h).trans hmax
  exact ⟨_, exec_b32Encode_of_ok h, output_putOutput { s with chk := p.2 } hfit, (toNat_ofNat_length hfit).trans_le hfit, rfl⟩

/-- XFER makes the output the input. -/
theorem exec_xfer_input {s : State} (h : s.outLen.toNat ≤ Config.bufBytes) :
    ∃ t, exec .xfer s = .next t ∧ t.input = s.output ∧ t.maxLen = s.maxLen := by
  have hlen : s.output.length = s.outLen.toNat := by rw [State.output, Memory.length_readBuffer]; omega
  have hread := Memory.readBuffer_storeBuffer s.mem .ibuf s.output (by omega)
  rw [hlen] at hread
  exact ⟨_, exec_xfer s, hread, rfl⟩

theorem exec_b32Decode_output {s : State} {g : DecodedText} (h : decodeText s.input s.textLimit = .ok g) :
    ∃ t, exec .b32Decode s = .next t ∧ t.status = okStatus (encField g.enc) ∧ t.hrp = g.hrp ∧
      t.output = g.words.map byteOfSym := by
  have hfit := (decodeText_lengths h).le.trans s.length_input_le
  have hhrp : g.hrp.length ≤ Config.bufBytes := by omega
  refine ⟨_, exec_b32Decode_of_ok h, rfl, ?_, output_putOutput _ (by rw [List.length_map]; omega)⟩
  rw [State.hrp, State.succeed_mem, State.putOutput_mem, Memory.readBuffer_storeBuffer_ne _ (by decide), State.succeed_hrpLen,
    State.putOutput_hrpLen, toNat_ofNat_length hhrp]
  exact Memory.readBuffer_storeBuffer s.mem .hbuf g.hrp hhrp

end Sys2Proof.Machine

namespace Sys2Proof.Proofs

open Sys2Proof.Machine Sys2Proof.Claims

/-- Settles O35: the checks pass, so the text and its checksum value are the command's output. -/
theorem b32EncodeResult : Obligations.B32EncodeResult := by
  unfold Obligations.B32EncodeResult
  intro e s hmax hne hok hwords hlen
  have henc := encodeText_of_valid e ((checkHrp_eq_none s.hrp).2 ⟨hne, hok⟩) (limit := s.textLimit) hlen hwords
  have hfit := encodeText_length_le henc
  refine ⟨_, exec_b32Encode_of_ok henc, rfl, holds_putOutput (hfit.trans hmax), ?_⟩
  exact sameBytesBut_putOutput (s := { s with chk := checksumOf e s.hrp s.input })

/-- Settles O36: each clause makes one check of `encodeText` fail after the ones before it have passed. -/
theorem b32EncodeErrors : Obligations.B32EncodeErrors := by
  unfold Obligations.B32EncodeErrors
  intro e s
  refine ⟨fun hnil => ?_, fun pre c post hhrp hpre hc => ?_, fun hne hok => ?_⟩
  · exact exec_b32Encode_failsLosingChk (er := .tooShort) (encodeText_of_badHrp e (by rw [hnil, checkHrp_nil]))
  · rw [← code_hrpByteErr]
    exact exec_b32Encode_failsLosingChk (encodeText_of_badHrp e (by rw [hhrp, checkHrp_eq_some pre post c hpre hc]))
  · have hcheck := (checkHrp_eq_none s.hrp).2 ⟨hne, hok⟩
    exact ⟨fun hlong => exec_b32Encode_failsLosingChk (er := .lengthExceeded) (encodeText_of_tooLong e hcheck hlong),
      fun hlen hbad => exec_b32Encode_failsLosingChk (er := .invalidWord) (encodeText_of_badWord e hcheck hlen hbad)⟩

/-- Settles O37: the text decodes to its two parts, which the command writes to HBUF and OBUF. -/
theorem b32DecodeResult : Obligations.B32DecodeResult := by
  unfold Obligations.B32DecodeResult
  intro s pre post d enc hs h8 hl hpre hpost hrange hd hm hr
  have hdec := decodeText_of_valid hs h8 hl hpre hpost (fun c hc => (inHrpRange_iff c).2 (hrange c hc)) hd hm hr
  have hfit : pre.length + 1 + post.length ≤ Config.bufBytes := by
    have hlen := s.length_input_le
    rw [hs.1] at hlen
    simpa [Nat.add_assoc, Nat.add_comm 1] using hlen
  have hwords : ((d.take (post.length - 6)).map byteOfSym).length = post.length - 6 := by
    have hlen : post.length = d.length := by simpa using congrArg List.length hd
    rw [List.length_map, List.length_take]; omega
  have hhrp : (pre.map toLower).length = pre.length := List.length_map _
  obtain ⟨hhbuf, hobuf, hsame⟩ := Memory.read_storeHrpAndWords (m := s.mem) (h := pre.map toLower)
    (ws := (d.take (post.length - 6)).map byteOfSym) rfl (by omega) (by omega)
  rw [hhrp, hwords] at hsame
  refine ⟨_, exec_b32Decode_of_ok hdec, ?frame, hhbuf, hobuf, hsame⟩
  case frame =>
    simp only [hhrp, State.putOutput, hwords]
    rfl

/-- Settles O38: each clause makes one check of `decodeText` fail after the ones before it have passed. -/
theorem b32DecodeErrors : Obligations.B32DecodeErrors := by
  unfold Obligations.B32DecodeErrors
  intro s
  refine ⟨fun hshort => ?_, fun h8 hlong => ?_, fun h8 hl => ⟨fun hsep => ?_, fun pre post hs => ⟨fun hpart => ?_, ?_⟩⟩⟩
  · exact exec_b32Decode_failsDecode (er := .tooShort) (decodeText_short s.textLimit hshort)
  · exact exec_b32Decode_failsDecode (er := .lengthExceeded) (decodeText_long h8 hlong)
  · exact exec_b32Decode_failsDecode (er := .missingSeparator) (decodeText_noSep h8 hl hsep)
  · exact exec_b32Decode_failsDecode (er := .tooShort) (decodeText_of_shortPart hs h8 hl hpart)
  · intro hpre hpost
    refine ⟨fun hbad => ?_, fun d hrange hd => ?_⟩
    · refine exec_b32Decode_failsDecode (er := .invalidCharacter)
        (decodeText_of_badCharacter hs h8 hl hpre hpost (hbad.imp_left ?_))
      rintro ⟨c, hc, hout⟩
      exact ⟨c, hc, (inHrpRange_eq_false_iff c).2 hout⟩
    · have hrange' : ∀ c ∈ pre, inHrpRange c = true := fun c hc => (inHrpRange_iff c).2 (hrange c hc)
      refine ⟨fun hm => ?_, fun hm r hr h1 h2 => ?_⟩
      · exact exec_b32Decode_failsDecode (er := .mixedCase) (decodeText_of_mixed hs h8 hl hpre hpost hrange' hd hm)
      · exact exec_b32Decode_failsDecode (er := .checksumInvalid)
          (decodeText_of_badResidue hs h8 hl hpre hpost hrange' hd hm hr ((encodingOfResidue_eq_none r).2 ⟨h1, h2⟩))

/-- Settles O39: the encoder's text is B32_ENCODE's output, XFER makes it the input, and the decoder gives its parts back. -/
theorem framingRoundTrip : Obligations.FramingRoundTrip := by
  unfold Obligations.FramingRoundTrip
  intro e s hmax hne hok hwords hlen
  have henc := encodeText_of_valid e ((checkHrp_eq_none s.hrp).2 ⟨hne, hok⟩) (limit := s.textLimit) hlen hwords
  obtain ⟨t, ht, htout, htlen, htmax⟩ := exec_b32Encode_output hmax henc
  obtain ⟨u, hu, huin, humax⟩ := exec_xfer_input htlen
  have hdec : decodeText u.input u.textLimit = .ok ⟨s.hrp, s.input.map symOfByte, e, constOf e⟩ := by
    rw [huin, htout, State.textLimit, humax, htmax]
    exact decodeText_textOf e hne hok hlen
  obtain ⟨v, hv, hvstatus, hvhrp, hvout⟩ := exec_b32Decode_output hdec
  exact ⟨t, u, v, ht, hu, hv, hvstatus, hvhrp, hvout.trans (map_byteOfSym_symOfByte hwords)⟩

end Sys2Proof.Proofs
end

section
/-! SUPPORT. SEGWIT_DECODE's errors (O46; 43_segwit.md R173, 60_exceptions.md R273): the error exit that each failing check takes, with
the checks before it passed. -/

namespace Sys2Proof.Machine

open Sys2Proof.Claims

/-! ### The checks of SEGWIT_DECODE (R173) -/

theorem exec_segwitDecode_of_ok (m : SegwitMode) {s : State} {g : DecodedText} (h : decodeText s.input 90 = .ok g) :
    exec (.segwitDecode m) s = .next (segwitDecodeScratch m g.enc g.residue (s.holdScratch g)) := by
  rw [exec, execSegwitDecode, show segwitMaxLen = 90 from rfl, h]

theorem exec_segwitDecode_of_error (m : SegwitMode) {s : State} {te : TextError} (h : decodeText s.input 90 = .error te) :
    exec (.segwitDecode m) s = .next (s.raiseLosingChk te.code te.residue) := by
  rw [exec, execSegwitDecode, show segwitMaxLen = 90 from rfl, h]

@[simp] theorem State.holdScratch_hrp (s : State) (g : DecodedText) : (s.holdScratch g).hrp = s.hrp := rfl

section
variable {m : SegwitMode} {s : State} {g : DecodedText} (hg : decodeText s.input 90 = .ok g)
include hg

theorem exec_segwitDecode_badPrefix (h : g.hrp ≠ s.hrp) :
    FailsLosingChk (exec (.segwitDecode m) s) s Err.unrecognizedPrefix.code := by
  refine failsLosingChk_of_raise (u := s.holdScratch g) (r := none) ((exec_segwitDecode_of_ok m hg).trans ?_) rfl
  rw [segwitDecodeScratch, State.holdScratch_scratchHrp, State.holdScratch_hrp, if_pos h]

variable (hhrp : g.hrp = s.hrp)
include hhrp

theorem exec_segwitDecode_badVersion {e : Err} (hv : segwitVersion m g.enc g.words = .error e) :
    FailsLosingChk (exec (.segwitDecode m) s) s e.code := by
  refine failsLosingChk_of_raise (u := s.holdScratch g) (r := none) ((exec_segwitDecode_of_ok m hg).trans ?_) rfl
  rw [segwitDecodeScratch, State.holdScratch_scratchHrp, State.holdScratch_hrp, if_neg (not_not.2 hhrp),
    State.holdScratch_scratchWords, hv]

variable {v : BitVec 5} {ws : List Sym} (hv : segwitVersion m g.enc g.words = .ok (v, ws))
include hv

theorem exec_segwitDecode_badPadding {e : Err} (hc : (convertBits .to8 .nopad (ws.map byteOfSym)).error = some e) :
    FailsLosingChk (exec (.segwitDecode m) s) s e.code := by
  refine failsLosingChk_of_raise (u := (s.holdScratch g).holdConverter (convertBits .to8 .nopad (ws.map byteOfSym)))
    (r := none) ((exec_segwitDecode_of_ok m hg).trans ?_) rfl
  rw [segwitDecodeScratch, State.holdScratch_scratchHrp, State.holdScratch_hrp, if_neg (not_not.2 hhrp),
    State.holdScratch_scratchWords, hv]
  simp only [hc]

theorem exec_segwitDecode_badLength (hc : (convertBits .to8 .nopad (ws.map byteOfSym)).error = none)
    (hbad : ¬ GoodProgramLength m v (convertBits .to8 .nopad (ws.map byteOfSym)).out.length) :
    FailsLosingChk (exec (.segwitDecode m) s) s Err.invalidProgramLength.code := by
  refine failsLosingChk_of_raise (u := (s.holdScratch g).holdConverter (convertBits .to8 .nopad (ws.map byteOfSym)))
    (r := none) ((exec_segwitDecode_of_ok m hg).trans ?_) rfl
  rw [segwitDecodeScratch, State.holdScratch_scratchHrp, State.holdScratch_hrp, if_neg (not_not.2 hhrp),
    State.holdScratch_scratchWords, hv]
  simp only [hc, (badProgramLength_eq_true m v _).2 hbad, if_true]

end

end Sys2Proof.Machine

namespace Sys2Proof.Proofs

open Sys2Proof.Machine Sys2Proof.Claims

/-- Settles O46: the text's own error, then each check of `segwitDecodeScratch` that fails after the ones before it have passed. -/
theorem segwitDecodeErrors : Obligations.SegwitDecodeErrors := by
  unfold Obligations.SegwitDecodeErrors
  intro m s
  refine ⟨fun te hte => ⟨failsLosingChk_of_raise (exec_segwitDecode_of_error m hte) rfl, fun t r ht hr => ?residue⟩,
    fun g hg => ⟨exec_segwitDecode_badPrefix hg,
      fun hhrp => ⟨?bareKind, ?noVersion, fun v rest hm hw => ⟨?version, ?versionKind⟩, fun v ws hok c hc => ?program⟩⟩⟩
  case residue =>
    rw [next_inj (exec_segwitDecode_of_error m hte) ht, State.raiseLosingChk_chk, hr, Option.getD_some]
  case bareKind =>
    rintro rfl henc
    exact exec_segwitDecode_badVersion hg hhrp (e := .encodingKindMismatch) (by rw [segwitVersion_bare, henc]; rfl)
  case noVersion =>
    rintro rfl hw
    exact exec_segwitDecode_badVersion hg hhrp (e := .invalidProgramLength) (by rw [hw]; rfl)
  case version =>
    subst hm
    exact fun hv => exec_segwitDecode_badVersion hg hhrp (e := .invalidWitnessVersion)
      (by rw [hw, segwitVersion_versioned, if_pos hv])
  case versionKind =>
    subst hm
    intro hv hkind
    have hne : ¬ (v = 0 ↔ g.enc = .bech32) := by
      rcases hkind with ⟨h0, he⟩ | ⟨h0, he⟩
      · rw [he]
        exact fun h => absurd (h.1 h0) (by decide)
      · exact fun h => h0 (h.2 he)
    exact exec_segwitDecode_badVersion hg hhrp (e := .encodingKindMismatch)
      (by rw [hw, segwitVersion_versioned, if_neg (Nat.not_lt.2 hv), if_neg hne])
  case program =>
    subst hc
    have hver : segwitVersion m g.enc g.words = .ok (v, ws) := by
      rcases hok with ⟨rfl, henc, rfl, rfl⟩ | ⟨rfl, hw, hv, hkind⟩
      · rw [segwitVersion_bare, if_pos henc]
      · rw [hw, segwitVersion_versioned, if_neg (Nat.not_lt.2 hv), if_pos hkind]
    refine ⟨fun herr => exec_segwitDecode_badPadding hg hhrp hver herr, fun herr hlen => ?_⟩
    refine exec_segwitDecode_badLength hg hhrp hver herr fun hgood => ?_
    obtain ⟨h2, h40⟩ := hgood.bounds
    rcases hlen with hlt | hgt | ⟨h0, hnot⟩
    · omega
    · omega
    · exact hnot (hgood.2 (.inr h0))

end Sys2Proof.Proofs
end

section
/-! SUPPORT. CONVERT's errors (O41; 42_convert.md R151 to R154, 60_exceptions.md R273) and the canonical padding property (O42; R155):
which input fails which check, and 5 to 8 as the inverse of 8 to 5 with padding. -/

namespace Sys2Proof.Machine

open Sys2Proof.Claims

/-! ### The two ways CONVERT ends (R153, R273) -/

theorem exec_convert_failsLosingOutput {d : Direction} {p : Padding} {s : State} {e : Err}
    (h : (convertBits d p s.input).error = some e) : FailsLosingOutput (exec (.convert d p) s) s e.code := by
  rcases exec_convert_cases d p s with ⟨e', he, hx⟩ | ⟨hn, -⟩
  · rw [h] at he; cases he
    exact ⟨_, hx, rfl, fun a ha => Memory.read_forget_other s.mem .obuf s.drawn (holds_eq_false_of_outside ha)⟩
  · rw [h] at hn; cases hn

/-- A conversion without an error is CONVERT's output. -/
theorem exec_convert_output {d : Direction} {p : Padding} {s : State} (h : (convertBits d p s.input).error = none) :
    ∃ t, exec (.convert d p) s = .next t ∧ t.status = okStatus 0 ∧ t.output = (convertBits d p s.input).out ∧
      t.outLen.toNat ≤ Config.bufBytes := by
  have hfit := (convertBits_bounds d p s.input).2
  rcases exec_convert_cases d p s with ⟨e, he, -⟩ | ⟨-, hx⟩
  · rw [h] at he; cases he
  · exact ⟨_, hx, rfl, output_putOutput (s.holdConverter _) hfit, (toNat_ofNat_length hfit).trans_le hfit⟩

/-- CONVERT raises an error exactly when its conversion does. -/
theorem exec_convert_err_iff (d : Direction) (p : Padding) (s : State) :
    ∃ t, exec (.convert d p) s = .next t ∧ (t.status.err = true ↔ (convertBits d p s.input).error ≠ none) := by
  rcases exec_convert_cases d p s with ⟨e, he, hx⟩ | ⟨hn, hx⟩
  · exact ⟨_, hx, fun _ => he ▸ Option.some_ne_none e, fun _ => rfl⟩
  · exact ⟨_, hx, fun h => absurd h Bool.false_ne_true, fun h => absurd hn h⟩

/-! ### Which input fails which check (R151, R152, R154) -/

/-- The first 5 to 8 input word above 31 ends the conversion: whatever IBUF holds before it, its output fits BUF_BYTES. -/
theorem convertBits_to8_badWord (p : Padding) {xs : Bytes} (hlen : xs.length ≤ Config.bufBytes) (h : ∃ x ∈ xs, 31 < x.toNat) :
    (convertBits .to8 p xs).error = some .invalidWord := by
  obtain ⟨x, hx⟩ : ∃ x, xs.find? (fun y => decide (31 < y.toNat)) = some x :=
    Option.isSome_iff_exists.1 (List.find?_isSome.2 (by simpa using h))
  obtain ⟨hbad, pre, post, rfl, hpre⟩ := List.find?_eq_some_iff_append.1 hx
  rw [List.length_append, bufBytes_eq] at hlen
  refine convertBits_invalidWord .to8 p pre post x (accepts_of_le fun _ y hy => ?_) ?_ ?_
  · simpa using hpre y hy
  · rw [bufBytes_eq]; simp only [inBits, outBits]; omega
  · have : 31 < x.toNat := of_decide_eq_true hbad
    simp only [Accepts, inBits]; omega

/-- An 8 to 5 input of more than 320 bytes has more than 512 whole words of output. -/
theorem convertBits_to5_tooLong (p : Padding) {xs : Bytes} (h : 320 < xs.length) :
    (convertBits .to5 p xs).error = some .lengthExceeded := by
  refine convertBits_tooLong .to5 p xs (fun x _ => x.isLt) ?_
  rw [bufBytes_eq]; simp only [inBits, outBits]; omega

theorem drop_ne_replicate {l : List Bool} {k r i : Nat} (hi : k ≤ i) (h : l.getD i false = true) :
    l.drop k ≠ List.replicate r false := by
  intro hdrop
  have hget : (l.drop k)[i - k]?.getD false = true := by
    rwa [List.getElem?_drop, Nat.add_sub_cancel' hi, ← List.getD_eq_getElem?_getD]
  rw [hdrop, List.getElem?_getD_replicate_default_eq] at hget
  cases hget

/-- A conversion without padding is an error when the leftover is too long or has a bit set (R152). -/
theorem convertBits_nopad_badLeftover {d : Direction} {xs : Bytes} (hx : ∀ x ∈ xs, Accepts d x)
    (hfit : xs.length * inBits d / outBits d ≤ Config.bufBytes)
    (h : inBits d ≤ xs.length * inBits d % outBits d ∨
      ∃ i, xs.length * inBits d - xs.length * inBits d % outBits d ≤ i ∧ (stream (inBits d) xs).getD i false = true) :
    (convertBits d .nopad xs).error = some .nonCanonicalPadding := by
  obtain ⟨-, -, -, herr⟩ := convertBits_nopad d xs hx hfit
  rw [herr, if_neg]
  rintro ⟨hshort, hzero⟩
  rcases h with hlong | ⟨i, hi, hbit⟩
  · exact absurd hshort (Nat.not_lt.2 hlong)
  · exact drop_ne_replicate hi hbit hzero

/-! ### The canonical padding property (R155) -/

theorem floor_le_bufBytes {d : Direction} {m : Nat} (hm : m ≤ Config.bufBytes) (h : d = .to5 → m ≤ 320) :
    m * inBits d / outBits d ≤ Config.bufBytes :=
  (Nat.div_le_div_right (by have := outBits_pos d; omega)).trans (ceil_le_bufBytes hm h)

/-- 8 to 5 without padding fails exactly on a leftover bit that is set, for its leftover is always shorter than a byte. -/
theorem convertBits_to5_nopad_error_iff {xs : Bytes} (hlen : xs.length ≤ 320) :
    (convertBits .to5 .nopad xs).error ≠ none ↔
      ∃ i, 8 * xs.length - 8 * xs.length % 5 ≤ i ∧ (stream 8 xs).getD i false = true := by
  have hx : ∀ x ∈ xs, Accepts .to5 x := fun x _ => x.isLt
  have hfit : xs.length * inBits .to5 / outBits .to5 ≤ Config.bufBytes :=
    floor_le_bufBytes (hlen.trans (by rw [bufBytes_eq]; decide)) fun _ => hlen
  have hshort : xs.length * inBits .to5 % outBits .to5 < inBits .to5 :=
    (Nat.mod_lt _ (outBits_pos .to5)).trans (by decide)
  rw [Nat.mul_comm 8]
  constructor
  · intro herr
    by_contra hnone
    refine herr (convertBits_nopad_ok hx hfit hshort fun i hi => ?_).1
    exact eq_false_of_ne_true fun hbit => hnone ⟨i, hi, hbit⟩
  · intro hbit
    rw [convertBits_nopad_badLeftover hx hfit (.inr hbit)]
    exact Option.some_ne_none _

/-- The padding bits are zero and fewer than 5, so 5 to 8 drops them and gives the bytes back. -/
theorem convertBits_to8_to5 {xs : Bytes} (hlen : xs.length ≤ 320) :
    (convertBits .to5 .pad xs).error = none ∧
      (convertBits .to8 .nopad (convertBits .to5 .pad xs).out).error = none ∧
      (convertBits .to8 .nopad (convertBits .to5 .pad xs).out).out = xs := by
  have hceil := ceil_le_bufBytes (d := .to5) (hlen.trans (by rw [bufBytes_eq]; decide)) fun _ => hlen
  obtain ⟨herr, hwords, hlt, hstream⟩ := convertBits_pad .to5 xs (fun x _ => x.isLt) hceil
  generalize (convertBits .to5 .pad xs).out = ws at hwords hlt hstream ⊢
  obtain ⟨-, hbytes, hback, herr'⟩ := convertBits_nopad .to8 ws hlt
    (floor_le_bufBytes (hwords.trans_le hceil) fun h => nomatch h)
  generalize convertBits .to8 .nopad ws = c at hbytes hback herr' ⊢
  simp only [inBits, outBits] at hwords hstream hbytes hback
  have hpad : ws.length * 5 - xs.length * 8 = ws.length * 5 % 8 := by omega
  have hdrop : (stream 5 ws).drop (ws.length * 5 - ws.length * 5 % 8) = List.replicate (ws.length * 5 % 8) false := by
    rw [hstream, hpad]
    exact List.drop_left' (by rw [length_stream]; omega)
  have hshort : ws.length * 5 % 8 < 5 := by omega
  rw [hdrop, hstream, hpad] at hback
  have hstreams : stream 8 xs = stream 8 c.out := List.append_cancel_right hback
  exact ⟨herr, herr'.trans (if_pos ⟨hshort, hdrop⟩),
    (stream_inj (by decide) (fun x _ => x.isLt) (fun y _ => y.isLt) hstreams).symm⟩

end Sys2Proof.Machine

namespace Sys2Proof.Proofs

open Sys2Proof.Machine

/-- Settles O42: CONVERT's outcome is its conversion's, and XFER makes the padded words the input of the conversion back. -/
theorem convertRoundTrip : Obligations.ConvertRoundTrip := by
  unfold Obligations.ConvertRoundTrip
  intro s hlen
  obtain ⟨w, hw, herr⟩ := exec_convert_err_iff .to5 .nopad s
  obtain ⟨hpad, hback, hout⟩ := convertBits_to8_to5 hlen
  obtain ⟨t, ht, -, htout, htlen⟩ := exec_convert_output hpad
  obtain ⟨u, hu, huin, -⟩ := exec_xfer_input htlen
  rw [← htout, ← huin] at hback hout
  obtain ⟨v, hv, hvstatus, hvout, -⟩ := exec_convert_output hback
  exact ⟨⟨w, hw, herr.trans (convertBits_to5_nopad_error_iff hlen)⟩, t, u, v, ht, hu, hv, hvstatus, hvout.trans hout⟩

/-- Settles O41: each clause makes one check of the conversion fail, and a failed conversion is CONVERT's error. -/
theorem convertErrors : Obligations.ConvertErrors := by
  unfold Obligations.ConvertErrors
  rintro d p s n rfl
  refine ⟨?word, ?tooLong, ?leftover⟩
  case word =>
    rintro rfl hbad
    exact exec_convert_failsLosingOutput (convertBits_to8_badWord p s.length_input_le hbad)
  case tooLong =>
    rintro rfl hlong
    exact exec_convert_failsLosingOutput (convertBits_to5_tooLong p hlong)
  case leftover =>
    rintro hwords hlen rfl hleft
    exact exec_convert_failsLosingOutput
      (convertBits_nopad_badLeftover (accepts_of_le hwords) (floor_le_bufBytes s.length_input_le hlen) hleft)

end Sys2Proof.Proofs
end

section
/-! SUPPORT. The segwit commands (O43 to O45, O47, O48; 43_segwit.md R170 to R176): what SEGWIT_ENCODE accepts and what it then encodes,
SEGWIT_DECODE with every check passed, and decoding as the inverse of encoding. -/

namespace Sys2Proof.Machine

open Sys2Proof.Claims

/-! ### The checks of version and program length (R171) -/

theorem segwitEncodeFault_eq_none (m : SegwitMode) (v : BitVec 5) (n : Nat) :
    segwitEncodeFault m v n = none ↔ (m = .versioned → v.toNat ≤ 16) ∧ GoodProgramLength m v n := by
  rcases segwitEncodeFault_cases m v n with ⟨⟨hm, hv⟩, h⟩ | ⟨-, hn, h⟩ | ⟨hv, hn, h⟩
  · simp only [h, reduceCtorEq, false_iff, not_and]
    exact fun hle => absurd (hle hm) (Nat.not_le.2 hv)
  · simp only [h, reduceCtorEq, false_iff, not_and]
    exact fun _ => hn
  · exact ⟨fun _ => ⟨hv, hn⟩, fun _ => h⟩

theorem segwitEncodeFault_of_version {m : SegwitMode} {v : BitVec 5} {n : Nat} (hm : m = .versioned) (hv : 16 < v.toNat) :
    segwitEncodeFault m v n = some .invalidWitnessVersion :=
  if_pos ⟨hm, hv⟩

theorem segwitEncodeFault_of_length {m : SegwitMode} {v : BitVec 5} {n : Nat} (hv : m = .versioned → v.toNat ≤ 16)
    (hn : ¬ GoodProgramLength m v n) : segwitEncodeFault m v n = some .invalidProgramLength := by
  rcases segwitEncodeFault_cases m v n with ⟨⟨hm, hlt⟩, -⟩ | ⟨-, -, h⟩ | ⟨-, hgood, -⟩
  · exact absurd (hv hm) (Nat.not_le.2 hlt)
  · exact h
  · exact absurd hgood hn

/-! ### The words SEGWIT_ENCODE encodes (R171) -/

theorem length_versionWord (m : SegwitMode) (v : BitVec 5) :
    (versionWord m v).length = if m = .versioned then 1 else 0 := by cases m <;> rfl

theorem toNat_byteOfSym_le (v : Sym) : (byteOfSym v).toNat ≤ 31 := by
  rw [byteOfSym, BitVec.toNat_setWidth]; omega

theorem symOfByte_byteOfSym (v : Sym) : symOfByte (byteOfSym v) = v := by
  refine BitVec.eq_of_toNat_eq ?_
  simp only [byteOfSym, symOfByte, BitVec.toNat_setWidth]
  omega

/-- A program of at most 320 bytes is converted to words below 32, as many as its bits need (R151). -/
theorem convertBits_to5_pad {xs : Bytes} (h : xs.length ≤ 320) :
    (convertBits .to5 .pad xs).out.length = (8 * xs.length + 4) / 5 ∧
      ∀ w ∈ (convertBits .to5 .pad xs).out, w.toNat ≤ 31 := by
  have hceil := ceil_le_bufBytes (d := .to5) (h.trans (by rw [bufBytes_eq]; decide)) fun _ => h
  obtain ⟨-, hlen, hlt, -⟩ := convertBits_pad .to5 xs (fun x _ => x.isLt) hceil
  rw [Nat.mul_comm 8]
  exact ⟨hlen, fun w hw => Nat.le_of_lt_succ (hlt w hw)⟩

theorem length_segwitWords {m : SegwitMode} {s : State} (h : s.input.length ≤ 320) :
    (segwitWords m s).length = (8 * s.input.length + 4) / 5 + if m = .versioned then 1 else 0 := by
  rw [segwitWords, List.length_append, length_versionWord, (convertBits_to5_pad h).1, Nat.add_comm]

theorem segwitWords_le {m : SegwitMode} {s : State} (h : s.input.length ≤ 320) : ∀ w ∈ segwitWords m s, w.toNat ≤ 31 := by
  intro w hw
  rcases List.mem_append.1 hw with hver | hprog
  · cases m with
    | bare => cases hver
    | versioned =>
      rw [List.mem_singleton.1 hver]
      exact toNat_byteOfSym_le s.version
  · exact (convertBits_to5_pad h).2 w hprog

/-! ### SEGWIT_ENCODE (R171) -/

theorem exec_segwitEncode_badOperand {m : SegwitMode} {s : State} {er : Err}
    (h : segwitEncodeFault m s.version s.input.length = some er) :
    FailsLosingChk (exec (.segwitEncode m) s) s er.code := by
  refine failsLosingChk_of_raise (u := s) (r := none) ?_ rfl
  rw [exec, execSegwitEncode, h]

section
variable {m : SegwitMode} {s : State} (hf : segwitEncodeFault m s.version s.input.length = none)
include hf

theorem length_input_of_accepted : s.input.length ≤ 320 := by
  obtain ⟨-, h40⟩ := ((segwitEncodeFault_eq_none m s.version s.input.length).1 hf).2.bounds
  exact h40.trans (by decide)

/-- With version and program length accepted the conversion cannot fail, and the command ends as B32_ENCODE does. -/
theorem exec_segwitEncode_of_accepted :
    exec (.segwitEncode m) s =
      .next ((s.holdConverter (convertBits .to5 .pad s.input)).encodeInto (segwitEncoding m s.version) s.hrp
        (segwitWords m s) 90) := by
  have herr := (convertBits_to8_to5 (length_input_of_accepted hf)).1
  rw [exec, execSegwitEncode, hf]
  simp only [herr, segwitWords]

theorem exec_segwitEncode_badText {er : Err}
    (h : encodeText (segwitEncoding m s.version) s.hrp (segwitWords m s) 90 = .error er) :
    FailsLosingChk (exec (.segwitEncode m) s) s er.code := by
  refine failsLosingChk_of_raise (u := s.holdConverter (convertBits .to5 .pad s.input)) (r := none) ?_ rfl
  rw [exec_segwitEncode_of_accepted hf, encodeInto_error _ h]

theorem exec_segwitEncode_of_ok {p : Bytes × Chk}
    (h : encodeText (segwitEncoding m s.version) s.hrp (segwitWords m s) 90 = .ok p) :
    exec (.segwitEncode m) s =
      .next (({ s.holdConverter (convertBits .to5 .pad s.input) with chk := p.2 }.putOutput p.1).succeed
        (encField (segwitEncoding m s.version))) := by
  rw [exec_segwitEncode_of_accepted hf, encodeInto_ok _ h]

end

/-- What SEGWIT_ENCODE accepts: a version and a program length of the mode, an hrp that passes the check, and a text within 90
characters (R170, R171). -/
structure SegwitAccepts (m : SegwitMode) (s : State) : Prop where
  operands : segwitEncodeFault m s.version s.input.length = none
  hrp_ne : s.hrp ≠ []
  hrp_ok : ∀ c ∈ s.hrp, hrpByteOk c
  text_le : s.hrp.length + 1 + (segwitWords m s).length + 6 ≤ 90

/-- The checksum value of the text that SEGWIT_ENCODE writes (R171). -/
def segwitChk (m : SegwitMode) (s : State) : Chk := checksumOf (segwitEncoding m s.version) s.hrp (segwitWords m s)

/-- The text that SEGWIT_ENCODE writes (R171). -/
def segwitText (m : SegwitMode) (s : State) : Bytes := textOf s.hrp (segwitWords m s) (segwitChk m s)

theorem SegwitAccepts.encodeText_eq {m : SegwitMode} {s : State} (h : SegwitAccepts m s) :
    encodeText (segwitEncoding m s.version) s.hrp (segwitWords m s) 90 = .ok (segwitText m s, segwitChk m s) :=
  encodeText_of_valid _ ((checkHrp_eq_none s.hrp).2 ⟨h.hrp_ne, h.hrp_ok⟩) h.text_le
    (segwitWords_le (length_input_of_accepted h.operands))

theorem SegwitAccepts.length_segwitText_le {m : SegwitMode} {s : State} (h : SegwitAccepts m s) :
    (segwitText m s).length ≤ Config.bufBytes :=
  (encodeText_length_le h.encodeText_eq).trans (by rw [bufBytes_eq]; decide)

theorem SegwitAccepts.outputsText {m : SegwitMode} {s : State} (h : SegwitAccepts m s) :
    OutputsText (exec (.segwitEncode m) s) s (segwitText m s) (segwitChk m s) (encField (segwitEncoding m s.version)) :=
  ⟨_, exec_segwitEncode_of_ok h.operands h.encodeText_eq, rfl, holds_putOutput h.length_segwitText_le,
    sameBytesBut_putOutput (s := { s.holdConverter (convertBits .to5 .pad s.input) with chk := segwitChk m s })⟩

/-- SEGWIT_ENCODE succeeds only on what it accepts. -/
theorem SegwitAccepts.of_exec {m : SegwitMode} {s t : State} (ht : exec (.segwitEncode m) s = .next t)
    (hok : t.status.err = false) : SegwitAccepts m s := by
  rcases exec_segwitEncode_cases m s with ⟨e, -, h⟩ | ⟨hf, ⟨e, -, h⟩ | ⟨-, ⟨e, -, h⟩ | ⟨p, hp, -⟩⟩⟩
  · rw [next_inj h ht] at hok; cases hok
  · rw [next_inj h ht] at hok; cases hok
  · rw [next_inj h ht] at hok; cases hok
  · rcases encodeText_cases (segwitEncoding m s.version) s.hrp (segwitWords m s) 90 with
      ⟨er, -, he⟩ | ⟨-, -, he⟩ | ⟨-, -, -, he⟩ | ⟨hc, hl, -, -⟩
    · rw [he] at hp; cases hp
    · rw [he] at hp; cases hp
    · rw [he] at hp; cases hp
    · obtain ⟨hne, hbytes⟩ := (checkHrp_eq_none s.hrp).1 hc
      exact ⟨hf, hne, hbytes, hl⟩

/-! ### SEGWIT_DECODE with every check passed (R173) -/

theorem exec_segwitDecode_of_valid {m : SegwitMode} {s : State} {g : DecodedText} {v : BitVec 5} {ws : List Sym} {c : Conversion}
    (hg : decodeText s.input 90 = .ok g) (hhrp : g.hrp = s.hrp) (hv : segwitVersion m g.enc g.words = .ok (v, ws))
    (hc : c = convertBits .to8 .nopad (ws.map byteOfSym)) (herr : c.error = none)
    (hgood : GoodProgramLength m v c.out.length) :
    exec (.segwitDecode m) s =
      .next (({ (s.holdScratch g).holdConverter c with version := v, chk := g.residue }.putOutput c.out).succeed
        (encField g.enc)) := by
  subst hc
  rw [exec_segwitDecode_of_ok m hg, segwitDecodeScratch, State.holdScratch_scratchHrp, State.holdScratch_hrp,
    if_neg (not_not.2 hhrp), State.holdScratch_scratchWords, hv]
  simp only [herr, (badProgramLength_eq_false m v _).2 hgood, Bool.false_eq_true, if_false]

/-- A failing SEGWIT_DECODE keeps VERSION (R174, R273). -/
theorem version_of_segwitDecode_err {m : SegwitMode} {s t : State} (ht : exec (.segwitDecode m) s = .next t)
    (herr : t.status.err = true) : t.version = s.version := by
  rcases exec_segwitDecode_cases m s with
    ⟨te, -, h⟩ | ⟨g, -, ⟨-, h⟩ | ⟨-, ⟨e, -, h⟩ | ⟨v, ws, c, -, -, ⟨e, -, h⟩ | ⟨-, ⟨-, h⟩ | ⟨-, h⟩⟩⟩⟩⟩ <;>
    rw [next_inj h ht] at herr ⊢
  · rfl
  · rfl
  · rfl
  · rfl
  · rfl
  · cases herr

/-! ### From SEGWIT_ENCODE through XFER to SEGWIT_DECODE (R176) -/

/-- A command other than B32_DECODE keeps the hrp (R27, R60). -/
theorem hrp_of_exec {i : Instr} {s t : State} (ht : exec i s = .next t) (hi : i ≠ .b32Decode) : t.hrp = s.hrp := by
  rw [State.hrp, State.hrp, (exec_registerFrame ht).hrpLen hi]
  exact Memory.readBuffer_congr fun k hk => exec_keeps_buffer ht (mayWrite_hbuf hi) k (lt_min_iff.1 hk).2

theorem exec_segwitEncode_output {m : SegwitMode} {s t : State} (h : SegwitAccepts m s)
    (ht : exec (.segwitEncode m) s = .next t) : t.output = segwitText m s ∧ t.outLen.toNat ≤ Config.bufBytes := by
  have hfit := h.length_segwitText_le
  obtain rfl := next_inj (exec_segwitEncode_of_ok h.operands h.encodeText_eq) ht
  exact ⟨output_putOutput _ hfit, (toNat_ofNat_length hfit).trans_le hfit⟩

/-- The version that SEGWIT_DECODE returns for a program encoded with version `v` (R173, R176). -/
def returnedVersion (m : SegwitMode) (v : BitVec 5) : BitVec 5 := if m = .bare then 0 else v

/-- The checks of the decoded words pass on the encoded ones, and give back the version and the program's words. -/
theorem segwitVersion_segwitWords {m : SegwitMode} {s : State} (h : m = .versioned → s.version.toNat ≤ 16) :
    segwitVersion m (segwitEncoding m s.version) ((segwitWords m s).map symOfByte) =
      .ok (returnedVersion m s.version, (convertBits .to5 .pad s.input).out.map symOfByte) := by
  cases m with
  | bare => exact segwitVersion_bare _ _
  | versioned =>
    rw [segwitWords, versionWord, List.singleton_append, List.map_cons, symOfByte_byteOfSym, segwitVersion_versioned,
      if_neg (Nat.not_lt.2 (h rfl)), if_pos ((segwitEncoding_versioned _ _).1 rfl)]
    rfl

theorem GoodProgramLength.returnedVersion {m : SegwitMode} {v : BitVec 5} {n : Nat} (h : GoodProgramLength m v n) :
    GoodProgramLength m (returnedVersion m v) n := by
  cases m with
  | bare => exact ⟨fun hm => (nomatch hm), fun _ => h.2 (.inl rfl)⟩
  | versioned => exact h

/-- SEGWIT_DECODE of a text that SEGWIT_ENCODE writes, with the same hrp in HBUF. -/
theorem exec_segwitDecode_segwitText {m : SegwitMode} {s u : State} (h : SegwitAccepts m s) (hin : u.input = segwitText m s)
    (hhrp : u.hrp = s.hrp) :
    ∃ v, exec (.segwitDecode m) u = .next v ∧ v.status.err = false ∧ v.output = s.input ∧
      v.version = returnedVersion m s.version := by
  obtain ⟨hver, hgood⟩ := (segwitEncodeFault_eq_none m s.version s.input.length).1 h.operands
  have hlen := length_input_of_accepted h.operands
  obtain ⟨-, hback, hout⟩ := convertBits_to8_to5 hlen
  have hdec : decodeText u.input 90 =
      .ok ⟨s.hrp, (segwitWords m s).map symOfByte, segwitEncoding m s.version, constOf (segwitEncoding m s.version)⟩ := by
    rw [hin]
    exact decodeText_textOf _ h.hrp_ne h.hrp_ok h.text_le
  have hexec := exec_segwitDecode_of_valid hdec hhrp.symm (segwitVersion_segwitWords hver)
    (congrArg _ (map_byteOfSym_symOfByte (convertBits_to5_pad hlen).2).symm) hback (hout.symm ▸ hgood.returnedVersion)
  refine ⟨_, hexec, rfl, (output_putOutput _ (convertBits_bounds _ _ _).2).trans hout, rfl⟩

end Sys2Proof.Machine

namespace Sys2Proof.Proofs

open Sys2Proof.Machine Sys2Proof.Claims

/-- Settles O48: a successful SEGWIT_ENCODE has written the text of what it accepts, XFER makes it the input beside the same hrp,
and the decoder's checks pass on it. -/
theorem segwitRoundTrip : Obligations.SegwitRoundTrip := by
  unfold Obligations.SegwitRoundTrip
  intro m s t ht hok
  have haccepts := SegwitAccepts.of_exec ht hok
  obtain ⟨htout, htlen⟩ := exec_segwitEncode_output haccepts ht
  obtain ⟨u, hu, huin, -⟩ := exec_xfer_input htlen
  have hhrp : u.hrp = s.hrp :=
    (hrp_of_exec hu (fun h => nomatch h)).trans (hrp_of_exec ht (fun h => nomatch h))
  obtain ⟨v, hv, hvstatus, hvout, hvversion⟩ := exec_segwitDecode_segwitText haccepts (huin.trans htout) hhrp
  exact ⟨u, v, hu, hv, hvstatus, hvout, hvversion⟩

/-- Settles O43: the mode accepts the operands, so the output is the text of the version symbol and the converted program. -/
theorem segwitEncodeResult : Obligations.SegwitEncodeResult := by
  unfold Obligations.SegwitEncodeResult
  rintro s hne hok ws rfl
  refine ⟨fun hlen htext => ?bare, fun v hv hver h2 h40 htext => ?versioned⟩
  case bare =>
    exact SegwitAccepts.outputsText (m := .bare)
      ⟨(segwitEncodeFault_eq_none _ _ _).2 ⟨fun h => (nomatch h), fun h => (nomatch h), fun _ => hlen⟩, hne, hok, htext⟩
  case versioned =>
    subst hv
    have hout (hlen : s.version = 0 → s.input.length ∈ [20, 32]) :=
      SegwitAccepts.outputsText (m := .versioned) (s := s)
        ⟨(segwitEncodeFault_eq_none _ _ _).2
          ⟨fun _ => hver, fun _ => ⟨h2, h40⟩, fun h => hlen (h.resolve_left fun hm => nomatch hm)⟩, hne, hok, htext⟩
    refine ⟨fun h0 hlen => ?_, fun h0 => ?_⟩
    · have henc : segwitEncoding .versioned s.version = .bech32 := if_pos h0
      have h := hout fun _ => hlen
      rwa [segwitText, segwitChk, henc] at h
    · have henc : segwitEncoding .versioned s.version = .bech32m := if_neg h0
      have h := hout fun h => absurd h h0
      rwa [segwitText, segwitChk, henc] at h

/-- Settles O44: the version, the program length and the text are checked in this order, each after the ones before it passed. -/
theorem segwitEncodeErrors : Obligations.SegwitEncodeErrors := by
  unfold Obligations.SegwitEncodeErrors
  intro m s
  refine ⟨fun hm hv => ?version, fun hv => ⟨fun hbad => ?length, fun h2 h40 hv0 => ?text⟩⟩
  case version => exact exec_segwitEncode_badOperand (segwitEncodeFault_of_version hm hv)
  case length =>
    refine exec_segwitEncode_badOperand (segwitEncodeFault_of_length hv fun hgood => ?_)
    rcases hbad with ⟨-, hout⟩ | ⟨hmode, h20, h32⟩
    · have := hgood.bounds
      omega
    · have := hgood.2 hmode
      simp [h20, h32] at this
  case text =>
    have hf := (segwitEncodeFault_eq_none m s.version s.input.length).2 ⟨hv, fun _ => ⟨h2, h40⟩, hv0⟩
    refine ⟨fun hnil => ?_, fun pre c post hhrp hpre hc => ?_, fun hne hok hlong => ?_⟩
    · exact exec_segwitEncode_badText hf (encodeText_of_badHrp _ (by rw [hnil, checkHrp_nil]))
    · rw [← code_hrpByteErr]
      exact exec_segwitEncode_badText hf (encodeText_of_badHrp _ (by rw [hhrp, checkHrp_eq_some pre post c hpre hc]))
    · rw [← length_segwitWords (length_input_of_accepted hf)] at hlong
      exact exec_segwitEncode_badText hf (encodeText_of_tooLong _ ((checkHrp_eq_none s.hrp).2 ⟨hne, hok⟩) hlong)

/-- Settles O45: every check passes, and the residue of a text that decodes is its encoding's constant. -/
theorem segwitDecodeResult : Obligations.SegwitDecodeResult := by
  unfold Obligations.SegwitDecodeResult
  intro s g c hg hhrp m v hbare hversioned hv herr h2 h40 h0 h1
  obtain ⟨-, -, hres, -⟩ := decodeText_ok hg
  have hkind : v = 0 ↔ g.enc = .bech32 :=
    ⟨fun h => (h0 h).1, fun h => by_contra fun hne => by rw [h1 hne] at h; cases h⟩
  obtain ⟨ws, hver, hc⟩ : ∃ ws, segwitVersion m g.enc g.words = .ok (v, ws) ∧
      c = convertBits .to8 .nopad (ws.map byteOfSym) := by
    cases m with
    | bare =>
      obtain ⟨rfl, hc⟩ := hbare rfl
      exact ⟨g.words, by rw [segwitVersion_bare, if_pos (hkind.1 rfl)], hc⟩
    | versioned =>
      obtain ⟨rest, hwords, hc⟩ := hversioned rfl
      exact ⟨rest, by rw [hwords, segwitVersion_versioned, if_neg (Nat.not_lt.2 hv), if_pos hkind], hc⟩
  have hgood : GoodProgramLength m v c.out.length :=
    ⟨fun _ => ⟨h2, h40⟩, fun h => (h0 (h.elim (fun hm => (hbare hm).1) id)).2⟩
  have hexec := exec_segwitDecode_of_valid hg hhrp hver hc herr hgood
  rw [hres] at hexec
  have hfit : c.out.length ≤ Config.bufBytes := h40.trans (by rw [bufBytes_eq]; decide)
  exact ⟨_, hexec, rfl, holds_putOutput hfit, sameBytesBut_putOutput (s :=
    { (s.holdScratch g).holdConverter c with version := v, chk := constOf g.enc })⟩

/-- Settles O47: an illegal word writes STATUS only, no other command writes VERSION, and SEGWIT_DECODE writes it only on success. -/
theorem onlySegwitDecodeSuccessWritesVersion : Obligations.OnlySegwitDecodeSuccessWritesVersion := by
  unfold Obligations.OnlySegwitDecodeSuccessWritesVersion
  intro s t w hin hp ht hne
  rw [step_nil hin] at ht
  by_cases hlegal : legalWord w
  · obtain ⟨i, hi⟩ := (decode_isOk_iff w).2 hlegal
    rw [blockStep_legal hp hi] at ht
    obtain ⟨m, rfl⟩ : ∃ m, i = .segwitDecode m :=
      by_contra fun h => hne ((exec_registerFrame ht).version fun m hm => h ⟨m, hm⟩)
    refine ⟨?word, eq_false_of_ne_true fun herr => hne (version_of_segwitDecode_err ht herr)⟩
    case word =>
      rw [← (encode_of_decode hi).2]
      cases m with
      | versioned => exact .inl rfl
      | bare => exact .inr rfl
  · rw [next_inj (blockStep_illegal hp hlegal) ht] at hne
    exact absurd rfl hne

end Sys2Proof.Proofs
end

section
/-! SUPPORT. The TLV commands (O49 to O54; 44_tlv.md R190 to R198): the state each way of TLV_PARSE and TLV_ENCODE ends in, the valid
entries as places of the table, and parsing as the inverse of concatenating. -/

namespace Sys2Proof.Machine

open Sys2Proof.Claims

/-! ### The valid entries (R32, R35) -/

theorem State.length_records {s : State} (h : s.tlvCount.toNat ≤ 16) : s.records.length = s.tlvCount.toNat := by
  simp [State.records, h]

theorem State.getElem?_records {s : State} {j : Nat} (h : j < s.tlvCount.toNat) : s.records[j]? = s.tlvRec[j]? := by
  simp [State.records, h]

/-! ### TLV_PARSE (R193, R273) -/

/-- The state after TLV_PARSE has taken the good records that end the input, or sixteen of them. -/
theorem exec_tlvParse_of_records {s : State} {rs : List (Byte × Bytes)} {rest : Bytes} (hin : s.input = tlvStream rs ++ rest)
    (hrs : ∀ r ∈ rs, recordOk r) (hne : rs ≠ []) (hn : rs.length ≤ 16) (hrest : rest = [] ∨ rs.length = 16) :
    exec .tlvParse s = .next { s with
      tlvCount := BitVec.ofNat 5 rs.length, tlvEnd := BitVec.ofNat 16 (tlvStream rs).length
      tlvRec := ((Parser.start s.tlvRec).tookAll rs).table
      outLen := 0, pending := none, status := okStatus 0
      off := BitVec.ofNat 16 (tlvStream rs).length, nrec := rs.length, pstate := .idle } := by
  have hparse := parseAll_ok rs hrs rest s.tlvRec hne hn hrest
  obtain ⟨-, hoff, hnrec, hcode⟩ := Parser.tookAll_fields rs (Parser.start s.tlvRec) rfl
  simp only [Parser.start, Nat.zero_add] at hoff hnrec hcode
  rw [← hin] at hparse
  rcases exec_tlvParse_cases s with ⟨e, he, -⟩ | ⟨-, h⟩
  · rw [hparse] at he
    cases hcode.symm.trans he
  · rw [h, hparse]
    simp only [State.holdParser, Parser.start, hoff, hnrec]
    rfl

/-- The error of the parser on the input is TLV_PARSE's, and its cursor is TLV_END. -/
theorem exec_tlvParse_failsParse {s : State} {xs : Bytes} {e : Err} {n : Nat} (hin : s.input = xs)
    (h : (parseAll xs s.tlvRec).code = some e ∧ (parseAll xs s.tlvRec).off = n) : FailsParse (exec .tlvParse s) s e.code n := by
  subst hin
  obtain ⟨hcode, rfl⟩ := h
  obtain ⟨hidle, -, -⟩ := parseAll_ends s.input s.tlvRec
  rcases exec_tlvParse_cases s with ⟨e', he, hx⟩ | ⟨hnone, -⟩
  · rw [hcode] at he; cases he
    refine ⟨_, hx, ?_⟩
    rw [← hidle]
    rfl
  · rw [hcode] at hnone; cases hnone

/-! ### TLV_ENCODE (R197, R273) -/

theorem exec_tlvEncode_of_ok {s : State} {out : Bytes} (h : concatRecords s.input s.records [] = .ok out) :
    exec .tlvEncode s = .next ((s.putOutput out).succeed encNone) := by
  rw [exec, execTlvEncode, h]

theorem exec_tlvEncode_failsLosingOutput {s : State} {e : Err} (h : concatRecords s.input s.records [] = .error e) :
    FailsLosingOutput (exec .tlvEncode s) s e.code := by
  have hexec : exec .tlvEncode s = .next (s.raiseLosingOutput e) := by rw [exec, execTlvEncode, h]
  exact ⟨_, hexec, rfl, fun a ha => Memory.read_forget_other s.mem .obuf s.drawn (holds_eq_false_of_outside ha)⟩

/-- Records that fit the input, with a stream that fits OBUF, are concatenated. -/
theorem concatRecords_of_fits {input : Bytes} {rs : List Record} (hfit : ∀ r ∈ rs, FitsInput input r)
    (hlen : (rs.flatMap (recordBytes input)).length ≤ Config.bufBytes) :
    concatRecords input rs [] = .ok (rs.flatMap (recordBytes input)) := by
  rw [length_flatMap_recordBytes input rs hfit] at hlen
  have h := concatRecords_append input rs [] [] hfit (by simpa using hlen)
  rwa [List.append_nil, List.nil_append] at h

/-- The concatenator comes to the record after those that fit with the length of their stream. -/
theorem concatRecords_at {input : Bytes} {pre post : List Record} {r : Record} (hpre : ∀ q ∈ pre, FitsInput input q)
    (hlen : (pre.map recordSize).sum ≤ Config.bufBytes) :
    ∃ out, out.length = (pre.map recordSize).sum ∧
      concatRecords input (pre ++ r :: post) [] = concatRecords input (r :: post) out :=
  ⟨_, length_flatMap_recordBytes input pre hpre, concatRecords_append input pre (r :: post) [] hpre (by simpa using hlen)⟩

/-- TLV_ENCODE succeeds only on records that fit, and its output is their stream. -/
theorem exec_tlvEncode_output {s t : State} (ht : exec .tlvEncode s = .next t) (hok : t.status.err = false) :
    (∀ r ∈ s.records, FitsInput s.input r) ∧ t.output = s.records.flatMap (recordBytes s.input) ∧
      t.outLen.toNat ≤ Config.bufBytes := by
  rcases exec_tlvEncode_cases s with ⟨e, -, h⟩ | ⟨out, hout, h⟩ <;> obtain rfl := next_inj h ht
  · cases hok
  · obtain ⟨hfit, rfl, hlen⟩ := concatRecords_ok s.input s.records [] out hout (Nat.zero_le _)
    exact ⟨hfit, output_putOutput s hlen, (toNat_ofNat_length hlen).trans_le hlen⟩

/-! ### The stream of a table, record by record (R190, R198) -/

/-- The value bytes that an entry refers to (R35). -/
def Record.value (input : Bytes) (r : Record) : Bytes := (input.drop r.voff.toNat).take r.length.toNat

/-- The record that TLV_ENCODE emits for an entry: its type and its value (R197). -/
def Record.emitted (input : Bytes) (r : Record) : Byte × Bytes := (r.type, r.value input)

theorem Record.length_value {input : Bytes} {r : Record} (h : FitsInput input r) : (r.value input).length = r.length.toNat := by
  rw [FitsInput] at h
  rw [Record.value, List.length_take, List.length_drop]; omega

theorem Record.ofNat_length_value {input : Bytes} {r : Record} (h : FitsInput input r) :
    BitVec.ofNat 8 (r.value input).length = r.length := by
  rw [Record.length_value h, BitVec.ofNat_toNat, BitVec.setWidth_eq]

theorem Record.emitted_ok {input : Bytes} {r : Record} (h : FitsInput input r) (ht : r.type.toNat < 4) :
    recordOk (r.emitted input) :=
  ⟨ht, (Record.length_value h).trans_le (Nat.le_of_lt_succ r.length.isLt)⟩

theorem recordStream_emitted {input : Bytes} {r : Record} (h : FitsInput input r) :
    recordStream (r.emitted input) = recordBytes input r := by
  rw [recordStream, Record.emitted, Record.ofNat_length_value h]; rfl

/-- The concatenated records are the stream of what the entries emit. -/
theorem tlvStream_emitted {input : Bytes} {rs : List Record} (h : ∀ r ∈ rs, FitsInput input r) :
    tlvStream (rs.map (Record.emitted input)) = rs.flatMap (recordBytes input) := by
  rw [tlvStream, List.flatMap_map]
  exact List.flatMap_congr fun r hr => recordStream_emitted (h r hr)

theorem tlvStream_split {rs : List (Byte × Bytes)} {j : Nat} {r : Byte × Bytes} (h : rs[j]? = some r) :
    tlvStream rs = tlvStream (rs.take j) ++ (recordStream r ++ tlvStream (rs.drop (j + 1))) := by
  obtain ⟨hj, rfl⟩ := List.getElem?_eq_some_iff.1 h
  rw [← tlvStream_cons, ← tlvStream_append, ← List.drop_eq_getElem_cons, List.take_append_drop]

/-- A record's value starts two bytes after the records before it, inside the stream. -/
theorem tlvStream_value {rs : List (Byte × Bytes)} {j : Nat} {r : Byte × Bytes} (h : rs[j]? = some r) :
    (tlvStream (rs.take j)).length + 2 ≤ (tlvStream rs).length ∧
      ((tlvStream rs).drop ((tlvStream (rs.take j)).length + 2)).take r.2.length = r.2 := by
  rw [tlvStream_split h]
  constructor
  · simp only [List.length_append, length_recordStream]; omega
  · rw [recordStream, List.drop_length_add_append]
    exact List.take_left

/-- The entry that TLV_PARSE writes for record `j` of a stream (R192). -/
def parsedEntry (rs : List (Byte × Bytes)) (j : Nat) (r : Byte × Bytes) : Record :=
  ⟨r.1, BitVec.ofNat 8 r.2.length, BitVec.ofNat 16 ((tlvStream (rs.take j)).length + 2)⟩

/-- The entry refers to the record's value, for its offset and its length fit their fields. -/
theorem value_parsedEntry {rs : List (Byte × Bytes)} {j : Nat} {r : Byte × Bytes} (h : rs[j]? = some r) (hr : recordOk r)
    (hfit : (tlvStream rs).length ≤ Config.bufBytes) : (parsedEntry rs j r).value (tlvStream rs) = r.2 := by
  obtain ⟨hle, hvalue⟩ := tlvStream_value h
  obtain ⟨-, hlen⟩ := hr
  rw [bufBytes_eq] at hfit
  rw [Record.value, parsedEntry, BitVec.toNat_ofNat, BitVec.toNat_ofNat, Nat.mod_eq_of_lt (by omega),
    Nat.mod_eq_of_lt (by omega)]
  exact hvalue

end Sys2Proof.Machine

namespace Sys2Proof.Proofs

open Sys2Proof.Machine Sys2Proof.Claims

/-- Settles O49: the parser takes the records and stops, and the table's entries are where it has put them. -/
theorem tlvParseResult : Obligations.TlvParseResult := by
  unfold Obligations.TlvParseResult
  intro s rs rest hin hrs hne hn hrest
  refine ⟨_, exec_tlvParse_of_records hin hrs hne hn hrest, rfl, fun i => ?_⟩
  have htable := Parser.tookAll_table rs (Parser.start s.tlvRec) ((Nat.zero_add _).trans_le hn) i
  simp only [Parser.start, Nat.not_lt_zero, if_false, Nat.sub_zero, Nat.zero_add] at htable
  exact htable

/-- Settles O54: a successful TLV_ENCODE has written the stream of what its entries emit, XFER makes it the input, and TLV_PARSE finds
each record's value where the record stands in the stream. -/
theorem parseAfterEncode : Obligations.ParseAfterEncode := by
  unfold Obligations.ParseAfterEncode
  intro s t hpos h16 htypes ht hok
  obtain ⟨hfit, hout, hlen⟩ := exec_tlvEncode_output ht hok
  obtain ⟨u, hu, huin, -⟩ := exec_xfer_input hlen
  have hcount := State.length_records h16
  obtain ⟨rs, hrs⟩ : ∃ rs, rs = s.records.map (Record.emitted s.input) := ⟨_, rfl⟩
  have hlength : rs.length = s.tlvCount.toNat := by rw [hrs, List.length_map, hcount]
  have hin : u.input = tlvStream rs := by rw [huin, hout, hrs, tlvStream_emitted hfit]
  have hgood : ∀ r ∈ rs, recordOk r :=
    hrs ▸ List.forall_mem_map.2 fun r hr => Record.emitted_ok (hfit r hr) (htypes r hr)
  obtain ⟨v, hv, hframe, htable⟩ := tlvParseResult u rs [] (hin.trans (List.append_nil _).symm) hgood
    (List.ne_nil_of_length_pos (hlength ▸ hpos)) (hlength ▸ h16) (.inl rfl)
  have hvin : v.input = tlvStream rs := (congrArg State.input hframe).trans hin
  have hvcount : v.tlvCount = BitVec.ofNat 5 rs.length := congrArg State.tlvCount hframe
  refine ⟨u, v, hu, hv, congrArg State.status hframe, ?count, fun j hj => ?entry⟩
  case count => rw [hvcount, hlength, BitVec.ofNat_toNat, BitVec.setWidth_eq]
  case entry =>
    have hsrc : s.records[j.val]? = some s.tlvRec[j] := by rw [State.getElem?_records hj]; simp
    have hrec : rs[j.val]? = some (s.tlvRec[j].emitted s.input) := by rw [hrs, List.getElem?_map, hsrc]; rfl
    have hentry : v.tlvRec[j] = parsedEntry rs j (s.tlvRec[j].emitted s.input) := by
      have h := htable j
      rw [hrec] at h
      exact h
    rw [hentry, hvin]
    exact ⟨rfl, Record.ofNat_length_value (hfit _ (List.mem_of_getElem? hsrc)),
      value_parsedEntry hrec (hgood _ (List.mem_of_getElem? hrec)) (hin ▸ u.length_input_le)⟩

/-- Settles O50: each clause is one of the parser's ways out after the good records. -/
theorem tlvParseErrors : Obligations.TlvParseErrors := by
  unfold Obligations.TlvParseErrors
  intro s rs rest hin hrs hn
  have errors := parseAll_error rs hrs rest s.tlvRec hn
  refine ⟨fun hnil hrest => ?empty, fun ty more hrest => ⟨fun hty => ?type, fun hty => ⟨fun hmore => ?length, ?value⟩⟩⟩
  case empty =>
    have h := errors .emptyTlvSequence (.inl ⟨hnil, hrest, rfl⟩)
    subst hnil
    exact exec_tlvParse_failsParse hin h
  case type =>
    exact exec_tlvParse_failsParse hin (errors .unknownTlvType (.inr (.inl ⟨ty, more, hrest, hty, rfl⟩)))
  case length =>
    exact exec_tlvParse_failsParse hin (errors .truncatedTlv (.inr (.inr (.inl ⟨ty, hmore ▸ hrest, hty, rfl⟩))))
  case value =>
    intro l value hmore hshort
    exact exec_tlvParse_failsParse hin
      (errors .truncatedTlv (.inr (.inr (.inr ⟨ty, l, value, hmore ▸ hrest, hty, hshort, rfl⟩))))

/-- Settles O51: the search is over the valid entries, which are the table's first TLV_COUNT. -/
theorem tlvFindResult : Obligations.TlvFindResult := by
  unfold Obligations.TlvFindResult
  intro t s ht h16
  obtain ⟨hfound, hnone⟩ := findFirst_spec t s.records s.length_records_le
  rw [State.length_records h16] at hfound
  refine ⟨decode_encode (i := .tlvFind t) (decide_eq_true ht), _, exec_tlvFind t s, fun h => ?found, fun h => ?none⟩
  case found =>
    obtain ⟨hlt, hmatch, hfirst⟩ := hfound h
    rw [State.getElem?_records hlt] at hmatch
    exact ⟨hlt, hmatch, fun j r hj hr => hfirst j r hj ((State.getElem?_records (hj.trans hlt)).trans hr)⟩
  case none =>
    obtain ⟨hindex, hother⟩ := hnone h
    exact ⟨hindex, fun j r hj hr => hother j r ((State.getElem?_records hj).trans hr)⟩

/-- Settles O52: the concatenator passes every record, so the command's output is the stream. -/
theorem tlvEncodeResult : Obligations.TlvEncodeResult := by
  unfold Obligations.TlvEncodeResult
  rintro s out rfl hfit hlen
  exact ⟨_, exec_tlvEncode_of_ok (concatRecords_of_fits hfit hlen), rfl, holds_putOutput hlen, sameBytesBut_putOutput (s := s)⟩

/-- Settles O53: the concatenator comes to the entry with the stream of those before it, and the entry fails one of its two checks. -/
theorem tlvEncodeErrors : Obligations.TlvEncodeErrors := by
  unfold Obligations.TlvEncodeErrors
  intro s pre post r hrecords hpre hsum
  obtain ⟨out, hlen, hat⟩ := concatRecords_at (post := post) (r := r) hpre hsum
  rw [← hrecords] at hat
  refine ⟨fun hpast => ?past, fun hfit hlong => ?long⟩
  case past =>
    refine exec_tlvEncode_failsLosingOutput (e := .truncatedTlv) (hat.trans ?_)
    rw [concatRecords, if_pos hpast]
  case long =>
    refine exec_tlvEncode_failsLosingOutput (e := .lengthExceeded) (hat.trans ?_)
    rw [concatRecords, if_neg (Nat.not_lt.2 hfit), if_pos (hlen ▸ hlong)]

end Sys2Proof.Proofs
end

section
/-! SUPPORT. XFER (O56; 45_control.md R222): OBUF's valid bytes as IBUF's first ones, and the same bytes written twice at one
place as written once. -/

namespace Sys2Proof.Machine

/-! ### The same bytes written again -/

/-- Of the cells after a write, those below the run are the ones from before it. -/
theorem Memory.filter_below_store (m : Memory) (a : Nat) (bs : Bytes) :
    (m.store a bs).cells.filter (fun c => c.1 < a) = m.cells.filter (fun c => c.1 < a) := by
  have hrun : (cellsFrom a bs).filter (fun c => c.1 < a) = [] :=
    List.filter_eq_nil_iff.2 fun c hc => by simp [(mem_cellsFrom hc).1]
  have habove : (m.cells.filter fun c => a + bs.length ≤ c.1).filter (fun c => c.1 < a) = [] :=
    List.filter_eq_nil_iff.2 fun c hc => by simp only [List.mem_filter, decide_eq_true_eq] at hc ⊢; omega
  rw [Memory.store, List.filter_append, List.filter_append, hrun, habove, List.append_nil, List.append_nil, List.filter_filter]
  simp only [Bool.and_self]

/-- Of the cells after a write, those above the run are the ones from before it. -/
theorem Memory.filter_above_store (m : Memory) (a : Nat) (bs : Bytes) :
    (m.store a bs).cells.filter (fun c => a + bs.length ≤ c.1) = m.cells.filter (fun c => a + bs.length ≤ c.1) := by
  have hrun : (cellsFrom a bs).filter (fun c => a + bs.length ≤ c.1) = [] :=
    List.filter_eq_nil_iff.2 fun c hc => by simp [(mem_cellsFrom hc).2]
  have hbelow : (m.cells.filter fun c => c.1 < a).filter (fun c => a + bs.length ≤ c.1) = [] :=
    List.filter_eq_nil_iff.2 fun c hc => by simp only [List.mem_filter, decide_eq_true_eq] at hc ⊢; omega
  rw [Memory.store, List.filter_append, List.filter_append, hbelow, hrun, List.append_nil, List.nil_append, List.filter_filter]
  simp only [Bool.and_self]

/-- The second write drops the cells of the first. -/
theorem Memory.store_store_same (m : Memory) (a : Nat) (bs : Bytes) : (m.store a bs).store a bs = m.store a bs := by
  rw [Memory.store, Memory.filter_below_store, Memory.filter_above_store]
  rfl

theorem Memory.storeBuffer_storeBuffer_same (m : Memory) (b : Buffer) (bs : Bytes) :
    (m.storeBuffer b bs).storeBuffer b bs = m.storeBuffer b bs :=
  Memory.store_store_same m b.base _

/-! ### The valid output in IBUF -/

theorem State.length_output {s : State} (h : s.outLen.toNat ≤ Config.bufBytes) : s.output.length = s.outLen.toNat := by
  rw [State.output, Memory.length_readBuffer, Nat.min_eq_left h]

section
variable {s : State} (h : s.outLen.toNat ≤ Config.bufBytes)
include h

theorem read_storeOutput {k : Nat} (hk : k < s.outLen.toNat) :
    (s.mem.storeBuffer .ibuf s.output).read (Buffer.ibuf.base + k) = s.mem.read (Buffer.obuf.base + k) := by
  have hlast : k < Config.bufBytes := hk.trans_le h
  calc (s.mem.storeBuffer .ibuf s.output).read (Buffer.ibuf.base + k)
      = s.output.getD k 0 := Memory.read_storeBuffer_inside _ _ _ k ((State.length_output h).symm ▸ hk) hlast
    _ = s.mem.read (Buffer.obuf.base + k) := Memory.getD_readBuffer _ _ _ k hk hlast

/-- No byte past the valid output is written. -/
theorem read_storeOutput_outside {a : Nat} (ha : ¬ (Buffer.ibuf.base ≤ a ∧ a < Buffer.ibuf.base + s.outLen.toNat)) :
    (s.mem.storeBuffer .ibuf s.output).read a = s.mem.read a := by
  apply Memory.read_storeBuffer_outside
  rwa [State.length_output h, Nat.min_eq_left h]

end

/-- XFER leaves the valid output as it was. -/
theorem output_of_xfer {s t : State} (ht : exec .xfer s = .next t) : t.output = s.output := by
  obtain rfl := next_inj (exec_xfer s) ht
  exact Memory.readBuffer_storeBuffer_ne s.mem (by decide) s.output _

/-- A second XFER writes the same bytes at the same place. -/
theorem exec_xfer_again {s t : State} (ht : exec .xfer s = .next t) : exec .xfer t = .next t := by
  have hout := output_of_xfer ht
  obtain rfl := next_inj (exec_xfer s) ht
  rw [exec_xfer, hout, State.succeed_mem, Memory.storeBuffer_storeBuffer_same]
  rfl

end Sys2Proof.Machine

namespace Sys2Proof.Proofs

open Sys2Proof.Machine

/-- Settles O8: with no event left the step is the block's turn, and an illegal word's turn is the error exit of STATUS alone. -/
theorem illegalCommandChangesOnlyStatus : Obligations.IllegalCommandChangesOnlyStatus := by
  unfold Obligations.IllegalCommandChangesOnlyStatus
  intro s w hin hp hw
  have hstep : step s = .next (s.raise .illegalCommand) := (step_nil hin).trans (blockStep_illegal hp hw)
  have hword : (Status.failed .illegalCommand).word = 0x00001306 := by decide
  exact ⟨_, hstep, rfl, hword⟩

/-- Settles O56: XFER stores the valid output at IBUF's start, and that output, in OBUF, outlives the write. -/
theorem xferResult : Obligations.XferResult := by
  unfold Obligations.XferResult
  intro s hlen
  exact ⟨decode_encode (i := .xfer) rfl, _, exec_xfer s, rfl, fun _ => read_storeOutput hlen,
    fun _ => read_storeOutput_outside hlen, exec_xfer_again (exec_xfer s)⟩

end Sys2Proof.Proofs
end

section
/-! SUPPORT. The host identifier layer (O58, O59; 46_host_identifier_layer.md R238, R241): where each byte of a kind number stands, and
that an encode whose payload R241 turns down is its error alone. -/

namespace Sys2Proof.Machine

/-! ### Kind numbers (R238) -/

/-- A byte of a word, moved back to its place, holds the word's own bits there and no others. -/
theorem getLsbD_byteInPlace (k : Word) (j : Nat) {i : Nat} (hi : i < 32) :
    ((k.extractLsb' j 8).setWidth 32 <<< j).getLsbD i = (decide (j ≤ i ∧ i < j + 8) && k.getLsbD i) := by
  simp only [BitVec.getLsbD_shiftLeft, BitVec.getLsbD_setWidth, BitVec.getLsbD_extractLsb']
  by_cases hj : j ≤ i
  · rw [Nat.add_sub_cancel' hj]
    grind
  · simp [hj]

/-- The four bytes of a kind number give it back: each bit stands in one of them. -/
theorem kindOfBytes_kindBytes (k : Word) : kindOfBytes (kindBytes k) = k := by
  have hplaces : kindOfBytes (kindBytes k) =
      ((k.extractLsb' 24 8).setWidth 32 <<< 24) ||| ((k.extractLsb' 16 8).setWidth 32 <<< 16) |||
        ((k.extractLsb' 8 8).setWidth 32 <<< 8) ||| ((k.extractLsb' 0 8).setWidth 32 <<< 0) := by
    rw [BitVec.shiftLeft_zero]; rfl
  refine hplaces.trans (BitVec.eq_of_getLsbD_eq fun i hi => ?_)
  simp only [BitVec.getLsbD_or, getLsbD_byteInPlace k _ hi, ← Bool.and_or_distrib_right]
  have hsome : 24 ≤ i ∧ i < 24 + 8 ∨ 16 ≤ i ∧ i < 16 + 8 ∨ 8 ≤ i ∧ i < 8 + 8 ∨ 0 ≤ i ∧ i < 0 + 8 := by omega
  simpa [or_assoc] using fun _ => hsome

/-- The four bytes are the number's digits in base 256, most significant first. -/
theorem kindBytes_toNat (k : Word) : (kindBytes k).map (fun b => b.toNat) =
    [k.toNat / 2 ^ 24, k.toNat / 2 ^ 16 % 256, k.toNat / 2 ^ 8 % 256, k.toNat % 256] := by
  have hbytes : (kindBytes k).map (fun b => b.toNat) =
      [k.toNat / 256 ^ 3 % 256, k.toNat / 256 ^ 2 % 256, k.toNat / 256 ^ 1 % 256, k.toNat / 256 ^ 0 % 256] := by
    simp only [← toNat_wordByte]; rfl
  have htop : k.toNat / 256 ^ 3 < 256 := Nat.div_lt_of_lt_mul k.isLt
  rw [hbytes, Nat.mod_eq_of_lt htop, Nat.pow_zero, Nat.div_one]
  norm_num

/-! ### Payloads that are turned down (R241) -/

/-- An naddr payload needs both its author and its kind, whatever its other fields are (log entry 19). -/
theorem payloadFault_of_naddr_incomplete {p : Payload} (hkind : p.kind = .naddr)
    (hmissing : p.hasAuthor = false ∨ p.hasKind = false) : payloadFault p = some .missingField := by
  rw [payloadFault, if_pos ⟨hkind, hmissing⟩]

/-- Encode of a payload that fails a check ends with the check's error, and the block is as it was. -/
theorem encodeIdentifier_of_payloadFault {p : Payload} {e : Err} (h : payloadFault p = some e) (s : State) :
    (encodeIdentifier p).run.run s = (.error (.error e), s) := by
  rw [encodeIdentifier, h]
  rfl

end Sys2Proof.Machine

namespace Sys2Proof.Proofs

open Sys2Proof.Machine

/-- Settles O58: each bit of a kind number stands in one of its bytes, and the bytes are its digits in base 256. -/
theorem kindNumberRoundTrip : Obligations.KindNumberRoundTrip := by
  unfold Obligations.KindNumberRoundTrip
  exact fun k => ⟨kindOfBytes_kindBytes k, kindBytes_toNat k⟩

/-- Settles O59: the missing field is the first of the checks that come before any command. -/
theorem missingFieldBeforeAnyCommand : Obligations.MissingFieldBeforeAnyCommand := by
  unfold Obligations.MissingFieldBeforeAnyCommand
  exact fun _ s hkind hmissing => encodeIdentifier_of_payloadFault (payloadFault_of_naddr_incomplete hkind hmissing) s

end Sys2Proof.Proofs
end

section
/-! SUPPORT. How a pending command ends (O9, O10, O12; 60_exceptions.md R270, R271, R273, R274): every word completes, an error leaves
the command's inputs alone, and a success writes OBUF only below OUT_LEN. -/

namespace Sys2Proof.Machine

/-! ### Every word completes (R271) -/

/-- A word's turn ends with nothing pending and a success or an error in STATUS: a command by its own end, another word by the
illegal command's error. -/
theorem runCommand_ends (w : Word) (s : State) : ∃ t, runCommand w s = .next t ∧ t.pending = none ∧
    ((∃ n, t.status = .succeeded n) ∨ ∃ e, t.status = .failed e) := by
  unfold runCommand
  split
  next i _ =>
    obtain ⟨t, ht, hp, hst⟩ := exec_ends i s
    exact ⟨t, ht, hp, hst.imp_left fun ⟨n, hn, _⟩ => ⟨n, hn⟩⟩
  next => exact ⟨_, rfl, rfl, .inr ⟨_, rfl⟩⟩

theorem step_pending {s : State} {w : Word} (hin : s.inputs = []) (hp : s.pending = some w) : step s = runCommand w s := by
  rw [step_nil hin, blockStep, hp]

/-! ### What an error leaves in place (R274) -/

/-- The inputs of a command: the two lengths, the command word and the bytes of IBUF. -/
def SameInputs (s t : State) : Prop :=
  t.inLen = s.inLen ∧ t.maxLen = s.maxLen ∧ t.cmd = s.cmd ∧
    ∀ k < Config.bufBytes, t.mem.read (Buffer.ibuf.base + k) = s.mem.read (Buffer.ibuf.base + k)

/-- XFER alone writes IN_LEN and IBUF (R222). -/
theorem exec_sameInputs {i : Instr} {s t : State} (ht : exec i s = .next t) (hi : i ≠ .xfer) : SameInputs s t := by
  have f := exec_registerFrame ht
  exact ⟨f.inLen hi, f.maxLen, f.cmd, exec_keeps_buffer ht (mayWrite_ibuf hi)⟩

/-- XFER has no error (R222). -/
theorem ne_xfer_of_err {i : Instr} {s t : State} (ht : exec i s = .next t) (herr : t.status.err = true) : i ≠ .xfer := by
  rintro rfl
  obtain rfl := next_inj (exec_xfer s) ht
  cases herr

theorem runCommand_sameInputs_of_err {w : Word} {s t : State} (ht : runCommand w s = .next t) (herr : t.status.err = true) :
    SameInputs s t := by
  unfold runCommand at ht
  split at ht
  next => exact exec_sameInputs ht (ne_xfer_of_err ht herr)
  next =>
    cases ht
    exact ⟨rfl, rfl, rfl, fun _ _ => rfl⟩

/-! ### What a success leaves in OBUF (R273) -/

/-- OBUF keeps its bytes at and above the new OUT_LEN. -/
def SameObufAbove (s t : State) : Prop :=
  ∀ k, t.outLen.toNat ≤ k → k < Config.bufBytes → t.mem.read (Buffer.obuf.base + k) = s.mem.read (Buffer.obuf.base + k)

/-- An output that fits OBUF is written below it. -/
theorem sameObufAbove_putOutput {s : State} {bs : Bytes} (h : bs.length ≤ Config.bufBytes) : SameObufAbove s (s.putOutput bs) := by
  intro k hk _
  rw [State.putOutput_outLen, toNat_ofNat_length h] at hk
  exact sameBytesBut_putOutput _ (by omega)

/-- A command that does not write OBUF keeps all of it; one that does ends in an error or writes its output, whose length the
command's own limit bounds. -/
theorem exec_sameObufAbove {i : Instr} {s t : State} (hmax : s.maxLen.toNat ≤ Config.bufBytes) (ht : exec i s = .next t)
    (hok : t.status.err = false) : SameObufAbove s t := by
  cases i with
  | nop | chkInit | chkStep | chkHrp | tlvParse | tlvFind | xfer => exact fun k _ => exec_keeps_buffer ht rfl k
  | chkFinal e =>
    obtain rfl := next_inj (exec_chkFinal e s) ht
    exact sameObufAbove_putOutput (by rw [length_chkChars]; decide)
  | b32Encode e =>
    rcases exec_b32Encode_cases e s with ⟨er, -, h⟩ | ⟨p, hp, h⟩ <;> obtain rfl := next_inj h ht
    · cases hok
    · exact sameObufAbove_putOutput ((encodeText_length_le hp).trans hmax)
  | b32Decode =>
    rcases exec_b32Decode_cases s with ⟨er, -, h⟩ | ⟨g, hg, h⟩ <;> obtain rfl := next_inj h ht
    · cases hok
    · have hlen := decodeText_lengths hg
      have hin := s.length_input_le
      have hfit : (g.words.map byteOfSym).length ≤ Config.bufBytes := by rw [List.length_map]; omega
      exact fun k hk hlast =>
        (sameObufAbove_putOutput (s := { s with mem := s.mem.storeBuffer .hbuf g.hrp }) hfit k hk hlast).trans
          (Memory.read_storeBuffer_other s.mem .hbuf g.hrp (holds_base_add_ne (by decide) hlast))
  | convert d p =>
    rcases exec_convert_cases d p s with ⟨e, -, h⟩ | ⟨-, h⟩ <;> obtain rfl := next_inj h ht
    · cases hok
    · exact sameObufAbove_putOutput (convertBits_bounds _ _ _).2
  | segwitEncode m =>
    rcases exec_segwitEncode_cases m s with ⟨e, -, h⟩ | ⟨-, ⟨e, -, h⟩ | ⟨-, ⟨e, -, h⟩ | ⟨p, hp, h⟩⟩⟩ <;>
      obtain rfl := next_inj h ht
    · cases hok
    · cases hok
    · cases hok
    · exact sameObufAbove_putOutput ((encodeText_length_le hp).trans (by decide))
  | segwitDecode m =>
    rcases exec_segwitDecode_cases m s with
      ⟨te, -, h⟩ | ⟨g, -, ⟨-, h⟩ | ⟨-, ⟨e, -, h⟩ | ⟨v, ws, c, -, rfl, ⟨e, -, h⟩ | ⟨-, ⟨-, h⟩ | ⟨-, h⟩⟩⟩⟩⟩ <;>
      obtain rfl := next_inj h ht
    · cases hok
    · cases hok
    · cases hok
    · cases hok
    · cases hok
    · exact sameObufAbove_putOutput (convertBits_bounds _ _ _).2
  | tlvEncode =>
    rcases exec_tlvEncode_cases s with ⟨e, -, h⟩ | ⟨out, hout, h⟩ <;> obtain rfl := next_inj h ht
    · cases hok
    · obtain ⟨-, -, hfit⟩ := concatRecords_ok s.input s.records [] out hout (Nat.zero_le _)
      exact sameObufAbove_putOutput hfit

end Sys2Proof.Machine

namespace Sys2Proof.Proofs

open Sys2Proof.Machine

/-- Settles O9: with no event left the step is the pending word's turn, and every word completes. -/
theorem everyPendingCommandCompletes : Obligations.EveryPendingCommandCompletes := by
  unfold Obligations.EveryPendingCommandCompletes
  intro s w hin hp
  obtain ⟨t, ht, hnone, ⟨n, hst⟩ | ⟨e, hst⟩⟩ := runCommand_ends w s <;>
    exact ⟨t, (step_pending hin hp).trans ht, hnone, by rw [hst]; rfl, by rw [hst]; rfl⟩

/-- Settles O10: an illegal word writes STATUS only, and of the commands only XFER, which has no error, writes an input. -/
theorem failingCommandKeepsItsInputs : Obligations.FailingCommandKeepsItsInputs := by
  unfold Obligations.FailingCommandKeepsItsInputs
  exact fun s t w hin hp ht herr => runCommand_sameInputs_of_err (step_pending hin hp ▸ ht) herr

/-- Settles O12: no success writes OBUF at or above its own OUT_LEN. -/
theorem successKeepsTheRestOfObuf : Obligations.SuccessKeepsTheRestOfObuf := by
  unfold Obligations.SuccessKeepsTheRestOfObuf
  exact fun i s t hmax ht hok _ => exec_sameObufAbove hmax ht hok

end Sys2Proof.Proofs
end

section
/-! SUPPORT. What a reset event does to any state (R290). -/

namespace Sys2Proof.Machine

theorem step_reset {s : State} {rest : List Event} (h : s.inputs = .reset :: rest) :
    step s = .next ({ s with inputs := rest } : State).resetNow := step_cons h

/-- While no byte is set and one draw stands for all three buffers, each buffer byte is that draw's free value (R293). -/
theorem Memory.read_of_nothing_set (d : Nat) {a : Nat} (h : (bufferAt a).isSome = true) :
    (⟨[], d, d, d⟩ : Memory).read a = Config.freeByte d a := by
  obtain ⟨b, hb⟩ := Option.isSome_iff_exists.1 h
  cases b <;> simp [Memory.read, hb, Memory.lookup, Memory.drawOf]

/-- The registers with fields read 0 after reset (R290). -/
theorem State.reset_words_zero : State.reset.status.word = 0x00000000 ∧ State.reset.tlvFound.word = 0x00000000 ∧
    ∀ i : Fin 16, State.reset.tlvRec[i].word = 0x00000000 := by decide

end Sys2Proof.Machine

namespace Sys2Proof.Proofs

open Sys2Proof.Machine

/-- Settles O17: the step is `resetNow`, which keeps of the old state only the draw count, the events to come and the read log. -/
theorem resetFromAnyState : Obligations.ResetFromAnyState := by
  unfold Obligations.ResetFromAnyState
  intro s rest hin
  obtain ⟨hstatus, hfound, hrec⟩ := State.reset_words_zero
  exact ⟨_, step_reset hin, rfl, hstatus, rfl, rfl, rfl, rfl, rfl, rfl, rfl, hfound, rfl, hrec, rfl, rfl, rfl, rfl, rfl, rfl,
    fun _ => Memory.read_of_nothing_set s.drawn, rfl, rfl⟩

end Sys2Proof.Proofs
end
